-- ==== Sys2Proof/Word.lean ====
section
/-! DEFINITION. The word types of the block: bus words, port items and wide registers. -/

namespace Sys2Proof

/-- One byte of a stream (BYTE8, R70; the data of a `Byte` token, R76). -/
abbrev Byte := BitVec 8

/-- One 32-bit register word, the datum of every bus access (R23, R53). -/
abbrev Word := BitVec 32

/-- A byte offset into the 16 KiB register window, `0x0000` to `0x3FFF` (R23, R50). -/
abbrev Offset := BitVec 14

/-- One item of the input port as the host drives it (TOKEN10, R70). -/
abbrev Token10 := BitVec 10

/-- The widest a wide register can be: `OPW <= 4096` (R6), the 0x200-byte window of R35. -/
def wideBits : Nat := 4096

/-- A wide register (R35 to R37) in a vector of the greatest width.
DESIGN CHOICE (log 4): the parameter `OPW` is a number in the state, so that the bits from `OPW`
up are zero is an invariant, not part of the type. -/
abbrev Wide := BitVec wideBits

/-- The wide register that holds the number `v`. -/
def wideOf (v : Nat) : Wide := BitVec.ofNat wideBits v

end Sys2Proof
end

