-- ==== Sys2Proof/Config.lean ====
section
/-! DEFINITION. The implementation parameters (R6) and the fixed constants of the block. -/

namespace Sys2Proof

/-- The implementation parameters of R6 that some rule reads.
`LATENCY` is left out: no rule reads it (R6, R243; log 8). -/
structure Params where
  /-- `OPW`: width in bits of every operand, result and key register. -/
  opw : Nat
  /-- `IN_DEPTH`: capacity of the input token queue, in tokens. -/
  inDepth : Nat
  /-- `OUT_DEPTH`: capacity of the output byte queue, in bytes. -/
  outDepth : Nat
  deriving DecidableEq, Repr

/-- `L`: words per wide register (R6). -/
def Params.words (p : Params) : Nat := p.opw / 32

/-- `OPBYTES`: bytes per wide register (R6). -/
def Params.opBytes (p : Params) : Nat := p.opw / 8

/-- The parameters of `State.reset`.
DESIGN CHOICE, unsafe for a claim about `State.reset` alone (log 2): the spec leaves them open;
every state carries its own and no step changes them. -/
def Config.params : Params := { opw := 64, inDepth := 64, outDepth := 64 }

/-- The ID register (R24). -/
def Config.idValue : Word := 0x52534145#32

end Sys2Proof
end

