-- ==== Sys2Proof/Syntax.lean ====
section
/-! DEFINITION. The commands of the opcode table (R72), one constructor each. -/

namespace Sys2Proof

/-- The eleven commands of R72.
A command has no operand field: it reads fixed registers through its snapshot (R71, R75). -/
inductive Instr where
  /-- 0x00 NOP (R104). -/
  | nop
  /-- 0x01 GCD (R121). -/
  | gcd
  /-- 0x02 XGCD (R122). -/
  | xgcd
  /-- 0x03 MODINV (R123). -/
  | modinv
  /-- 0x08 MODPOW (R142). -/
  | modpow
  /-- 0x09 POW (R143). -/
  | pow
  /-- 0x10 CONFIG (R161). -/
  | config
  /-- 0x11 ENCBLK (R165). -/
  | encblk
  /-- 0x12 DECBLK (R166). -/
  | decblk
  /-- 0x13 ENCSTREAM (R175). -/
  | encstream
  /-- 0x14 DECSTREAM (R175). -/
  | decstream
  deriving DecidableEq, Repr

end Sys2Proof
end

