-- ==== Sys2Proof/WellFormed.lean ====
section
/-! DEFINITION. What the sequencer can be given, and when it and the parameters are well formed. -/

namespace Sys2Proof

/-- What a CMD write decodes to (R73): a command of the table, or `Illegal(w)`. -/
inductive Command where
  /-- A command of R72. -/
  | instr (i : Instr)
  /-- `Illegal(w)`: a word of no command, kept whole because ERRINFO reports it (R105). -/
  | illegal (w : Word)
  deriving DecidableEq, Repr

/-- The eleven words that are commands (R72, R73). -/
def assignedWords : List Word :=
  [0x00#32, 0x01#32, 0x02#32, 0x03#32, 0x08#32, 0x09#32,
   0x10#32, 0x11#32, 0x12#32, 0x13#32, 0x14#32]

/-- A command of the table has no field that could be ill formed (R71). -/
def Instr.wellFormed : Instr → Bool
  | .nop | .gcd | .xgcd | .modinv | .modpow | .pow
  | .config | .encblk | .decblk | .encstream | .decstream => true

/-- `Illegal(w)` is well formed only for a word that is no command (R73). -/
def Command.wellFormed : Command → Bool
  | .instr i => i.wellFormed
  | .illegal w => !assignedWords.contains w

/-- The legal parameter values of R6. -/
def Params.legal (p : Params) : Bool :=
  decide (p.opw % 32 = 0) && decide (64 ≤ p.opw) && decide (p.opw ≤ 4096)
    && decide (p.opBytes + 1 ≤ p.inDepth) && decide (p.inDepth ≤ 65535)
    && decide (p.opBytes ≤ p.outDepth) && decide (p.outDepth ≤ 65535)

end Sys2Proof
end

