-- ==== Sys2Proof/Decode.lean ====
section
/-! DEFINITION. Decoding and encoding of the two formats the host writes: CMD32 and TOKEN10. -/

namespace Sys2Proof

/-- OPCODE of each command (R72). -/
def opcode : Instr → Byte
  | .nop => 0x00#8
  | .gcd => 0x01#8
  | .xgcd => 0x02#8
  | .modinv => 0x03#8
  | .modpow => 0x08#8
  | .pow => 0x09#8
  | .config => 0x10#8
  | .encblk => 0x11#8
  | .decblk => 0x12#8
  | .encstream => 0x13#8
  | .decstream => 0x14#8

/-- The OPCODE field, `CMD[7:0]` (R71). -/
def opcodeField (w : Word) : Byte := w.extractLsb' 0 8

/-- The RSVD field, `CMD[31:8]` (R71). -/
def reservedField (w : Word) : BitVec 24 := w.extractLsb' 8 24

/-- The opcode map of R72 read from the field: the unassigned opcodes have no command (R74). -/
def instrOfOpcode (b : Byte) : Option Instr :=
  if b = 0x00#8 then some .nop
  else if b = 0x01#8 then some .gcd
  else if b = 0x02#8 then some .xgcd
  else if b = 0x03#8 then some .modinv
  else if b = 0x08#8 then some .modpow
  else if b = 0x09#8 then some .pow
  else if b = 0x10#8 then some .config
  else if b = 0x11#8 then some .encblk
  else if b = 0x12#8 then some .decblk
  else if b = 0x13#8 then some .encstream
  else if b = 0x14#8 then some .decstream
  else none

/-- `decode(w)` of R73, total on all words. -/
def decode (w : Word) : Command :=
  if reservedField w = 0#24 then
    match instrOfOpcode (opcodeField w) with
    | some i => .instr i
    | none => .illegal w
  else .illegal w

/-- The CMD32 word of a command: `zext_32` of its opcode (R72, R81). -/
def encodeInstr (i : Instr) : Word := (opcode i).setWidth 32

/-- The CMD word that decodes to `c`. -/
def encode : Command → Word
  | .instr i => encodeInstr i
  | .illegal w => w

/-! Each command's word written out from opcode_table.json, and what it decodes to. -/

theorem decode_nop : decode 0b00000000000000000000000000000000#32 = .instr .nop := by decide
theorem decode_gcd : decode 0b00000000000000000000000000000001#32 = .instr .gcd := by decide
theorem decode_xgcd : decode 0b00000000000000000000000000000010#32 = .instr .xgcd := by decide
theorem decode_modinv : decode 0b00000000000000000000000000000011#32 = .instr .modinv := by decide
theorem decode_modpow : decode 0b00000000000000000000000000001000#32 = .instr .modpow := by decide
theorem decode_pow : decode 0b00000000000000000000000000001001#32 = .instr .pow := by decide
theorem decode_config : decode 0b00000000000000000000000000010000#32 = .instr .config := by decide
theorem decode_encblk : decode 0b00000000000000000000000000010001#32 = .instr .encblk := by decide
theorem decode_decblk : decode 0b00000000000000000000000000010010#32 = .instr .decblk := by decide
theorem decode_encstream : decode 0b00000000000000000000000000010011#32 = .instr .encstream := by
  decide
theorem decode_decstream : decode 0b00000000000000000000000000010100#32 = .instr .decstream := by
  decide

/-- One item of the input queue (R40, R76). -/
inductive Token where
  /-- `Byte(b)`. -/
  | byte (b : Byte)
  /-- `End`: end of input of the current stream. -/
  | eos
  /-- `Error`: the input source failed. -/
  | error
  deriving DecidableEq, Repr

/-- The token of a TOKEN10 (R76): KIND is `[9:8]`, DATA is `[7:0]`.
DEDUCED (log 11): the reserved kind 0b11 is stored as the `Error` it is treated as. -/
def decodeToken (t : Token10) : Token :=
  if t.extractLsb' 8 2 = 0b00#2 then .byte (t.extractLsb' 0 8)
  else if t.extractLsb' 8 2 = 0b01#2 then .eos
  else .error

/-- The TOKEN10 the host notation pushes for a token (R81). -/
def encodeToken : Token → Token10
  | .byte b => b.setWidth 10
  | .eos => 0x100#10
  | .error => 0x200#10

/-- The command the decoder reads from an opcode-table word of `nbits` bits; a word with a bit
beyond the 32 of CMD32 is no command (R70; log 16). -/
def decodeTableWord (nbits w : Nat) : Option Instr :=
  if w % 2 ^ nbits < 2 ^ 32 then
    match decode (BitVec.ofNat 32 (w % 2 ^ nbits)) with
    | .instr i => some i
    | .illegal _ => none
  else none

end Sys2Proof
end

