-- ==== Sys2Proof/Machine/State.lean ====
section
/-! DEFINITION. The state of the block as plain data (R20), the parts it is made of, and reset (R44). -/

namespace Sys2Proof.Machine

/-- The outcomes a completion can report (R200); codes 11 to 15 are never produced. -/
inductive ErrCode where
  /-- 0 NONE: success. -/
  | none
  /-- 1 KEY_ERROR: CONFIG with modulus 0. -/
  | keyError
  /-- 2 CAPABILITY: the exponent needed is absent. -/
  | capability
  /-- 3 MODULUS_TOO_SMALL: CONFIG with a final PLEN below 1 byte. -/
  | modulusTooSmall
  /-- 4 MODULUS_ZERO: MODPOW with modulus 0. -/
  | modulusZero
  /-- 5 OVERFLOW: a result that does not fit OPW bits. -/
  | overflow
  /-- 6 ILLEGAL_COMMAND: a CMD word of no command. -/
  | illegalCommand
  /-- 7 NOT_CONFIGURED: a key command while Uninitialized. -/
  | notConfigured
  /-- 8 ALREADY_CONFIGURED: CONFIG while Constructed. -/
  | alreadyConfigured
  /-- 9 IO_ERROR: an Error token in a stream. -/
  | ioError
  /-- 10 ABORTED: CTRL.ABORT during a stream command. -/
  | aborted
  deriving DecidableEq, Repr

/-- Direction of a stream command (R21, R175). -/
inductive Dir where
  /-- ENCSTREAM. -/
  | enc
  /-- DECSTREAM. -/
  | dec
  deriving DecidableEq, Repr

/-- The snapshot of R101: what a command may read, copied at acceptance.
EP, DP, CAP_EN and MAXBLK are fields of `keycfg`; PLEN and CLEN are fields of `blklen`. -/
structure Snapshot where
  /-- `snap.A`, from OPA. -/
  a : Wide
  /-- `snap.B`, from OPB. -/
  b : Wide
  /-- `snap.C`, from OPC. -/
  c : Wide
  /-- `snap.KEYCFG`, the whole word. -/
  keycfg : Word
  /-- `snap.N`, from KEY_N. -/
  n : Wide
  /-- `snap.KE`, from KEY_E. -/
  ke : Wide
  /-- `snap.KD`, from KEY_D. -/
  kd : Wide
  /-- `snap.KEYCONF`. -/
  keyconf : Bool
  /-- `snap.CAN_ENC`. -/
  canEnc : Bool
  /-- `snap.CAN_DEC`. -/
  canDec : Bool
  /-- BLKLEN, which holds `snap.PLEN` and `snap.CLEN`. -/
  blklen : Word
  deriving DecidableEq, Repr

/-- The engine phase (R21). -/
inductive Phase where
  /-- No command in progress. -/
  | idle
  /-- A command has been accepted and has taken no step yet. -/
  | busy (op : Command) (snap : Snapshot)
  /-- A stream command is in its frame loop. -/
  | stream (dir : Dir)
  deriving DecidableEq, Repr

/-- One action of the host (R14, R65, R81, R230). -/
inductive HostAction where
  /-- A register read of `width` bits at byte offset `off`. -/
  | read (off : Offset) (width : Nat)
  /-- A register write of `width` bits of value `v` at byte offset `off`. -/
  | write (off : Offset) (width : Nat) (v : Word)
  /-- A push of one TOKEN10 on the input port. -/
  | push (t : Token10)
  /-- A pop of one byte from the output port. -/
  | pop
  /-- The reset input `rst`, one atomic step (R230). -/
  | rst
  deriving DecidableEq, Repr

/-- One turn of the two agents (R14): an action of the host, a turn of its WAIT loop, or a turn of
the engine. -/
inductive Move where
  /-- The host's next action. -/
  | host (a : HostAction)
  /-- The host's loop WAIT (R83); `gaps` lists how many turns the engine has after each of its reads
  that finds BUSY = 1, and one turn after each read past the list (log 15). -/
  | wait (gaps : List Nat)
  /-- The engine takes a step if one is enabled. -/
  | engine
  deriving DecidableEq, Repr

/-- What the last host action got back (R54, R65, R81). -/
inductive Reply where
  /-- No host action has been answered since `rst`. -/
  | none
  /-- A write or a push was done. -/
  | done
  /-- The word a register read returned. -/
  | data (w : Word)
  /-- The bus error response of an access that is not decoded. -/
  | error
  /-- The byte a pop returned. -/
  | byte (b : Byte)
  deriving DecidableEq, Repr

/-- The complete state of the block (R20), then three fields of the model's own.
STATUS.BUSY and `irq` are functions of it (R21, R45; log 13). -/
structure State where
  /-- CTRL.IRQ_EN (R27). -/
  irqEn : Bool
  /-- STATUS.DONE (R28). -/
  done : Bool
  /-- STATUS.ERR (R28). -/
  err : Bool
  /-- STATUS.NOINV (R28). -/
  noinv : Bool
  /-- STATUS.SHORT (R28). -/
  short : Bool
  /-- STATUS.OVERRUN (R28). -/
  overrun : Bool
  /-- STATUS.KEYCONF (R22, R28). -/
  keyconf : Bool
  /-- STATUS.CAN_ENC (R28). -/
  canEnc : Bool
  /-- STATUS.CAN_DEC (R28). -/
  canDec : Bool
  /-- STATUS.ABORT_PEND (R43). -/
  abortPend : Bool
  /-- STATUS.ERRCODE (R28, R200). -/
  errcode : ErrCode
  /-- STATUS.CUR_OP (R28). -/
  curOp : Byte
  /-- ERRINFO (R30). -/
  errinfo : Word
  /-- KEYCFG (R31). -/
  keycfg : Word
  /-- BLKLEN (R32). -/
  blklen : Word
  /-- FRAMES (R33). -/
  frames : Word
  /-- OPA (R35). -/
  opa : Wide
  /-- OPB (R35). -/
  opb : Wide
  /-- OPC (R35). -/
  opc : Wide
  /-- R0 (R36). -/
  r0 : Wide
  /-- R1 (R36). -/
  r1 : Wide
  /-- R2 (R36). -/
  r2 : Wide
  /-- KEY_N (R37). -/
  keyN : Wide
  /-- KEY_E (R37). -/
  keyE : Wide
  /-- KEY_D (R37). -/
  keyD : Wide
  /-- The engine phase with the snapshot (R21). -/
  phase : Phase
  /-- `inq`, head first (R40). -/
  inq : List Token
  /-- `outq`, head first (R41). -/
  outq : List Byte
  /-- The model's own (log 2): the parameters of R6, which no step changes. -/
  cfg : Params
  /-- The model's own (log 1): the moves still to come, in order; no rule constrains them. -/
  agenda : List Move
  /-- The model's own (log 3): the response of the last host action. -/
  reply : Reply
  deriving DecidableEq, Repr

/-- Why a step can stop. No step of the block raises it: `step` calls the meaning of the command in
progress only. -/
inductive Fault where
  /-- Raised by a meaning that is asked for a command which is not the one in progress: R102 and
  R176 enable its step in no such state. Safe: it stops where no rule gives a step. -/
  | notInProgress
  deriving DecidableEq, Repr

/-- Why the model has no meaning for an instruction. -/
inductive Refusal where
  /-- Raised only by an arm of `exec` whose instruction has no meaning yet. Safe: it stops. -/
  | notModelled (mnemonic : String)
  deriving DecidableEq, Repr

/-- The state after reset for an implementation with parameters `p` (R44). -/
def State.resetOf (p : Params) : State where
  irqEn := false
  done := false
  err := false
  noinv := false
  short := false
  overrun := false
  keyconf := false
  canEnc := false
  canDec := false
  abortPend := false
  errcode := .none
  curOp := 0
  errinfo := 0
  keycfg := 0
  blklen := 0
  frames := 0
  opa := 0
  opb := 0
  opc := 0
  r0 := 0
  r1 := 0
  r2 := 0
  keyN := 0
  keyE := 0
  keyD := 0
  phase := .idle
  inq := []
  outq := []
  cfg := p
  agenda := []
  reply := .none

/-- The machine right after reset (R44), for the parameters of `Config.params` (log 2). -/
def State.reset : State := State.resetOf Config.params

end Sys2Proof.Machine
end

