-- ==== Sys2Proof/Machine/Operands.lean ====
section
/-! DEFINITION. How operands and results are assembled: words of wide registers, register fields,
byte sequences and the two's-complement encoding. -/

namespace Sys2Proof.Machine

/-- Word `i` of a wide register: its bits `[32*i+31 : 32*i]` (R35, R52). -/
def wideWord (v : Wide) (i : Nat) : Word := v.extractLsb' (32 * i) 32

/-- The wide register with word `i` replaced: "a write to one word changes only those 32 bits"
(R35). -/
def setWideWord (v : Wide) (i : Nat) (w : Word) : Wide :=
  (v &&& ~~~((BitVec.allOnes 32).setWidth wideBits <<< (32 * i)))
    ||| (w.setWidth wideBits <<< (32 * i))

/-- A register word with `x` as the field that starts at bit `lo`, and 0 in every other bit. -/
def fieldAt (lo : Nat) {n : Nat} (x : BitVec n) : Word := x.setWidth 32 <<< lo

/-- KEYCFG.EP, bit 0: a public exponent is present (R31). -/
def keycfgEP (w : Word) : Bool := w.getLsbD 0

/-- KEYCFG.DP, bit 1: a private exponent is present (R31). -/
def keycfgDP (w : Word) : Bool := w.getLsbD 1

/-- KEYCFG.CAP_EN, bit 2: maxBlockLength is given (R31). -/
def keycfgCapEn (w : Word) : Bool := w.getLsbD 2

/-- KEYCFG.MAXBLK, bits 31:16: maxBlockLength in bytes (R31). -/
def keycfgMaxBlk (w : Word) : Nat := (w.extractLsb' 16 16).toNat

/-- What a write of `v` leaves in KEYCFG: the reserved bits 15:3 stay 0 (R31). -/
def keycfgWritten (v : Word) : Word := v &&& 0xFFFF0007#32

/-- The BLKLEN word `{CLEN[15:0], PLEN[15:0]}` (R32, R161). -/
def blklenOf (plen clen : Nat) : Word := BitVec.ofNat 16 clen ++ BitVec.ofNat 16 plen

/-- BLKLEN[15:0], PLEN (R32). -/
def plenOf (blklen : Word) : Nat := (blklen.extractLsb' 0 16).toNat

/-- BLKLEN[31:16], CLEN (R32). -/
def clenOf (blklen : Word) : Nat := (blklen.extractLsb' 16 16).toNat

/-- `LE_n(v)`, the `n` low bytes of `v`, least significant first (R10, R51). -/
def leBytes : Nat → Nat → List Byte
  | 0, _ => []
  | n + 1, v => BitVec.ofNat 8 v :: leBytes n (v / 256)

/-- `fromLE(bs)`, the sum of `bs[i] * 256^i` (R10, R51). -/
def fromLE : List Byte → Nat
  | [] => 0
  | b :: bs => b.toNat + 256 * fromLE bs

/-- `tc_N(z)`, the `N`-bit two's-complement encoding of `z` (R8). -/
def twosComplement (n : Nat) (z : Int) : Nat := (z % 2 ^ n).toNat

/-- `signed_N(v)`, the integer that the `N`-bit two's-complement word `v` encodes (R8). -/
def signedOf (n v : Nat) : Int := if v < 2 ^ (n - 1) then v else v - 2 ^ n

/-- `-2^(N-1) <= z < 2^(N-1)`: `z` has an `N`-bit two's-complement encoding (R8, R122). -/
def fitsSigned (n : Nat) (z : Int) : Bool := decide (-2 ^ (n - 1) ≤ z) && decide (z < 2 ^ (n - 1))

/-- `bytelen(v)`: how often `v` can be shifted right by 8 before it is 0, at most `fuel` times. -/
def byteLenLoop : Nat → Nat → Nat
  | 0, _ => 0
  | fuel + 1, v => if v = 0 then 0 else byteLenLoop fuel (v >>> 8) + 1

/-- `bytelen(v)` (R9); `v` shifts are always enough. -/
def byteLen (v : Nat) : Nat := byteLenLoop v v

/-- `log256floor(v)` (R9): the number of `k >= 1` with `(v >> (8*k)) != 0`, which is how often
`v >> 8` can be shifted before it is 0. -/
def log256Floor (v : Nat) : Nat := byteLen (v >>> 8)

end Sys2Proof.Machine
end

