-- ==== Sys2Proof/Machine/Flags.lean ====
section
/-! DEFINITION. STATUS: its word, the codes of ERRCODE, BUSY and the interrupt output. -/

namespace Sys2Proof.Machine

/-- STATUS.ERRCODE of each outcome (R200). -/
def errCodeBits : ErrCode → BitVec 4
  | .none => 0#4
  | .keyError => 1#4
  | .capability => 2#4
  | .modulusTooSmall => 3#4
  | .modulusZero => 4#4
  | .overflow => 5#4
  | .illegalCommand => 6#4
  | .notConfigured => 7#4
  | .alreadyConfigured => 8#4
  | .ioError => 9#4
  | .aborted => 10#4

/-- STATUS.BUSY: 1 while the phase is `Busy` or `Stream` (R21, R28). -/
def State.busy (s : State) : Bool :=
  match s.phase with
  | .idle => false
  | .busy _ _ => true
  | .stream _ => true

/-- The interrupt output, `irq = STATUS.DONE and CTRL.IRQ_EN` (R45, R205). -/
def State.irq (s : State) : Bool := s.done && s.irqEn

/-- The STATUS word: every field at the bit R28 gives it; the bits of no field are 0. -/
def State.statusWord (s : State) : Word :=
  fieldAt 0 (BitVec.ofBool s.busy) ||| fieldAt 1 (BitVec.ofBool s.done)
    ||| fieldAt 2 (BitVec.ofBool s.err) ||| fieldAt 3 (BitVec.ofBool s.noinv)
    ||| fieldAt 4 (BitVec.ofBool s.short) ||| fieldAt 5 (BitVec.ofBool s.overrun)
    ||| fieldAt 6 (BitVec.ofBool s.keyconf) ||| fieldAt 7 (BitVec.ofBool s.canEnc)
    ||| fieldAt 8 (BitVec.ofBool s.canDec) ||| fieldAt 9 (BitVec.ofBool s.abortPend)
    ||| fieldAt 12 (errCodeBits s.errcode) ||| fieldAt 16 s.curOp

/-- A command that is one of the two stream commands (R43, R102). -/
def isStreamCommand : Command → Bool
  | .instr .encstream => true
  | .instr .decstream => true
  | _ => false

/-- A stream command is in progress: `Busy` with a stream command, or `Stream` (R43, R210). -/
def State.streaming (s : State) : Bool :=
  match s.phase with
  | .idle => false
  | .busy op _ => isStreamCommand op
  | .stream _ => true

/-- Clearing a report by a write of `v` to STATUS (R28, R206): bit 1 clears DONE, bit 2 clears ERR
with ERRCODE and ERRINFO, bit 5 clears OVERRUN. -/
def clearReport (v : Word) (s : State) : State :=
  { s with
    done := s.done && !v.getLsbD 1
    err := s.err && !v.getLsbD 2
    errcode := if v.getLsbD 2 then .none else s.errcode
    errinfo := if v.getLsbD 2 then 0 else s.errinfo
    overrun := s.overrun && !v.getLsbD 5 }

end Sys2Proof.Machine
end

