-- ==== Sys2Proof/Machine/Ops.lean ====
section
/-! DEFINITION. The operations every command and every register access is made of: acceptance and
snapshot, completion and error completion, abort, reset, and the register map. -/

namespace Sys2Proof.Machine

/-! Completion (R103) and its error form (R202). -/

/-- The key state a successful CONFIG writes (R161). -/
structure KeyLoad where
  /-- STATUS.CAN_ENC. -/
  canEnc : Bool
  /-- STATUS.CAN_DEC. -/
  canDec : Bool
  /-- BLKLEN. -/
  blklen : Word
  /-- KEY_N. -/
  n : Wide
  /-- KEY_E. -/
  ke : Wide
  /-- KEY_D. -/
  kd : Wide
  /-- KEYCFG. -/
  keycfg : Word
  deriving DecidableEq, Repr

/-- The `writes` of a completion: "only result registers (R0, R1, R2) and, for CONFIG, the key
state" (R103). -/
structure Writes where
  /-- The value for R0, if the command names it. -/
  r0 : Option Wide := none
  /-- The value for R1, if the command names it. -/
  r1 : Option Wide := none
  /-- The value for R2, if the command names it. -/
  r2 : Option Wide := none
  /-- The key state, for CONFIG. -/
  key : Option KeyLoad := none
  deriving DecidableEq, Repr

/-- The arguments of `complete(code, info, writes, noinv, short)` (R103). -/
structure Report where
  /-- The outcome. -/
  code : ErrCode := .none
  /-- The error context, for ERRINFO. -/
  info : Word := 0
  /-- What a successful completion writes. -/
  writes : Writes := {}
  /-- STATUS.NOINV. -/
  noinv : Bool := false
  /-- STATUS.SHORT. -/
  short : Bool := false
  deriving DecidableEq, Repr

/-- `raise E(info)`: the report of an error, with no writes (R11, R202). -/
def raise (code : ErrCode) (info : Word) : Report := { code := code, info := info }

/-- The report of a success that writes R0 only. -/
def reportR0 (v : Nat) : Report := { writes := { r0 := some (wideOf v) } }

/-- The key state moves to Constructed (R22, R161). -/
def loadKey (k : KeyLoad) (s : State) : State :=
  { s with
    keyconf := true
    canEnc := k.canEnc
    canDec := k.canDec
    blklen := k.blklen
    keyN := k.n
    keyE := k.ke
    keyD := k.kd
    keycfg := k.keycfg }

/-- `apply writes` (R103): a register a command does not name keeps its value (R36). -/
def applyWrites (w : Writes) (s : State) : State :=
  let t : State :=
    { s with r0 := w.r0.getD s.r0, r1 := w.r1.getD s.r1, r2 := w.r2.getD s.r2 }
  match w.key with
  | none => t
  | some k => loadKey k t

/-- `complete` (R103), the one operation by which a command ends, in success or in error (R202):
the report goes to STATUS and ERRINFO, and the engine to Idle. -/
def complete (r : Report) (s : State) : State :=
  let t := if r.code = .none then applyWrites r.writes s else s
  { t with
    errcode := r.code
    err := decide (r.code ≠ .none)
    errinfo := if r.code = .none then 0 else r.info
    noinv := r.noinv
    short := r.short
    abortPend := false
    done := true
    phase := .idle }

/-- The abort step (R210): the rest of the input is discarded and the command ends with ABORTED. -/
def abortStep (s : State) : State := complete (raise .aborted s.frames) { s with inq := [] }

/-! Acceptance (R100, R101). -/

/-- `snapshot()` (R101). -/
def takeSnapshot (s : State) : Snapshot where
  a := s.opa
  b := s.opb
  c := s.opc
  keycfg := s.keycfg
  n := s.keyN
  ke := s.keyE
  kd := s.keyD
  keyconf := s.keyconf
  canEnc := s.canEnc
  canDec := s.canDec
  blklen := s.blklen

/-- The acceptance of the command word `w`, the `else` branch of R100. -/
def accept (w : Word) (s : State) : State :=
  { s with
    done := false
    err := false
    errcode := .none
    errinfo := 0
    noinv := false
    short := false
    curOp := opcodeField w
    frames := if isStreamCommand (decode w) then 0 else s.frames
    phase := .busy (decode w) (takeSnapshot s) }

/-- A bus write of `w` to CMD (R100): dropped with OVERRUN while BUSY, else accepted. -/
def cmdWrite (w : Word) (s : State) : State :=
  if s.busy then { s with overrun := true } else accept w s

/-! Reset (R230, R231) and CTRL (R27). -/

/-- The effect of either reset on the block (R44, R230): every piece of its state. The parameters
are no state, and the moves still to come are not the block's (log 19). -/
def resetBlock (s : State) : State := { State.resetOf s.cfg with agenda := s.agenda }

/-- CTRL.ABORT (R43, R210): ABORT_PEND is set while a stream command is in progress, and in any
other phase the write has no effect on it (log 12). -/
def requestAbort (s : State) : State :=
  if s.streaming then { s with abortPend := true } else s

/-- A bus write of `v` to CTRL (R27, R231): SRST wins; otherwise IRQ_EN is written and then ABORT
is applied. -/
def ctrlWrite (v : Word) (s : State) : State :=
  if v.getLsbD 2 then resetBlock s
  else if v.getLsbD 1 then requestAbort { s with irqEn := v.getLsbD 0 }
  else { s with irqEn := v.getLsbD 0 }

/-! The register map (R23). -/

/-- The nine wide registers (R35 to R37). -/
inductive WideReg where
  /-- OPA. -/
  | opa
  /-- OPB. -/
  | opb
  /-- OPC. -/
  | opc
  /-- R0. -/
  | r0
  /-- R1. -/
  | r1
  /-- R2. -/
  | r2
  /-- KEY_N. -/
  | keyN
  /-- KEY_E. -/
  | keyE
  /-- KEY_D. -/
  | keyD
  deriving DecidableEq, Repr

/-- What stands at a word of the register window (R23). -/
inductive Reg where
  /-- ID. -/
  | id
  /-- HWCFG. -/
  | hwcfg
  /-- FIFOCFG. -/
  | fifocfg
  /-- CTRL. -/
  | ctrl
  /-- STATUS. -/
  | status
  /-- CMD. -/
  | cmd
  /-- ERRINFO. -/
  | errinfo
  /-- KEYCFG. -/
  | keycfg
  /-- BLKLEN. -/
  | blklen
  /-- FRAMES. -/
  | frames
  /-- LEVELS. -/
  | levels
  /-- A reserved offset. -/
  | reserved
  /-- Word `i` of the window of a wide register. -/
  | wide (x : WideReg) (i : Nat)
  deriving DecidableEq, Repr

/-- First byte offset of a wide register's 0x200-byte window (R23). -/
def wideBase : WideReg → Nat
  | .opa => 0x1000
  | .opb => 0x1200
  | .opc => 0x1400
  | .r0 => 0x1600
  | .r1 => 0x1800
  | .r2 => 0x1A00
  | .keyN => 0x1C00
  | .keyE => 0x1E00
  | .keyD => 0x2000

/-- The register map of R23, for an aligned byte offset `o`. -/
def regAt (o : Nat) : Reg :=
  if o = 0x0000 then .id
  else if o = 0x0004 then .hwcfg
  else if o = 0x0008 then .fifocfg
  else if o = 0x0010 then .ctrl
  else if o = 0x0014 then .status
  else if o = 0x0018 then .cmd
  else if o = 0x001C then .errinfo
  else if o = 0x0020 then .keycfg
  else if o = 0x0024 then .blklen
  else if o = 0x0028 then .frames
  else if o = 0x002C then .levels
  else if o < 0x1000 then .reserved
  else if o < 0x1200 then .wide .opa ((o - 0x1000) / 4)
  else if o < 0x1400 then .wide .opb ((o - 0x1200) / 4)
  else if o < 0x1600 then .wide .opc ((o - 0x1400) / 4)
  else if o < 0x1800 then .wide .r0 ((o - 0x1600) / 4)
  else if o < 0x1A00 then .wide .r1 ((o - 0x1800) / 4)
  else if o < 0x1C00 then .wide .r2 ((o - 0x1A00) / 4)
  else if o < 0x1E00 then .wide .keyN ((o - 0x1C00) / 4)
  else if o < 0x2000 then .wide .keyE ((o - 0x1E00) / 4)
  else if o < 0x2200 then .wide .keyD ((o - 0x2000) / 4)
  else .reserved

/-- The value of a wide register. -/
def State.wideReg (s : State) : WideReg → Wide
  | .opa => s.opa
  | .opb => s.opb
  | .opc => s.opc
  | .r0 => s.r0
  | .r1 => s.r1
  | .r2 => s.r2
  | .keyN => s.keyN
  | .keyE => s.keyE
  | .keyD => s.keyD

/-- What a read of a register returns (R24 to R37; log 17); no read changes the state (R56). -/
def regRead (s : State) : Reg → Word
  | .id => Config.idValue
  | .hwcfg => 0#16 ++ BitVec.ofNat 16 s.cfg.opw
  | .fifocfg => BitVec.ofNat 16 s.cfg.outDepth ++ BitVec.ofNat 16 s.cfg.inDepth
  | .ctrl => (BitVec.ofBool s.irqEn).setWidth 32
  | .status => s.statusWord
  | .cmd => 0#32
  | .errinfo => s.errinfo
  | .keycfg => s.keycfg
  | .blklen => s.blklen
  | .frames => s.frames
  | .levels => BitVec.ofNat 16 s.outq.length ++ BitVec.ofNat 16 s.inq.length
  | .reserved => 0#32
  | .wide x i => if i < s.cfg.words then wideWord (s.wideReg x) i else 0#32

/-- A write to KEYCFG is ignored while the key is Constructed (R31). -/
def keycfgWrite (v : Word) (s : State) : State :=
  if s.keyconf then s else { s with keycfg := keycfgWritten v }

/-- A write to word `i` of a wide register (R35 to R37): operand registers always take it, result
registers never, key registers while the key is Uninitialized; words from `L` up ignore it. -/
def wideWrite (x : WideReg) (i : Nat) (v : Word) (s : State) : State :=
  if i < s.cfg.words then
    match x with
    | .opa => { s with opa := setWideWord s.opa i v }
    | .opb => { s with opb := setWideWord s.opb i v }
    | .opc => { s with opc := setWideWord s.opc i v }
    | .r0 => s
    | .r1 => s
    | .r2 => s
    | .keyN => if s.keyconf then s else { s with keyN := setWideWord s.keyN i v }
    | .keyE => if s.keyconf then s else { s with keyE := setWideWord s.keyE i v }
    | .keyD => if s.keyconf then s else { s with keyD := setWideWord s.keyD i v }
  else s

/-- What a write of `v` to a register does; writes to read-only and reserved offsets are ignored
(R23). -/
def regWrite (r : Reg) (v : Word) (s : State) : State :=
  match r with
  | .ctrl => ctrlWrite v s
  | .status => clearReport v s
  | .cmd => cmdWrite v s
  | .keycfg => keycfgWrite v s
  | .wide x i => wideWrite x i v s
  | .id => s
  | .hwcfg => s
  | .fifocfg => s
  | .errinfo => s
  | .blklen => s
  | .frames => s
  | .levels => s
  | .reserved => s

end Sys2Proof.Machine
end

