-- ==== Sys2Proof/Machine/Bus.lean ====
section
/-! DEFINITION. The host's actions: register accesses, the two stream ports and `rst`. -/

namespace Sys2Proof.Machine

/-- An access is decoded when it is an aligned 32-bit one (R53, R54; log 10). -/
def accessDecoded (off : Offset) (width : Nat) : Bool :=
  decide (off.toNat % 4 = 0) && decide (width = 32)

/-- A register read: the word, or an error response; nothing of the block changes (R54, R56). -/
def busRead (off : Offset) (width : Nat) (s : State) : State :=
  if accessDecoded off width then { s with reply := .data (regRead s (regAt off.toNat)) }
  else { s with reply := .error }

/-- A register write, or an error response that changes nothing (R54). -/
def busWrite (off : Offset) (width : Nat) (v : Word) (s : State) : State :=
  if accessDecoded off width then { regWrite (regAt off.toNat) v s with reply := .done }
  else { s with reply := .error }

/-- A push, enabled when `|inq| < IN_DEPTH` (R40, R65). -/
def portPush (t : Token10) (s : State) : Option State :=
  if s.inq.length < s.cfg.inDepth then
    some { s with inq := s.inq ++ [decodeToken t], reply := .done }
  else none

/-- A pop, enabled when `|outq| > 0` (R41, R65). -/
def portPop (s : State) : Option State :=
  match s.outq with
  | [] => none
  | b :: rest => some { s with outq := rest, reply := .byte b }

/-- One action of the host; `none` where it is not enabled, so that it waits (R15, R65). -/
def hostStep (a : HostAction) (s : State) : Option State :=
  match a with
  | .read off width => some (busRead off width s)
  | .write off width v => some (busWrite off width v s)
  | .push t => portPush t s
  | .pop => portPop s
  | .rst => some (resetBlock s)

end Sys2Proof.Machine
end

