-- ==== Sys2Proof/Machine/Sequencer.lean ====
section
/-! DEFINITION. The command sequencer: the execute step (R102), NOP (R104) and illegal commands
(R105). -/

namespace Sys2Proof.Machine

/-- The execute step of a command `i` that is no stream command (R102): enabled when the phase is
`Busy(i, snap)`, it runs the command's pseudocode on the snapshot and completes. -/
def runScalar (i : Instr) (body : Snapshot → Report) (s : State) :
    Host.Outcome State Fault Refusal :=
  match s.phase with
  | .busy (.instr j) snap =>
    if j = i then .next (complete (body snap) s) else .fault .notInProgress
  | .busy (.illegal _) _ => .fault .notInProgress
  | .idle => .fault .notInProgress
  | .stream _ => .fault .notInProgress

/-- NOP: `complete(NONE, 0, no writes)` (R104). -/
def nopReport (_ : Snapshot) : Report := {}

/-- NOP (R104). -/
def execNop (s : State) : Host.Outcome State Fault Refusal := runScalar .nop nopReport s

/-- `Illegal(w)`: `complete(ILLEGAL_COMMAND, w, no writes)` (R105). -/
def illegalReport (w : Word) : Report := raise .illegalCommand w

end Sys2Proof.Machine
end

