-- ==== Sys2Proof/Machine/ExtendedGcd.lean ====
section
/-! DEFINITION. extended_gcd_unit: GCD, XGCD, MODINV (R120 to R126). -/

namespace Sys2Proof.Machine

/-- The Euclidean loop of R121, at most `fuel` turns. -/
def euclidLoop : Nat → Nat → Nat → Nat
  | 0, a, _ => a
  | fuel + 1, a, b => if b = 0 then a else euclidLoop fuel b (a % b)

/-- `gcd(a, b)` of R121; `b` falls at every turn, so `b` turns are enough (log 14). -/
def euclid (a b : Nat) : Nat := euclidLoop b a b

/-- GCD: `R0 <- gcd(snap.A, snap.B)` (R121). -/
def gcdReport (snap : Snapshot) : Report := reportR0 (euclid snap.a.toNat snap.b.toNat)

/-- GCD (R121). -/
def execGcd (s : State) : Host.Outcome State Fault Refusal := runScalar .gcd gcdReport s

/-- A Bezout result: `a*x + b*y = g` (R13, R122). -/
structure Bezout where
  /-- The greatest common divisor. -/
  g : Nat
  /-- The coefficient of `a`. -/
  x : Int
  /-- The coefficient of `b`. -/
  y : Int
  deriving DecidableEq, Repr

/-- The loop of R122 on remainders `r0, r1` and coefficient pairs `s0, s1` (of `b`) and `t0, t1`
(of `a`), at most `fuel` turns; `r0 - q*r1` with `q = r0 div r1` is `r0 mod r1`. -/
def xgcdLoop : Nat → Nat → Nat → Int → Int → Int → Int → Bezout
  | 0, r0, _, s0, _, t0, _ => ⟨r0, t0, s0⟩
  | fuel + 1, r0, r1, s0, s1, t0, t1 =>
    if r1 = 0 then ⟨r0, t0, s0⟩
    else
      xgcdLoop fuel r1 (r0 % r1) s1 (s0 - ((r0 / r1 : Nat) : Int) * s1)
        t1 (t0 - ((r0 / r1 : Nat) : Int) * t1)

/-- `xgcd(a, b)` of R122: the remainder sequence starts from the pair `(b, a)` (D14); `a` turns are
enough (log 14). -/
def xgcd (a b : Nat) : Bezout := xgcdLoop a b a 1 0 0 1

/-- XGCD (R122): `R0 <- g, R1 <- tc_OPW(x), R2 <- tc_OPW(y)`, or OVERFLOW if a coefficient does not
fit. -/
def xgcdReport (p : Params) (snap : Snapshot) : Report :=
  let z := xgcd snap.a.toNat snap.b.toNat
  if fitsSigned p.opw z.x && fitsSigned p.opw z.y then
    { writes :=
        { r0 := some (wideOf z.g)
          r1 := some (wideOf (twosComplement p.opw z.x))
          r2 := some (wideOf (twosComplement p.opw z.y)) } }
  else raise .overflow (encodeInstr .xgcd)

/-- XGCD (R122). -/
def execXgcd (s : State) : Host.Outcome State Fault Refusal :=
  runScalar .xgcd (xgcdReport s.cfg) s

/-- "No inverse": a success with NOINV = 1 and R0 = 0 (R123, D16). -/
def noInverse : Report := { writes := { r0 := some (wideOf 0) }, noinv := true }

/-- MODINV (R123). -/
def modinvReport (snap : Snapshot) : Report :=
  if snap.b.toNat = 0 then noInverse
  else
    let z := xgcd snap.a.toNat snap.b.toNat
    if z.g ≠ 1 then noInverse else reportR0 (z.x % (snap.b.toNat : Int)).toNat

/-- MODINV (R123). -/
def execModinv (s : State) : Host.Outcome State Fault Refusal :=
  runScalar .modinv modinvReport s

end Sys2Proof.Machine
end

