-- ==== Sys2Proof/Machine/Modexp.lean ====
section
/-! DEFINITION. modular_exponentiation_engine: MODPOW and POW (R140 to R145). -/

namespace Sys2Proof.Machine

/-- The square-and-multiply loop of R141, at most `fuel` turns. -/
def modpowLoop : Nat → Nat → Nat → Nat → Nat → Nat
  | 0, r, _, _, _ => r
  | fuel + 1, r, b, e, m =>
    if e = 0 then r
    else modpowLoop fuel (if e % 2 = 1 then (r * b) % m else r) ((b * b) % m) (e / 2) m

/-- `modpow(base, e, m)` of R141; the exponent halves at every turn, so `e` turns are enough
(log 14). With `e = 0` the result is 1 for every modulus (C8, D17); no command calls it with `m = 0`
in a consistent state (log 18). -/
def modpow (base e m : Nat) : Nat := modpowLoop e 1 (base % m) e m

/-- MODPOW (R142). -/
def modpowReport (snap : Snapshot) : Report :=
  if snap.c.toNat = 0 then raise .modulusZero (encodeInstr .modpow)
  else reportR0 (modpow snap.a.toNat snap.b.toNat snap.c.toNat)

/-- MODPOW (R142). -/
def execModpow (s : State) : Host.Outcome State Fault Refusal :=
  runScalar .modpow modpowReport s

/-- `base ^ e` if it is below `2^OPW` (R143). A base of 2 or more with an exponent of OPW or more
is past the bound before anything is multiplied, and the powers of 0 and 1 need no multiplication,
so that no exponent is too long to evaluate (log 14). -/
def powWithin (opw base e : Nat) : Option Nat :=
  if 2 ≤ base ∧ opw ≤ e then none
  else
    let v := if base ≤ 1 then (if e = 0 then 1 else base) else base ^ e
    if v < 2 ^ opw then some v else none

/-- POW (R143). -/
def powReport (p : Params) (snap : Snapshot) : Report :=
  match powWithin p.opw snap.a.toNat snap.b.toNat with
  | some v => reportR0 v
  | none => raise .overflow (encodeInstr .pow)

/-- POW (R143). -/
def execPow (s : State) : Host.Outcome State Fault Refusal := runScalar .pow (powReport s.cfg) s

end Sys2Proof.Machine
end

