-- ==== Sys2Proof/Machine/Frame.lean ====
section
/-! DEFINITION. block_stream_cipher_frame_processor: CONFIG, ENCBLK, DECBLK, ENCSTREAM, DECSTREAM
(R160 to R187). -/

namespace Sys2Proof.Machine

/-! Construction. -/

/-- `plen0(N)` (R162, C1, C2). -/
def plen0 (n : Nat) : Nat := log256Floor n

/-- `clen(N)` (R163, C3). -/
def clen (n : Nat) : Nat := byteLen (n - 1)

/-- `capped(W0, CAP_EN, MAXBLK)` (R164). -/
def capped (w0 : Nat) (capEn : Bool) (maxBlk : Nat) : Nat := if capEn then min w0 maxBlk else w0

/-- The final PLEN for a key modulus and a KEYCFG word (R161). -/
def configPlen (n : Nat) (keycfg : Word) : Nat :=
  capped (plen0 n) (keycfgCapEn keycfg) (keycfgMaxBlk keycfg)

/-- The key state a successful CONFIG writes (R161). -/
def keyOfSnapshot (snap : Snapshot) : KeyLoad where
  canEnc := keycfgEP snap.keycfg
  canDec := keycfgDP snap.keycfg
  blklen := blklenOf (configPlen snap.n.toNat snap.keycfg) (clen snap.n.toNat)
  n := snap.n
  ke := if keycfgEP snap.keycfg then snap.ke else 0
  kd := if keycfgDP snap.keycfg then snap.kd else 0
  keycfg := snap.keycfg

/-- CONFIG (R161), its checks in priority order (R204). -/
def configReport (snap : Snapshot) : Report :=
  if snap.keyconf then raise .alreadyConfigured (encodeInstr .config)
  else if snap.n.toNat = 0 then raise .keyError (encodeInstr .config)
  else if !keycfgEP snap.keycfg && !keycfgDP snap.keycfg then raise .capability snap.keycfg
  else if configPlen snap.n.toNat snap.keycfg < 1 then
    raise .modulusTooSmall
      (blklenOf (plen0 snap.n.toNat) (configPlen snap.n.toNat snap.keycfg))
  else { writes := { key := some (keyOfSnapshot snap) } }

/-- CONFIG (R161). -/
def execConfig (s : State) : Host.Outcome State Fault Refusal :=
  runScalar .config configReport s

/-! Single blocks. -/

/-- ENCBLK (R165). -/
def encblkReport (snap : Snapshot) : Report :=
  if !snap.keyconf then raise .notConfigured (encodeInstr .encblk)
  else if !snap.canEnc then raise .capability (encodeInstr .encblk)
  else reportR0 (modpow snap.a.toNat snap.ke.toNat snap.n.toNat)

/-- ENCBLK (R165). -/
def execEncblk (s : State) : Host.Outcome State Fault Refusal :=
  runScalar .encblk encblkReport s

/-- DECBLK (R166). -/
def decblkReport (snap : Snapshot) : Report :=
  if !snap.keyconf then raise .notConfigured (encodeInstr .decblk)
  else if !snap.canDec then raise .capability (encodeInstr .decblk)
  else reportR0 (modpow snap.a.toNat snap.kd.toNat snap.n.toNat)

/-- DECBLK (R166). -/
def execDecblk (s : State) : Host.Outcome State Fault Refusal :=
  runScalar .decblk decblkReport s

/-! Frames. -/

/-- `PLEN` of the latched key (R32). -/
def State.plen (s : State) : Nat := plenOf s.blklen

/-- `CLEN` of the latched key (R32). -/
def State.clen (s : State) : Nat := clenOf s.blklen

/-- `encF(bs)` (R170). -/
def encFrame (s : State) (bs : List Byte) : List Byte :=
  leBytes s.clen (modpow (fromLE bs) s.keyE.toNat s.keyN.toNat)

/-- `decF(bs)` (R171): the low PLEN bytes are kept (D26). -/
def decFrame (s : State) (bs : List Byte) : List Byte :=
  leBytes s.plen (modpow (fromLE bs) s.keyD.toNat s.keyN.toNat % 256 ^ s.plen)

/-- The stream command of a direction (R175). -/
def dirInstr : Dir → Instr
  | .enc => .encstream
  | .dec => .decstream

/-- `win`: the input frame width (R175). -/
def frameIn (dir : Dir) (s : State) : Nat :=
  match dir with
  | .enc => s.plen
  | .dec => s.clen

/-- `wout`: the output frame width (R175). -/
def frameOut (dir : Dir) (s : State) : Nat :=
  match dir with
  | .enc => s.clen
  | .dec => s.plen

/-- `F`: the frame transform (R175). -/
def frameFn (dir : Dir) (s : State) (bs : List Byte) : List Byte :=
  match dir with
  | .enc => encFrame s bs
  | .dec => decFrame s bs

/-- The data of the leading Byte tokens of a queue (R177). -/
def leadingBytes : List Token → List Byte
  | .byte b :: rest => b :: leadingBytes rest
  | .eos :: _ => []
  | .error :: _ => []
  | [] => []

/-- `k` of R177: `min(win, number of leading Byte tokens of inq)`. -/
def frameCount (dir : Dir) (s : State) : Nat := min (frameIn dir s) (leadingBytes s.inq).length

/-- The data bytes of the first `k` tokens (R178, R179). -/
def frameChunk (dir : Dir) (s : State) : List Byte := (leadingBytes s.inq).take (frameCount dir s)

/-- `term` of R177: the token behind the `k` bytes of an incomplete frame, if it is there. -/
def frameTerm (dir : Dir) (s : State) : Option Token :=
  if frameCount dir s < frameIn dir s then s.inq[frameCount dir s]? else none

/-- `space >= wout` with `space = OUT_DEPTH - |outq|` (R177): the output frame fits. -/
def frameFits (dir : Dir) (s : State) : Bool :=
  decide (s.outq.length + frameOut dir s ≤ s.cfg.outDepth)

/-- One output frame (R178, R179): the first `drop` tokens are removed, the frame is pushed and
FRAMES counts it. -/
def emitFrame (dir : Dir) (drop : Nat) (s : State) : State :=
  { s with
    inq := s.inq.drop drop
    outq := s.outq ++ frameFn dir s (frameChunk dir s)
    frames := s.frames + 1 }

/-- The full-frame step (R178). -/
def fullFrame (dir : Dir) (s : State) : State := emitFrame dir (frameCount dir s) s

/-- The short-final-frame step (R179): the End token goes with the bytes. -/
def shortFrame (dir : Dir) (s : State) : State :=
  complete { short := true } (emitFrame dir (frameCount dir s + 1) s)

/-- The End step (R180). -/
def endStep (s : State) : State := complete {} { s with inq := s.inq.drop 1 }

/-- The I/O-error step (R181): the bytes of the incomplete frame and the Error token are removed. -/
def ioErrorStep (dir : Dir) (s : State) : State :=
  complete (raise .ioError s.frames) { s with inq := s.inq.drop (frameCount dir s + 1) }

/-- One step of the frame loop (R178 to R181, abort R210).
Where R182 gives the engine no step, the state stays as it is: the command holds (log 5). -/
def streamStep (dir : Dir) (s : State) : State :=
  if s.abortPend then abortStep s
  else if frameCount dir s = frameIn dir s then
    if frameFits dir s then fullFrame dir s else s
  else
    match frameTerm dir s with
    | some .eos =>
      if frameCount dir s = 0 then endStep s
      else if frameFits dir s then shortFrame dir s
      else s
    | some .error => ioErrorStep dir s
    | some (.byte _) => s
    | none => s

/-- The key has the exponent a direction needs (R176). -/
def capable (dir : Dir) (snap : Snapshot) : Bool :=
  match dir with
  | .enc => snap.canEnc
  | .dec => snap.canDec

/-- The stream check step (R176). -/
def streamCheck (dir : Dir) (snap : Snapshot) (s : State) : State :=
  if s.abortPend then abortStep s
  else if !snap.keyconf then complete (raise .notConfigured (encodeInstr (dirInstr dir))) s
  else if !capable dir snap then complete (raise .capability (encodeInstr (dirInstr dir))) s
  else { s with phase := .stream dir }

/-- The next engine step of a stream command (R175): its check step while `Busy`, a step of its
frame loop while `Stream`. -/
def runStream (dir : Dir) (s : State) : Host.Outcome State Fault Refusal :=
  match s.phase with
  | .busy (.instr j) snap =>
    if j = dirInstr dir then .next (streamCheck dir snap s) else .fault .notInProgress
  | .stream d => if d = dir then .next (streamStep dir s) else .fault .notInProgress
  | .busy (.illegal _) _ => .fault .notInProgress
  | .idle => .fault .notInProgress

/-- ENCSTREAM (R175). -/
def execEncstream (s : State) : Host.Outcome State Fault Refusal := runStream .enc s

/-- DECSTREAM (R175). -/
def execDecstream (s : State) : Host.Outcome State Fault Refusal := runStream .dec s

end Sys2Proof.Machine
end

