-- ==== Sys2Proof/Machine/Dispatch.lean ====
section
/-! DEFINITION. The dispatch: one arm per command of R72, each the next engine step of that command. -/

namespace Sys2Proof.Machine

/-- The next engine step of the command `i` in progress (R102, R176 to R182, R210). -/
def exec (i : Instr) (s : State) : Host.Outcome State Fault Refusal :=
  match i with
  | .nop => Sys2Proof.Machine.execNop s
  | .gcd => Sys2Proof.Machine.execGcd s
  | .xgcd => Sys2Proof.Machine.execXgcd s
  | .modinv => Sys2Proof.Machine.execModinv s
  | .modpow => Sys2Proof.Machine.execModpow s
  | .pow => Sys2Proof.Machine.execPow s
  | .config => Sys2Proof.Machine.execConfig s
  | .encblk => Sys2Proof.Machine.execEncblk s
  | .decblk => Sys2Proof.Machine.execDecblk s
  | .encstream => Sys2Proof.Machine.execEncstream s
  | .decstream => Sys2Proof.Machine.execDecstream s

end Sys2Proof.Machine
end

