-- ==== Sys2Proof/Machine/Engine.lean ====
section
/-! DEFINITION. The engine's step and the turns of the two agents (R14, R59). -/

namespace Sys2Proof.Machine

/-- The engine's step in the phase it is in (R102, R105, R176 to R182, R210); in Idle it has none
and the state stays as it is (log 5). -/
def engineStep (s : State) : Host.Outcome State Fault Refusal :=
  match s.phase with
  | .idle => .next s
  | .busy (.instr i) _ => exec i s
  | .busy (.illegal w) _ => .next (complete (illegalReport w) s)
  | .stream dir => exec (dirInstr dir) s

/-- The value a read returned has bit 0 set, the loop test of WAIT (R83). -/
def replyBit0 : Reply → Bool
  | .data w => w.getLsbD 0
  | .none => false
  | .done => false
  | .error => false
  | .byte _ => false

/-- "go to wait" (R83): the engine's turns before the next read, then the loop again (log 15). -/
def waitAgain (gaps : List Nat) (rest : List Move) : List Move :=
  List.replicate (gaps.headD 1) .engine ++ .wait gaps.tail :: rest

/-- One turn of WAIT (R83): STATUS is read, and if bit 0 of the value is 1 the loop is still to
come; otherwise WAIT ends. -/
def waitTurn (gaps : List Nat) (rest : List Move) (s : State) : State :=
  let t := busRead 0x0014#14 32 s
  { t with agenda := if replyBit0 t.reply then waitAgain gaps rest else rest }

/-- One move of the block (R14, R59): the agenda says which agent moves. A host action that is not
enabled stays at the head and waits, and the engine moves (R15, R65); with nothing left on the
agenda the engine moves (log 1). -/
def advance (s : State) : Host.Outcome State Fault Refusal :=
  match s.agenda with
  | [] => engineStep s
  | .engine :: rest => engineStep { s with agenda := rest }
  | .host a :: rest =>
    match hostStep a { s with agenda := rest } with
    | some t => .next t
    | none => engineStep s
  | .wait gaps :: rest => .next (waitTurn gaps rest s)

/-- The state in which the command word `w` has just been accepted and nothing else is to come, so
that the next step is that command's (R100, R102; log 7). -/
def placeCommand (w : Word) (s : State) : State :=
  accept w { s with abortPend := false, agenda := [] }

end Sys2Proof.Machine
end

