-- ==== Sys2Proof/Machine/Step.lean ====
section
/-! DEFINITION. The step of the machine, and how the host's harness places one command. -/

namespace Sys2Proof.Machine

/-- One step of the block: a host action or an engine step, as the agenda says (R14). -/
def step (s : State) : Host.Outcome State Fault Refusal := advance s

/-- `s` with an instruction word of `nbits` bits accepted as the command in progress, so that the
very next step runs it (R100, R102; log 7). -/
def State.withFetchWord (s : State) (nbits w : Nat) : State :=
  placeCommand (BitVec.ofNat 32 (w % 2 ^ nbits)) s

end Sys2Proof.Machine
end

