-- ==== Sys2Proof/Machine/HostProgram.lean ====
section
/-! DEFINITION. The host's notation (R80 to R88): each primitive and pseudo-instruction as the host
actions it stands for, and WAIT as the host's loop (log 15). Its other branches are its own (R16,
R108). -/

namespace Sys2Proof.Machine

/-- The byte offset of a register (R23); for `reserved`, the reserved word at 0x000C. -/
def regOffset : Reg → Nat
  | .id => 0x0000
  | .hwcfg => 0x0004
  | .fifocfg => 0x0008
  | .reserved => 0x000C
  | .ctrl => 0x0010
  | .status => 0x0014
  | .cmd => 0x0018
  | .errinfo => 0x001C
  | .keycfg => 0x0020
  | .blklen => 0x0024
  | .frames => 0x0028
  | .levels => 0x002C
  | .wide x i => wideBase x + 4 * i

/-- `WR R, v` and `WR X.wI, v` (R81). -/
def wr (r : Reg) (v : Word) : HostAction := .write (BitVec.ofNat 14 (regOffset r)) 32 v

/-- `RD R` and `RD X.wI` (R81). -/
def rd (r : Reg) : HostAction := .read (BitVec.ofNat 14 (regOffset r)) 32

/-- `CMD M` (R81). -/
def cmd (i : Instr) : HostAction := wr .cmd (encodeInstr i)

/-- `PUSH b` (R81). -/
def pushByte (b : Byte) : HostAction := .push (encodeToken (.byte b))

/-- `PUSH.END` (R81). -/
def pushEnd : HostAction := .push (encodeToken .eos)

/-- `PUSH.ERR` (R81). -/
def pushErr : HostAction := .push (encodeToken .error)

/-- `WR X, v` with `X` a wide register: `L` writes in ascending word order (R82). -/
def wrWide (p : Params) (x : WideReg) (v : Wide) : List HostAction :=
  (List.range p.words).map fun i => wr (.wide x i) (wideWord v i)

/-- `RD X` with `X` a wide register (R82). -/
def rdWide (p : Params) (x : WideReg) : List HostAction :=
  (List.range p.words).map fun i => rd (.wide x i)

/-- The value assembled from the words of a wide register, lowest word first (R75, R82). -/
def assembleWords : List Word → Nat
  | [] => 0
  | w :: ws => w.toNat + 2 ^ 32 * assembleWords ws

/-- `WAIT` (R83), with the engine's turns between its reads. -/
def wait (gaps : List Nat) : Move := .wait gaps

/-- `keycfg(ep, dp, cap)` (R84). -/
def keycfgWord (ep dp : Bool) (cap : Option (BitVec 16)) : Word :=
  match cap with
  | none => (BitVec.ofBool dp ++ BitVec.ofBool ep).setWidth 32
  | some m => m ++ 0#13 ++ 1#1 ++ BitVec.ofBool dp ++ BitVec.ofBool ep

/-- `LOADKEY n, e, d, cfg` (R84). -/
def loadKeyProgram (p : Params) (n e d : Wide) (cfg : Word) : List HostAction :=
  wrWide p .keyN n ++ wrWide p .keyE e ++ wrWide p .keyD d ++ [wr .keycfg cfg]

/-- `IRQON` (R85). -/
def irqOn : HostAction := wr .ctrl 0x1#32

/-- `IRQOFF` (R85). -/
def irqOff : HostAction := wr .ctrl 0x0#32

/-- `ABORT` (R85). -/
def abort : HostAction := wr .ctrl 0x2#32

/-- `ABORT.IE` (R85). -/
def abortIe : HostAction := wr .ctrl 0x3#32

/-- `SRST` (R85). -/
def srst : HostAction := wr .ctrl 0x4#32

/-- `CLR` (R86). -/
def clr : HostAction := wr .status 0x26#32

/-- `PUSHB b0, b1, ..., bk` (R87). -/
def pushBytes (bs : List Byte) : List HostAction := bs.map pushByte

/-- `POPN n` (R87). -/
def popN (n : Nat) : List HostAction := List.replicate n .pop

/-- `RUN M` is `CMD M ; WAIT` (R88).
DESIGN CHOICE (log 15): which agent moves between them is open (R14, R59), so `lead` says how many
turns the engine has before WAIT's first read, and `gaps` how many between its reads. -/
def runCommand (i : Instr) (lead : Nat) (gaps : List Nat) : List Move :=
  .host (cmd i) :: (List.replicate lead .engine ++ [wait gaps])

/-- Host actions as moves, each followed by `k` turns of the engine; with `k` large enough it is
the schedule of 95_test_vectors.md, "engine steps run as soon as they are enabled". -/
def schedule (k : Nat) (as : List HostAction) : List Move :=
  as.flatMap fun a => .host a :: List.replicate k .engine

/-- Host actions taken one after another with no engine step between them; `none` where one of them
is not enabled. -/
def runHost : List HostAction → State → Option State
  | [], s => some s
  | a :: as, s =>
    match hostStep a s with
    | some t => runHost as t
    | none => none

end Sys2Proof.Machine
end

