-- ==== Sys2Proof/Safety.lean ====
section
/-! DEFINITION. What the statements call a safe step and a consistent state. -/

namespace Sys2Proof

open Sys2Proof.Machine

/-- The block moves on from `s`: "the block never halts" (R16). -/
def Safe (s : State) : Prop := ∃ t, step s = .next t

/-! The terms the statements are written in. -/

/-- What a command that succeeded leaves, beside the registers it names (R103). -/
def succeeded (noinv short : Bool) (s : State) : State :=
  { s with
    errcode := .none
    err := false
    errinfo := 0
    noinv := noinv
    short := short
    abortPend := false
    done := true
    phase := .idle }

/-- What a command that failed with `code` and `info` leaves (R103, R202). -/
def failed (code : ErrCode) (info : Word) (s : State) : State :=
  { s with
    errcode := code
    err := true
    errinfo := info
    noinv := false
    short := false
    abortPend := false
    done := true
    phase := .idle }

/-- The value of `modpow(base, e, m)` as R141 states it beside the algorithm: `base^e mod m` for
`e >= 1`, and 1 for `e = 0`. -/
def powMod (base e m : Nat) : Nat := if e = 0 then 1 else base ^ e % m

/-- The next move is a reset: `rst` (R230), or a write to CTRL with SRST = 1 (R231). -/
def ResetMove (s : State) : Prop :=
  (∃ rest, s.agenda = .host .rst :: rest) ∨
  (∃ off v rest, s.agenda = .host (.write off 32 v) :: rest ∧ off.toNat = 0x0010 ∧
    v.getLsbD 2 = true)

/-- What can be next in the frame loop of a stream command (R178 to R182). -/
inductive FrameEvent where
  /-- A full-frame step (R178). -/
  | full
  /-- A short-final-frame step (R179). -/
  | short
  /-- An End step (R180). -/
  | ending
  /-- An I/O-error step (R181). -/
  | ioError
  /-- The hold for more input (R182 case 1). -/
  | holdInput
  /-- The hold for room in `outq` (R182 case 2). -/
  | holdOutput
  deriving DecidableEq, Repr

/-- When each of them is enabled (R178 to R182), with `k`, `term` and `space` of R177. -/
def frameEnabled (e : FrameEvent) (dir : Dir) (s : State) : Prop :=
  let k := frameCount dir s
  let win := frameIn dir s
  let room := s.outq.length + frameOut dir s ≤ s.cfg.outDepth
  match e with
  | .full => k = win ∧ room
  | .short => 1 ≤ k ∧ k < win ∧ frameTerm dir s = some .eos ∧ room
  | .ending => k = 0 ∧ frameTerm dir s = some .eos
  | .ioError => k < win ∧ frameTerm dir s = some .error
  | .holdInput => k < win ∧ frameTerm dir s = none
  | .holdOutput => (k = win ∨ 1 ≤ k ∧ k < win ∧ frameTerm dir s = some .eos) ∧ ¬room

/-! Consistent states. -/

/-- The value fits OPW bits (R7: register values are in `[0, 2^OPW)`). -/
abbrev FitsOpw (p : Params) (v : Wide) : Prop := v.toNat < 2 ^ p.opw

/-- Every value of a snapshot fits OPW bits (R7, R101). -/
structure SnapshotFits (p : Params) (snap : Snapshot) : Prop where
  a : FitsOpw p snap.a
  b : FitsOpw p snap.b
  c : FitsOpw p snap.c
  n : FitsOpw p snap.n
  ke : FitsOpw p snap.ke
  kd : FitsOpw p snap.kd

/-- Every wide register fits OPW bits, and so does every value of the snapshot (R7, R35 to R37). -/
structure RegistersFit (s : State) : Prop where
  opa : FitsOpw s.cfg s.opa
  opb : FitsOpw s.cfg s.opb
  opc : FitsOpw s.cfg s.opc
  r0 : FitsOpw s.cfg s.r0
  r1 : FitsOpw s.cfg s.r1
  r2 : FitsOpw s.cfg s.r2
  keyN : FitsOpw s.cfg s.keyN
  keyE : FitsOpw s.cfg s.keyE
  keyD : FitsOpw s.cfg s.keyD
  snap : ∀ op snap, s.phase = .busy op snap → SnapshotFits s.cfg snap

/-- The report is one that a completion, an acceptance or a clearing write can leave (R28, R30):
ERR says whether ERRCODE is NONE, ERRINFO is 0 without an error, at most one of ERR, NOINV and
SHORT stands, and none of DONE, ERR, NOINV, SHORT while BUSY. -/
structure ReportOk (s : State) : Prop where
  err_iff : s.err = true ↔ s.errcode ≠ .none
  info : s.err = false → s.errinfo = 0
  noinv : s.noinv = true → s.err = false ∧ s.short = false
  short : s.short = true → s.err = false
  busy : s.busy = true → s.done = false ∧ s.err = false ∧ s.noinv = false ∧ s.short = false

/-- The key state is one of the two of R22, with BLKLEN as R161 to R164 compute it once
Constructed. -/
structure KeyOk (s : State) : Prop where
  reserved : keycfgWritten s.keycfg = s.keycfg
  unconfigured : s.keyconf = false → s.canEnc = false ∧ s.canDec = false ∧ s.blklen = 0
  canEnc : s.keyconf = true → s.canEnc = keycfgEP s.keycfg
  canDec : s.keyconf = true → s.canDec = keycfgDP s.keycfg
  some_exponent : s.keyconf = true → s.canEnc = true ∨ s.canDec = true
  no_e : s.keyconf = true → s.canEnc = false → s.keyE = 0
  no_d : s.keyconf = true → s.canDec = false → s.keyD = 0
  blklen : s.keyconf = true →
    s.blklen = blklenOf (configPlen s.keyN.toNat s.keycfg) (clen s.keyN.toNat)
  plen_pos : s.keyconf = true → 1 ≤ configPlen s.keyN.toNat s.keycfg

/-- The snapshot agrees with the key state, which cannot change while a command runs (R101). -/
structure SnapshotOk (snap : Snapshot) (s : State) : Prop where
  keyconf : snap.keyconf = s.keyconf
  canEnc : snap.canEnc = s.canEnc
  canDec : snap.canDec = s.canDec
  blklen : snap.blklen = s.blklen
  reserved : keycfgWritten snap.keycfg = snap.keycfg
  key : s.keyconf = true →
    snap.keycfg = s.keycfg ∧ snap.n = s.keyN ∧ snap.ke = s.keyE ∧ snap.kd = s.keyD

/-- The phase agrees with CUR_OP, ABORT_PEND and the key state (R21, R28, R43, R176). -/
structure PhaseOk (s : State) : Prop where
  idle : s.phase = .idle → s.abortPend = false
  busy : ∀ op snap, s.phase = .busy op snap →
    op.wellFormed = true ∧ s.curOp = opcodeField (encode op) ∧ SnapshotOk snap s ∧
    (s.abortPend = true → isStreamCommand op = true)
  stream : ∀ dir, s.phase = .stream dir →
    s.curOp = opcode (dirInstr dir) ∧ s.keyconf = true ∧
    (dir = .enc → s.canEnc = true) ∧ (dir = .dec → s.canDec = true)

/-- The queues hold at most what the parameters allow (R40, R41). -/
structure QueuesFit (s : State) : Prop where
  inq : s.inq.length ≤ s.cfg.inDepth
  outq : s.outq.length ≤ s.cfg.outDepth

/-- The invariant of the block: what holds at reset and after every step. -/
structure Inv (s : State) : Prop where
  legal : s.cfg.legal = true
  registers : RegistersFit s
  report : ReportOk s
  key : KeyOk s
  phase : PhaseOk s
  queues : QueuesFit s

end Sys2Proof
end

