-- ==== Sys2Proof/Certificates/Slice0/Obligations.lean ====
section
/-! DEFINITION. The statements about the block, each over the rules of the spec it formalises. -/

namespace Sys2Proof

open Sys2Proof.Machine

/-! Encoding. -/

/-- The table of R72: each command's word. -/
def commandTable : List (Word × Instr) :=
  [(0x00#32, .nop), (0x01#32, .gcd), (0x02#32, .xgcd), (0x03#32, .modinv),
   (0x08#32, .modpow), (0x09#32, .pow), (0x10#32, .config), (0x11#32, .encblk),
   (0x12#32, .decblk), (0x13#32, .encstream), (0x14#32, .decstream)]

end Sys2Proof

open Sys2Proof Sys2Proof.Machine

/-- Each of the eleven words of opcode_table.json, written out bit by bit, decodes to its
command. -/
def Obligations.TableWordsDecode : Prop :=
  decode 0b00000000000000000000000000000000#32 = .instr .nop ∧
  decode 0b00000000000000000000000000000001#32 = .instr .gcd ∧
  decode 0b00000000000000000000000000000010#32 = .instr .xgcd ∧
  decode 0b00000000000000000000000000000011#32 = .instr .modinv ∧
  decode 0b00000000000000000000000000001000#32 = .instr .modpow ∧
  decode 0b00000000000000000000000000001001#32 = .instr .pow ∧
  decode 0b00000000000000000000000000010000#32 = .instr .config ∧
  decode 0b00000000000000000000000000010001#32 = .instr .encblk ∧
  decode 0b00000000000000000000000000010010#32 = .instr .decblk ∧
  decode 0b00000000000000000000000000010011#32 = .instr .encstream ∧
  decode 0b00000000000000000000000000010100#32 = .instr .decstream ∧
  ∀ p ∈ commandTable, decodeTableWord 32 p.1.toNat = some p.2

/-- R73: `decode` answers, for every one of the 2^32 words, the command of the table for exactly
the eleven words of the table (which have `w[31:8] = 0`), and `Illegal(w)` for every other. -/
def Obligations.DecodeIsTheOpcodeMap : Prop :=
  (∀ w i, decode w = .instr i ↔ (w, i) ∈ commandTable) ∧
  (∀ w, (∀ i, (w, i) ∉ commandTable) → decode w = .illegal w) ∧
  (∀ w v, decode w = .illegal v → v = w) ∧
  (∀ w : Word, w.toNat / 256 ≠ 0 → decode w = .illegal w) ∧
  commandTable.length = 11 ∧ (commandTable.map Prod.fst).Nodup

/-- Decoding and encoding agree in both directions: every well-formed command decodes from its
word, and every word is the word of the command it decodes to, which is well formed. -/
def Obligations.DecodeEncodeAgree : Prop :=
  (∀ c : Command, c.wellFormed = true → decode (encode c) = c) ∧
  (∀ w : Word, encode (decode w) = w ∧ (decode w).wellFormed = true)

/-- R76: the four token kinds, and the tokens the host notation pushes decode to themselves. -/
def Obligations.TokenKinds : Prop :=
  (∀ d : Byte, decodeToken (0b00#2 ++ d) = .byte d ∧ decodeToken (0b01#2 ++ d) = .eos ∧
    decodeToken (0b10#2 ++ d) = .error ∧ decodeToken (0b11#2 ++ d) = .error) ∧
  (∀ t : Token, decodeToken (encodeToken t) = t)

/-- R10: `LE_n(v)` lists the `n` low bytes of `v`, least significant first; `fromLE` is the sum of
`bs[i] * 256^i`; each undoes the other on values of `n` bytes. -/
def Obligations.LittleEndianBytes : Prop :=
  (∀ n v, (leBytes n v).length = n ∧
    ∀ i, i < n → (leBytes n v)[i]? = some (BitVec.ofNat 8 (v / 256 ^ i))) ∧
  (∀ bs : List Byte, fromLE bs = (bs.mapIdx fun i b => b.toNat * 256 ^ i).sum) ∧
  (∀ n v, v < 256 ^ n → fromLE (leBytes n v) = v) ∧
  (∀ bs : List Byte, leBytes bs.length (fromLE bs) = bs)

/-! The steps of the two agents. -/

/-- Which step the block takes. With the agenda empty, at a turn of the engine, or while the host's
next action waits, the engine steps, and its step is the meaning of the command in progress, Busy or
in its frame loop, the error completion of a word of no command, or in Idle none (log 5). A host
action that is enabled is the step (log 1); its reply is the model's own field (log 3). A turn of
WAIT reads STATUS and ends WAIT exactly when it finds BUSY = 0 (R83; log 15). A command word placed
for the harness is the command of the next step (log 7). -/
def Obligations.StepRunsTheCommandInProgress : Prop :=
  (∀ (s : State) (meaning : State → Host.Outcome State Fault Refusal),
    (∃ i snap, s.phase = .busy (.instr i) snap ∧ meaning = exec i) ∨
    (∃ dir, s.phase = .stream dir ∧ meaning = exec (dirInstr dir)) ∨
    (∃ w snap, s.phase = .busy (.illegal w) snap ∧
      meaning = fun t => .next (failed .illegalCommand w t)) ∨
    (s.phase = .idle ∧ meaning = fun t => .next t) →
    (s.agenda = [] → step s = meaning s) ∧
    (∀ rest, s.agenda = .engine :: rest → step s = meaning { s with agenda := rest }) ∧
    (∀ a rest, s.agenda = .host a :: rest → hostStep a { s with agenda := rest } = none →
      step s = meaning s)) ∧
  (∀ (s t : State) (a : HostAction) (rest : List Move), s.agenda = .host a :: rest →
    hostStep a { s with agenda := rest } = some t → step s = .next t) ∧
  (∀ (s : State) (w : Word) (rest : List Move), s.phase = .idle →
    s.agenda = .host (.write 0x0018#14 32 w) :: rest →
    step s = .next { accept w { s with agenda := rest } with reply := .done }) ∧
  (∀ (s : State) (gaps : List Nat) (rest : List Move), s.agenda = .wait gaps :: rest →
    (s.busy = false →
      step s = .next { s with agenda := rest, reply := .data s.statusWord }) ∧
    (s.busy = true → step s = .next
      { s with
        agenda := List.replicate (gaps.headD 1) .engine ++ .wait gaps.tail :: rest
        reply := .data s.statusWord })) ∧
  (∀ (s : State) (w : Word) (i : Instr), decode w = .instr i →
    step (s.withFetchWord 32 w.toNat) = exec i (s.withFetchWord 32 w.toNat))

/-- No step faults or is refused, from any state (R16); where the engine has no step, that the step
answers the same state is the model's choice (log 5). And `RUN M` of a command other than a stream
command comes to its end, whatever the engine's turns before the first read of its WAIT and between its
reads (R83, R88, R110; log 15), in the state that the command's completion leaves, with BUSY = 0 read
last. -/
def Obligations.BlockNeverHalts : Prop :=
  (∀ s : State, Safe s) ∧
  (∀ (s : State) (i : Instr) (lead : Nat) (gaps : List Nat) (rest : List Move),
    i ≠ .encstream → i ≠ .decstream → s.phase = .idle →
    s.agenda = runCommand i lead gaps ++ rest →
    ∃ n u, exec i (accept (encodeInstr i) s) = .next u ∧ u.busy = false ∧ u.done = true ∧
      Host.Core.run Sys2Proof.core n s = .next
        { u with agenda := rest, reply := .data u.statusWord })

/-- Every step keeps the state consistent: parameters legal, registers within OPW bits, a report
that a completion can leave, one of the two key states with its BLKLEN, a phase that agrees with
CUR_OP, ABORT_PEND and the key, queues within capacity. -/
def Obligations.InvariantKeptByEveryStep : Prop :=
  ∀ s t : State, Inv s → step s = .next t → Inv t

/-- The reset state is consistent for all legal parameters, those of `State.reset` (log 2)
among them. -/
def Obligations.ResetIsConsistent : Prop :=
  (∀ p : Params, p.legal = true → Inv (State.resetOf p)) ∧ Inv State.reset

/-- OPW, IN_DEPTH and OUT_DEPTH are constants of an implementation: no step changes the parameters
the state carries (log 2). -/
def Obligations.ParametersNeverChange : Prop :=
  ∀ s t : State, step s = .next t → t.cfg = s.cfg

/-! Acceptance, completion, reset. -/

/-- R100: a write of `w` to CMD is dropped with OVERRUN while BUSY, and otherwise accepted, with
everything acceptance sets and nothing else changed; BUSY is 1 then, and `irq` is low. -/
def Obligations.CmdWriteAcceptsOrOverruns : Prop :=
  ∀ (s : State) (w : Word),
    (s.busy = true → ∃ r,
      hostStep (.write 0x0018#14 32 w) s = some { s with overrun := true, reply := r }) ∧
    (s.busy = false → ∃ r t,
      hostStep (.write 0x0018#14 32 w) s = some t ∧ t.busy = true ∧ t.irq = false ∧
      t = { s with
            done := false
            err := false
            errcode := .none
            errinfo := 0
            noinv := false
            short := false
            curOp := w.extractLsb' 0 8
            frames :=
              if decode w = .instr .encstream ∨ decode w = .instr .decstream then 0 else s.frames
            phase := .busy (decode w) (takeSnapshot s)
            reply := r })

/-- R101: acceptance copies the fields of the snapshot; no host action but a reset changes the
snapshot of a running command; and once Constructed its key is the live key. -/
def Obligations.SnapshotIsFixedAtAcceptance : Prop :=
  (∀ (w : Word) (s : State), (accept w s).phase = .busy (decode w)
    { a := s.opa, b := s.opb, c := s.opc, keycfg := s.keycfg, n := s.keyN, ke := s.keyE,
      kd := s.keyD, keyconf := s.keyconf, canEnc := s.canEnc, canDec := s.canDec,
      blklen := s.blklen }) ∧
  (∀ (s t : State) (op : Command) (snap : Snapshot) (a : HostAction), s.phase = .busy op snap →
    a ≠ .rst → (∀ off v, a = .write off 32 v → off.toNat = 0x0010 → v.getLsbD 2 = false) →
    hostStep a s = some t → t.phase = .busy op snap) ∧
  (∀ (s : State) (op : Command) (snap : Snapshot), Inv s → s.phase = .busy op snap →
    s.keyconf = true →
    snap.keycfg = s.keycfg ∧ snap.n = s.keyN ∧ snap.ke = s.keyE ∧ snap.kd = s.keyD)

/-- R103: what `complete(code, info, writes, noinv, short)` does: the writes, which name result
registers and the key state only, are applied for NONE alone; the report is set; the queues and
everything else stay. -/
def Obligations.CompletionReportsAtomically : Prop :=
  ∀ (r : Report) (s : State),
    complete r s
      = { (if r.code = .none then applyWrites r.writes s else s) with
          errcode := r.code
          err := decide (r.code ≠ .none)
          errinfo := if r.code = .none then 0 else r.info
          noinv := r.noinv
          short := r.short
          abortPend := false
          done := true
          phase := .idle } ∧
    (complete r s).busy = false ∧ (complete r s).inq = s.inq ∧ (complete r s).outq = s.outq ∧
    (r.writes.key = none → applyWrites r.writes s
      = { s with
          r0 := r.writes.r0.getD s.r0
          r1 := r.writes.r1.getD s.r1
          r2 := r.writes.r2.getD s.r2 }) ∧
    (∀ k, r.writes.key = some k → applyWrites r.writes s
      = { s with
          r0 := r.writes.r0.getD s.r0
          r1 := r.writes.r1.getD s.r1
          r2 := r.writes.r2.getD s.r2
          keyconf := true
          canEnc := k.canEnc
          canDec := k.canDec
          blklen := k.blklen
          keyN := k.n
          keyE := k.ke
          keyD := k.kd
          keycfg := k.keycfg })

/-- R44: either reset puts every piece of the block's state to its reset value, whatever the state
was: every register field, the phase and the queues as listed, STATUS, LEVELS and `irq` as they read
then, and ID, HWCFG and FIFOCFG at their constants. The model's own fields are left free. -/
def Obligations.ResetLeavesTheResetValues : Prop :=
  ∀ (s : State) (v : Word),
    let IsReset (t : State) : Prop :=
      t = { t with
        irqEn := false, done := false, err := false, noinv := false, short := false,
        overrun := false, keyconf := false, canEnc := false, canDec := false, abortPend := false,
        errcode := .none, curOp := 0, errinfo := 0, keycfg := 0, blklen := 0, frames := 0,
        opa := 0, opb := 0, opc := 0, r0 := 0, r1 := 0, r2 := 0, keyN := 0, keyE := 0, keyD := 0,
        phase := .idle, inq := [], outq := [] } ∧
      t.statusWord = 0 ∧ t.irq = false ∧ regRead t .levels = 0 ∧
      regRead t .id = 0x52534145#32 ∧
      regRead t .hwcfg = 0#16 ++ BitVec.ofNat 16 s.cfg.opw ∧
      regRead t .fifocfg = BitVec.ofNat 16 s.cfg.outDepth ++ BitVec.ofNat 16 s.cfg.inDepth
    (∃ t, hostStep .rst s = some t ∧ IsReset t) ∧
    (v.getLsbD 2 = true → ∃ t, hostStep (.write 0x0010#14 32 v) s = some t ∧ IsReset t)

/-! The register window. -/

/-- R24, R25, R26: the identification registers stand at their offsets, hold their constants, and
ignore writes. -/
def Obligations.IdentificationRegisters : Prop :=
  ∀ (s : State), s.cfg.legal = true →
    (regAt 0x0000 = .id ∧ regRead s .id = 0x52534145#32) ∧
    (regAt 0x0004 = .hwcfg ∧ ((regRead s .hwcfg).extractLsb' 0 16).toNat = s.cfg.opw ∧
      (regRead s .hwcfg).extractLsb' 16 16 = 0#16) ∧
    (regAt 0x0008 = .fifocfg ∧ ((regRead s .fifocfg).extractLsb' 0 16).toNat = s.cfg.inDepth ∧
      ((regRead s .fifocfg).extractLsb' 16 16).toNat = s.cfg.outDepth) ∧
    (∀ v : Word, (∃ r, hostStep (.write 0x0000#14 32 v) s = some { s with reply := r }) ∧
      (∃ r, hostStep (.write 0x0004#14 32 v) s = some { s with reply := r }) ∧
      (∃ r, hostStep (.write 0x0008#14 32 v) s = some { s with reply := r }))

/-- R34: LEVELS shows the number of tokens in `inq` and of bytes in `outq`, and ignores writes. -/
def Obligations.LevelsShowTheQueues : Prop :=
  ∀ s : State, Inv s → regAt 0x002C = .levels ∧
    ((regRead s .levels).extractLsb' 0 16).toNat = s.inq.length ∧
    ((regRead s .levels).extractLsb' 16 16).toNat = s.outq.length ∧
    (∀ v : Word, ∃ r, hostStep (.write 0x002C#14 32 v) s = some { s with reply := r })

/-- The register map (R23) at its literal offsets, and R54: what stands at each offset of the
window; a read of CMD returns 0 (R29) and reads of ERRINFO, KEYCFG, BLKLEN and FRAMES return those
registers; writes to ERRINFO, BLKLEN and FRAMES are ignored (R30, R32, R33). An access that is not an
aligned 32-bit one gets an error response and changes nothing; a reserved offset reads 0 and ignores
writes. The reply is the model's own field (log 3). -/
def Obligations.UndecodedAndReservedAccesses : Prop :=
  (∀ (s : State) (off : Offset) (v : Word),
    (∀ width : Nat, off.toNat % 4 ≠ 0 ∨ width ≠ 32 →
      hostStep (.read off width) s = some { s with reply := .error } ∧
      hostStep (.write off width v) s = some { s with reply := .error }) ∧
    (off.toNat % 4 = 0 → hostStep (.read off 32) s
      = some { s with reply := .data (regRead s (regAt off.toNat)) }) ∧
    (off.toNat % 4 = 0 →
      off.toNat = 0x000C ∨ (0x0030 ≤ off.toNat ∧ off.toNat ≤ 0x0FFF) ∨ 0x2200 ≤ off.toNat →
      hostStep (.read off 32) s = some { s with reply := .data 0 } ∧
      hostStep (.write off 32 v) s = some { s with reply := .done })) ∧
  (regAt 0x0000 = .id ∧ regAt 0x0004 = .hwcfg ∧ regAt 0x0008 = .fifocfg ∧
    regAt 0x000C = .reserved ∧ regAt 0x0010 = .ctrl ∧ regAt 0x0014 = .status ∧
    regAt 0x0018 = .cmd ∧ regAt 0x001C = .errinfo ∧ regAt 0x0020 = .keycfg ∧
    regAt 0x0024 = .blklen ∧ regAt 0x0028 = .frames ∧ regAt 0x002C = .levels) ∧
  (∀ i, i < 128 →
    regAt (0x1000 + 4 * i) = .wide .opa i ∧ regAt (0x1200 + 4 * i) = .wide .opb i ∧
    regAt (0x1400 + 4 * i) = .wide .opc i ∧ regAt (0x1600 + 4 * i) = .wide .r0 i ∧
    regAt (0x1800 + 4 * i) = .wide .r1 i ∧ regAt (0x1A00 + 4 * i) = .wide .r2 i ∧
    regAt (0x1C00 + 4 * i) = .wide .keyN i ∧ regAt (0x1E00 + 4 * i) = .wide .keyE i ∧
    regAt (0x2000 + 4 * i) = .wide .keyD i) ∧
  (wideBase .opa = 0x1000 ∧ wideBase .opb = 0x1200 ∧ wideBase .opc = 0x1400 ∧
    wideBase .r0 = 0x1600 ∧ wideBase .r1 = 0x1800 ∧ wideBase .r2 = 0x1A00 ∧
    wideBase .keyN = 0x1C00 ∧ wideBase .keyE = 0x1E00 ∧ wideBase .keyD = 0x2000) ∧
  (∀ (s : State) (v : Word),
    hostStep (.read 0x0018#14 32) s = some { s with reply := .data 0 } ∧
    hostStep (.read 0x001C#14 32) s = some { s with reply := .data s.errinfo } ∧
    hostStep (.read 0x0020#14 32) s = some { s with reply := .data s.keycfg } ∧
    hostStep (.read 0x0024#14 32) s = some { s with reply := .data s.blklen } ∧
    hostStep (.read 0x0028#14 32) s = some { s with reply := .data s.frames } ∧
    hostStep (.write 0x001C#14 32 v) s = some { s with reply := .done } ∧
    hostStep (.write 0x0024#14 32 v) s = some { s with reply := .done } ∧
    hostStep (.write 0x0028#14 32 v) s = some { s with reply := .done })

/-- R28: the bits of the STATUS word, each at its place and the reserved ones 0, and what a write
to STATUS clears. -/
def Obligations.StatusWordAndItsClearing : Prop :=
  (∀ (s : State),
    let w := s.statusWord
    w.getLsbD 0 = s.busy ∧ w.getLsbD 1 = s.done ∧ w.getLsbD 2 = s.err ∧ w.getLsbD 3 = s.noinv ∧
    w.getLsbD 4 = s.short ∧ w.getLsbD 5 = s.overrun ∧ w.getLsbD 6 = s.keyconf ∧
    w.getLsbD 7 = s.canEnc ∧ w.getLsbD 8 = s.canDec ∧ w.getLsbD 9 = s.abortPend ∧
    w.extractLsb' 10 2 = 0#2 ∧ w.extractLsb' 12 4 = errCodeBits s.errcode ∧
    w.extractLsb' 16 8 = s.curOp ∧ w.extractLsb' 24 8 = 0#8) ∧
  (∀ (s : State) (v : Word),
    hostStep (.read 0x0014#14 32) s = some { s with reply := .data s.statusWord } ∧
    hostStep (.write 0x0014#14 32 v) s = some
      { s with
        done := if v.getLsbD 1 then false else s.done
        err := if v.getLsbD 2 then false else s.err
        errcode := if v.getLsbD 2 then .none else s.errcode
        errinfo := if v.getLsbD 2 then 0 else s.errinfo
        overrun := if v.getLsbD 5 then false else s.overrun
        reply := .done })

/-- R200: the code in STATUS.ERRCODE of every outcome. -/
def Obligations.ErrorCodeNumbers : Prop :=
  errCodeBits .none = 0 ∧ errCodeBits .keyError = 1 ∧ errCodeBits .capability = 2 ∧
  errCodeBits .modulusTooSmall = 3 ∧ errCodeBits .modulusZero = 4 ∧ errCodeBits .overflow = 5 ∧
  errCodeBits .illegalCommand = 6 ∧ errCodeBits .notConfigured = 7 ∧
  errCodeBits .alreadyConfigured = 8 ∧ errCodeBits .ioError = 9 ∧ errCodeBits .aborted = 10

/-- R27, R43: a read of CTRL returns IRQ_EN; a write with SRST = 0 sets IRQ_EN and sets ABORT_PEND
when its ABORT bit is 1 and a stream command is in progress, and changes nothing else (with no
stream command in progress it leaves ABORT_PEND as it is, log 12). The reply is the model's own field
(log 3). -/
def Obligations.CtrlWriteSetsIrqEnAndAbort : Prop :=
  ∀ (s : State) (v : Word),
    hostStep (.read 0x0010#14 32) s
      = some { s with reply := .data (if s.irqEn then 1 else 0) } ∧
    (v.getLsbD 2 = false →
      ((∃ snap, s.phase = .busy (.instr .encstream) snap ∨
          s.phase = .busy (.instr .decstream) snap) ∨ (∃ dir, s.phase = .stream dir) →
        hostStep (.write 0x0010#14 32 v) s = some
          { s with
            irqEn := v.getLsbD 0
            abortPend := s.abortPend || v.getLsbD 1
            reply := .done }) ∧
      (¬((∃ snap, s.phase = .busy (.instr .encstream) snap ∨
          s.phase = .busy (.instr .decstream) snap) ∨ (∃ dir, s.phase = .stream dir)) →
        hostStep (.write 0x0010#14 32 v) s = some
          { s with irqEn := v.getLsbD 0, reply := .done }))

/-- R31: a write to KEYCFG sets EP, DP, CAP_EN and MAXBLK and keeps the reserved bits 0 while the
key is Uninitialized, and is ignored while it is Constructed. -/
def Obligations.KeycfgWrite : Prop :=
  ∀ (s : State) (v : Word),
    (s.keyconf = true →
      hostStep (.write 0x0020#14 32 v) s = some { s with reply := .done }) ∧
    (s.keyconf = false → ∃ w : Word,
      hostStep (.write 0x0020#14 32 v) s = some { s with keycfg := w, reply := .done } ∧
      keycfgEP w = v.getLsbD 0 ∧ keycfgDP w = v.getLsbD 1 ∧ keycfgCapEn w = v.getLsbD 2 ∧
      keycfgMaxBlk w = (v.extractLsb' 16 16).toNat ∧ w.extractLsb' 3 13 = 0#13)

/-- R35, R36, R37, R52, for the nine wide registers: word `i < L` of a window reads as bits
`[32*i+31 : 32*i]` of its register; a write to word `i < L` of an operand register, or of a key
register while the key is Uninitialized, is read back, leaves every other word of it and everything
else alone; words from `L` up read 0 and ignore writes. The reply is the model's own field
(log 3). -/
def Obligations.OperandWordsReadBack : Prop :=
  (∀ (s : State) (i : Nat), s.cfg.legal = true → i < s.cfg.words →
    ∀ p ∈ [(0x1000, s.opa), (0x1200, s.opb), (0x1400, s.opc), (0x1600, s.r0), (0x1800, s.r1),
        (0x1A00, s.r2), (0x1C00, s.keyN), (0x1E00, s.keyE), (0x2000, s.keyD)],
      hostStep (.read (BitVec.ofNat 14 (p.1 + 4 * i)) 32) s
        = some { s with reply := .data (p.2.extractLsb' (32 * i) 32) }) ∧
  (∀ (s : State) (x : WideReg) (i : Nat) (v : Word), s.cfg.legal = true → i < 128 →
    (i < s.cfg.words →
      x = .opa ∨ x = .opb ∨ x = .opc ∨
        (s.keyconf = false ∧ (x = .keyN ∨ x = .keyE ∨ x = .keyD)) →
      ∃ t, hostStep (wr (.wide x i) v) s = some t ∧
        regRead t (.wide x i) = v ∧ wideWord (t.wideReg x) i = v ∧
        (∀ k, k ≠ i → wideWord (t.wideReg x) k = wideWord (s.wideReg x) k) ∧
        (∀ y, y ≠ x → t.wideReg y = s.wideReg y) ∧
        t = { s with
          opa := t.opa, opb := t.opb, opc := t.opc
          keyN := t.keyN, keyE := t.keyE, keyD := t.keyD
          reply := .done }) ∧
    (s.cfg.words ≤ i →
      hostStep (wr (.wide x i) v) s = some { s with reply := .done } ∧
      hostStep (rd (.wide x i)) s = some { s with reply := .data 0 }))

/-- R36, R37: a write to a result register is ignored, and so is a write to a key register while the
key is Constructed. -/
def Obligations.ReadOnlyWideRegisters : Prop :=
  ∀ (s : State) (x : WideReg) (i : Nat) (v : Word), i < 128 →
    x = .r0 ∨ x = .r1 ∨ x = .r2 ∨ (s.keyconf = true ∧ (x = .keyN ∨ x = .keyE ∨ x = .keyD)) →
    hostStep (wr (.wide x i) v) s = some { s with reply := .done }

/-- R82, R52: the expansion of `WR X, v` for an operand register, or for a key register while the
key is Uninitialized, leaves exactly `v` in it, and the words read back assemble to `v` (R75).
The writes are taken with no engine step between them (`runHost`, log 15). -/
def Obligations.WideWriteLoadsTheValue : Prop :=
  ∀ (s : State) (x : WideReg) (v : Wide), s.cfg.legal = true →
    FitsOpw s.cfg v → FitsOpw s.cfg (s.wideReg x) →
    x = .opa ∨ x = .opb ∨ x = .opc ∨ (s.keyconf = false ∧ (x = .keyN ∨ x = .keyE ∨ x = .keyD)) →
    ∃ t, runHost (wrWide s.cfg x v) s = some t ∧ t.wideReg x = v ∧
      (∀ y, y ≠ x → t.wideReg y = s.wideReg y) ∧ t.phase = s.phase ∧
      assembleWords ((List.range t.cfg.words).map fun i => regRead t (.wide x i)) = v.toNat

/-- R65: when each port action is enabled, what it does, and that it waits while it is not: the
engine moves and the action stays at the head of the agenda. -/
def Obligations.PortActions : Prop :=
  ∀ (s : State) (k : Token10),
    (s.inq.length < s.cfg.inDepth → hostStep (.push k) s
      = some { s with inq := s.inq ++ [decodeToken k], reply := .done }) ∧
    (s.cfg.inDepth ≤ s.inq.length → hostStep (.push k) s = none) ∧
    (∀ b rest, s.outq = b :: rest → hostStep .pop s
      = some { s with outq := rest, reply := .byte b }) ∧
    (s.outq = [] → hostStep .pop s = none) ∧
    (∀ a rest, s.agenda = .host a :: rest → hostStep a { s with agenda := rest } = none →
      step s = engineStep s)

/-- R45, R205: `irq` is DONE and IRQ_EN; it is low after acceptance, after DONE is cleared, after
IRQ_EN is cleared and after reset, and after a completion it is IRQ_EN. -/
def Obligations.InterruptOutput : Prop :=
  ∀ s : State, (s.irq = true ↔ s.done = true ∧ s.irqEn = true) ∧
    (∀ w, (accept w s).irq = false) ∧ (∀ r, (complete r s).irq = s.irqEn) ∧
    (∀ v t, v.getLsbD 1 = true → hostStep (.write 0x0014#14 32 v) s = some t → t.irq = false) ∧
    (∀ v t, v.getLsbD 0 = false → hostStep (.write 0x0010#14 32 v) s = some t → t.irq = false) ∧
    (∀ t, hostStep .rst s = some t → t.irq = false)

/-! Sequencer and number theory. -/

/-- R104: NOP completes with NONE and changes nothing else; its word is 0; while BUSY it is an
overrun; from reset it leaves STATUS = 2. -/
def Obligations.NopOnlyReports : Prop :=
  (∀ (s : State) (snap : Snapshot), s.phase = .busy (.instr .nop) snap →
    exec .nop s = .next (succeeded false false s)) ∧
  decode 0x00000000#32 = .instr .nop ∧
  (∀ s : State, s.busy = true →
    ∃ r, hostStep (cmd .nop) s = some { s with overrun := true, reply := r }) ∧
  (∀ p : Params, ∃ t u, hostStep (cmd .nop) (State.resetOf p) = some t ∧ step t = .next u ∧
    u.statusWord = 0x00000002#32)

/-- R105: every word outside the table completes with ILLEGAL_COMMAND, the word in ERRINFO and its
low byte in CUR_OP, and changes nothing else; the corner case 0x101 and the example 0xFF from
reset. -/
def Obligations.IllegalCommandReports : Prop :=
  (∀ (s : State) (w : Word), (∀ i, (w, i) ∉ commandTable) →
    (accept w s).phase = .busy (.illegal w) (takeSnapshot s) ∧
    (accept w s).curOp = w.extractLsb' 0 8) ∧
  (∀ (s : State) (w : Word) (snap : Snapshot), s.phase = .busy (.illegal w) snap →
    engineStep s = .next (failed .illegalCommand w s)) ∧
  decode 0x00000101#32 = .illegal 0x00000101#32 ∧
  (∀ s : State, (accept 0x00000101#32 s).curOp = 0x01#8) ∧
  (∀ p : Params, ∃ t u, hostStep (wr .cmd 0x000000FF#32) (State.resetOf p) = some t ∧
    step t = .next u ∧ u.statusWord = 0x00FF6006#32 ∧ u.errinfo = 0x000000FF#32)

/-- R121: GCD writes the greatest common divisor of the snapshot's operands to R0, reports success,
and changes nothing else; the corner cases and the example. -/
def Obligations.GcdWritesTheGcd : Prop :=
  (∀ (s : State) (snap : Snapshot), s.phase = .busy (.instr .gcd) snap →
    ∃ v : Wide, v.toNat = Nat.gcd snap.a.toNat snap.b.toNat ∧
      exec .gcd s = .next (succeeded false false { s with r0 := v })) ∧
  decode 0x00000001#32 = .instr .gcd ∧
  (∀ a b, euclid a b = (if b = 0 then a else euclid b (a % b)) ∧ euclid 0 b = b ∧
    euclid a 0 = a ∧ euclid a a = a ∧ euclid a b = euclid b a) ∧
  euclid 112233445566778899 998877665544332211 = 99

/-- R122, R124: for operands of OPW bits XGCD never overflows; it writes the gcd to R0 and to R1 and
R2 the two's-complement encodings of the coefficients the recurrence gives, which satisfy the
Bezout identity; nothing else changes. The example's R1 for OPW = 64. -/
def Obligations.XgcdWritesABezoutTriple : Prop :=
  (∀ (s : State) (snap : Snapshot), s.cfg.legal = true → SnapshotFits s.cfg snap →
    s.phase = .busy (.instr .xgcd) snap →
    ∃ g v w : Wide,
      exec .xgcd s = .next (succeeded false false { s with r0 := g, r1 := v, r2 := w }) ∧
      g.toNat = Nat.gcd snap.a.toNat snap.b.toNat ∧
      v.toNat < 2 ^ s.cfg.opw ∧ w.toNat < 2 ^ s.cfg.opw ∧
      signedOf s.cfg.opw v.toNat = (xgcd snap.a.toNat snap.b.toNat).x ∧
      signedOf s.cfg.opw w.toNat = (xgcd snap.a.toNat snap.b.toNat).y ∧
      (snap.a.toNat : Int) * signedOf s.cfg.opw v.toNat
        + snap.b.toNat * signedOf s.cfg.opw w.toNat = g.toNat) ∧
  twosComplement 64 (-3043) = 0xFFFFFFFFFFFFF41D ∧ twosComplement 64 229 = 0xE5

/-- R122, D14: the coefficients of the recurrence that starts from the pair `(b, a)` are those of
the recursion `xgcd(0, b) = (b, 0, 1)`, `xgcd(a, b) = (g, y' - (b div a) * x', x')` where
`(g, x', y') = xgcd(b mod a, a)`; the corner cases of R122. -/
def Obligations.XgcdMeetsTheRecursion : Prop :=
  (∀ a b : Nat, a ≠ 0 →
    xgcd a b = ⟨(xgcd (b % a) a).g,
      (xgcd (b % a) a).y - ((b / a : Nat) : Int) * (xgcd (b % a) a).x, (xgcd (b % a) a).x⟩) ∧
  (∀ b : Nat, xgcd 0 b = ⟨b, 0, 1⟩) ∧
  (∀ a : Nat, 0 < a → xgcd a 0 = ⟨a, 1, 0⟩ ∧ xgcd a a = ⟨a, 1, 0⟩) ∧
  xgcd 4632 61551 = ⟨3, -3043, 229⟩

/-- R123: MODINV writes the inverse in `[0, m)`, the coefficient of XGCD modulo `m`, with NOINV = 0
when `m != 0` and `gcd(a, m) = 1`, and 0 with NOINV = 1 otherwise; it always succeeds and changes
nothing else; the corner case `m = 1` and the examples. -/
def Obligations.ModinvWritesTheInverse : Prop :=
  (∀ (s : State) (snap : Snapshot), s.phase = .busy (.instr .modinv) snap →
    (snap.b.toNat = 0 ∨ Nat.gcd snap.a.toNat snap.b.toNat ≠ 1 →
      exec .modinv s = .next (succeeded true false { s with r0 := 0 })) ∧
    (snap.b.toNat ≠ 0 → Nat.gcd snap.a.toNat snap.b.toNat = 1 →
      ∃ v : Wide, exec .modinv s = .next (succeeded false false { s with r0 := v }) ∧
        (v.toNat : Int) = (xgcd snap.a.toNat snap.b.toNat).x % snap.b.toNat ∧
        v.toNat < snap.b.toNat ∧
        snap.a.toNat * v.toNat % snap.b.toNat = 1 % snap.b.toNat) ∧
    (snap.b.toNat = 1 → exec .modinv s = .next (succeeded false false { s with r0 := 0 })) ∧
    (snap.a.toNat = 3 → snap.b.toNat = 26 →
      exec .modinv s = .next (succeeded false false { s with r0 := 9 })) ∧
    (snap.a.toNat = 2 → snap.b.toNat = 4 →
      exec .modinv s = .next (succeeded true false { s with r0 := 0 }))) ∧
  decode 0x00000003#32 = .instr .modinv

/-- R141, R145: `modpow(base, e, m)` is `base^e mod m` for `e >= 1` and 1 for `e = 0`, also for
`m = 1`; each further multiplication is one more exponent. -/
def Obligations.ModpowIsTheModularPower : Prop :=
  ∀ base e m : Nat, 1 ≤ m →
    (1 ≤ e → modpow base e m = base ^ e % m ∧ modpow base e m < m) ∧ modpow base 0 m = 1 ∧
    modpow base (e + 1) m = modpow base e m * base % m

/-- R142: MODPOW completes with MODULUS_ZERO for modulus 0, and otherwise writes
`modpow(A, B, C)` to R0; nothing else changes; the examples. -/
def Obligations.ModpowCommand : Prop :=
  (∀ (s : State) (snap : Snapshot), s.phase = .busy (.instr .modpow) snap →
    (snap.c.toNat = 0 → exec .modpow s = .next (failed .modulusZero 0x08#32 s)) ∧
    (snap.c.toNat ≠ 0 → ∃ v : Wide,
      exec .modpow s = .next (succeeded false false { s with r0 := v }) ∧
      v.toNat = powMod snap.a.toNat snap.b.toNat snap.c.toNat)) ∧
  decode 0x00000008#32 = .instr .modpow ∧ modpow 4 13 497 = 445 ∧
  modpow 3 6968567183 8612189837 = 7244224352

/-- R143: POW writes the exact power to R0 when it is below `2^OPW` and completes with OVERFLOW
otherwise, R0 unchanged; nothing else changes; the example for OPW = 64. -/
def Obligations.PowCommand : Prop :=
  (∀ (s : State) (snap : Snapshot), s.cfg.legal = true → s.phase = .busy (.instr .pow) snap →
    (snap.a.toNat ^ snap.b.toNat < 2 ^ s.cfg.opw → ∃ v : Wide,
      exec .pow s = .next (succeeded false false { s with r0 := v }) ∧
      v.toNat = snap.a.toNat ^ snap.b.toNat) ∧
    (2 ^ s.cfg.opw ≤ snap.a.toNat ^ snap.b.toNat →
      exec .pow s = .next (failed .overflow 0x09#32 s))) ∧
  decode 0x00000009#32 = .instr .pow ∧
  powWithin 64 3 40 = some 12157665459056928801 ∧ powWithin 64 3 41 = none

/-! Key construction and single blocks. -/

/-- R162: `plen0(N)` is the largest `W` with `256^W <= N`, the number of `k >= 1` with
`(N >> (8*k)) != 0`. -/
def Obligations.PlainBlockLength : Prop :=
  ∀ n : Nat, 1 ≤ n →
    (∀ w, plen0 n = w ↔ 256 ^ w ≤ n ∧ n < 256 ^ (w + 1)) ∧
    (∀ k, 1 ≤ k → (n >>> (8 * k) ≠ 0 ↔ k ≤ plen0 n)) ∧ (n ≤ 255 → plen0 n = 0)

/-- R163: `clen(N)` is the number of bytes of `N - 1`; for `N >= 256` it is `plen0(N) + 1` unless
`N` is a power of 256. -/
def Obligations.EncryptedBlockLength : Prop :=
  (∀ n k : Nat, clen n ≤ k ↔ n - 1 < 256 ^ k) ∧
  (∀ n : Nat, 256 ≤ n → (∀ k, n ≠ 256 ^ k) → clen n = plen0 n + 1) ∧
  (∀ n k : Nat, 1 ≤ k → n = 256 ^ k → clen n = k ∧ plen0 n = k)

/-- R161, R164: the outcomes of CONFIG in their priority, ERRINFO of each failure, and the key state
a success writes, with nothing else changed; the example's widths. -/
def Obligations.ConfigConstructsTheKey : Prop :=
  (∀ (s : State) (snap : Snapshot), s.phase = .busy (.instr .config) snap →
    let n := snap.n.toNat
    let ep := keycfgEP snap.keycfg
    let dp := keycfgDP snap.keycfg
    let w := if keycfgCapEn snap.keycfg then min (plen0 n) (keycfgMaxBlk snap.keycfg) else plen0 n
    (snap.keyconf = true → exec .config s = .next (failed .alreadyConfigured 0x10#32 s)) ∧
    (snap.keyconf = false → n = 0 → exec .config s = .next (failed .keyError 0x10#32 s)) ∧
    (snap.keyconf = false → n ≠ 0 → ep = false → dp = false →
      exec .config s = .next (failed .capability snap.keycfg s)) ∧
    (snap.keyconf = false → n ≠ 0 → (ep = true ∨ dp = true) → w < 1 →
      exec .config s = .next (failed .modulusTooSmall
        (BitVec.ofNat 16 w ++ BitVec.ofNat 16 (plen0 n)) s)) ∧
    (snap.keyconf = false → n ≠ 0 → (ep = true ∨ dp = true) → 1 ≤ w →
      exec .config s = .next (succeeded false false
        { s with
          keyconf := true
          canEnc := ep
          canDec := dp
          blklen := BitVec.ofNat 16 (clen n) ++ BitVec.ofNat 16 w
          keyN := snap.n
          keyE := if ep then snap.ke else 0
          keyD := if dp then snap.kd else 0
          keycfg := snap.keycfg }))) ∧
  decode 0x00000010#32 = .instr .config ∧ plen0 8612189837 = 4 ∧ clen 8612189837 = 5

/-- R32: in a consistent state with the key Constructed, `1 <= PLEN <= CLEN <= OPBYTES`, and the
modulus is at least 256. -/
def Obligations.BlockLengthsAreBounded : Prop :=
  ∀ s : State, Inv s → s.keyconf = true →
    1 ≤ s.plen ∧ s.plen ≤ s.clen ∧ s.clen ≤ s.cfg.opBytes ∧ 256 ≤ s.keyN.toNat

/-- R165: ENCBLK completes with NOT_CONFIGURED before CONFIG, with CAPABILITY without a public
exponent, and otherwise writes `modpow(A, KE, N)` to R0 (the modulus is not 0 in any consistent
state, `Inv`); nothing else changes; the example. -/
def Obligations.EncblkCommand : Prop :=
  (∀ (s : State) (snap : Snapshot), s.phase = .busy (.instr .encblk) snap →
    (snap.keyconf = false → exec .encblk s = .next (failed .notConfigured 0x11#32 s)) ∧
    (snap.keyconf = true → snap.canEnc = false →
      exec .encblk s = .next (failed .capability 0x11#32 s)) ∧
    (snap.keyconf = true → snap.canEnc = true → snap.n.toNat ≠ 0 → ∃ v : Wide,
      exec .encblk s = .next (succeeded false false { s with r0 := v }) ∧
      v.toNat = powMod snap.a.toNat snap.ke.toNat snap.n.toNat)) ∧
  decode 0x00000011#32 = .instr .encblk ∧ modpow 3 6968567183 8612189837 = 7244224352

/-- R166: DECBLK likewise, with the private exponent, and it writes the full integer. -/
def Obligations.DecblkCommand : Prop :=
  (∀ (s : State) (snap : Snapshot), s.phase = .busy (.instr .decblk) snap →
    (snap.keyconf = false → exec .decblk s = .next (failed .notConfigured 0x12#32 s)) ∧
    (snap.keyconf = true → snap.canDec = false →
      exec .decblk s = .next (failed .capability 0x12#32 s)) ∧
    (snap.keyconf = true → snap.canDec = true → snap.n.toNat ≠ 0 → ∃ v : Wide,
      exec .decblk s = .next (succeeded false false { s with r0 := v }) ∧
      v.toNat = powMod snap.a.toNat snap.kd.toNat snap.n.toNat)) ∧
  decode 0x00000012#32 = .instr .decblk ∧ modpow 7244224352 2644925087 8612189837 = 3

/-! Streams. -/

/-- R176: the check step of ENCSTREAM and of DECSTREAM: abort first, then NOT_CONFIGURED, then
CAPABILITY, else the frame loop begins; no token is consumed and no output written but by an
abort. -/
def Obligations.StreamCheckStep : Prop :=
  ∀ (s : State) (snap : Snapshot),
    (s.phase = .busy (.instr .encstream) snap →
      (s.abortPend = true →
        exec .encstream s = .next (failed .aborted s.frames { s with inq := [] })) ∧
      (s.abortPend = false → snap.keyconf = false →
        exec .encstream s = .next (failed .notConfigured 0x13#32 s)) ∧
      (s.abortPend = false → snap.keyconf = true → snap.canEnc = false →
        exec .encstream s = .next (failed .capability 0x13#32 s)) ∧
      (s.abortPend = false → snap.keyconf = true → snap.canEnc = true →
        exec .encstream s = .next { s with phase := .stream .enc })) ∧
    (s.phase = .busy (.instr .decstream) snap →
      (s.abortPend = true →
        exec .decstream s = .next (failed .aborted s.frames { s with inq := [] })) ∧
      (s.abortPend = false → snap.keyconf = false →
        exec .decstream s = .next (failed .notConfigured 0x14#32 s)) ∧
      (s.abortPend = false → snap.keyconf = true → snap.canDec = false →
        exec .decstream s = .next (failed .capability 0x14#32 s)) ∧
      (s.abortPend = false → snap.keyconf = true → snap.canDec = true →
        exec .decstream s = .next { s with phase := .stream .dec }))

/-- R178: a full input frame with room for the output frame: the frame's tokens are removed, the
output frame is appended, FRAMES counts it, and the command stays in its loop; for ENCSTREAM
(`dir = ENC`) and DECSTREAM (`dir = DEC`). -/
def Obligations.FullFrameStep : Prop :=
  ∀ (s : State) (dir : Dir) (bs : List Byte) (rest : List Token), s.phase = .stream dir →
    s.abortPend = false → s.inq = bs.map Token.byte ++ rest → bs.length = frameIn dir s →
    s.outq.length + frameOut dir s ≤ s.cfg.outDepth →
    exec (dirInstr dir) s = .next
      { s with inq := rest, outq := s.outq ++ frameFn dir s bs, frames := s.frames + 1 }

/-- R179: a short final frame: its tokens and the End token are removed, a full-width output frame
is appended and counted, and the command completes with NONE and SHORT = 1. -/
def Obligations.ShortFinalFrameStep : Prop :=
  ∀ (s : State) (dir : Dir) (bs : List Byte) (rest : List Token), s.phase = .stream dir →
    s.abortPend = false → s.inq = bs.map Token.byte ++ .eos :: rest → 1 ≤ bs.length →
    bs.length < frameIn dir s → s.outq.length + frameOut dir s ≤ s.cfg.outDepth →
    exec (dirInstr dir) s = .next (succeeded false true
      { s with inq := rest, outq := s.outq ++ frameFn dir s bs, frames := s.frames + 1 })

/-- R180: an End token at a frame boundary is removed and the command completes with NONE and
SHORT = 0, with the tokens behind it left; a stream command accepted with End alone at the head of
the queue produces no output and FRAMES = 0. -/
def Obligations.EndOfStreamStep : Prop :=
  (∀ (s : State) (dir : Dir) (rest : List Token), s.phase = .stream dir → s.abortPend = false →
    s.inq = .eos :: rest → 1 ≤ frameIn dir s →
    exec (dirInstr dir) s = .next (succeeded false false { s with inq := rest })) ∧
  (∀ (s : State) (dir : Dir) (rest : List Token), Inv s → s.phase = .idle → s.agenda = [] →
    s.keyconf = true → (dir = .enc → s.canEnc = true) → (dir = .dec → s.canDec = true) →
    s.inq = .eos :: rest →
    ∃ t, Host.Core.run Sys2Proof.core 2 (accept (encodeInstr (dirInstr dir)) s) = .next t ∧
      t.inq = rest ∧ t.outq = s.outq ∧ t.frames = 0 ∧ t.done = true ∧ t.errcode = .none)

/-- R181: an Error token before a frame is complete: the bytes of the incomplete frame and the
token are removed, whatever room there is, and the command completes with IO_ERROR and FRAMES. -/
def Obligations.IoErrorStep : Prop :=
  ∀ (s : State) (dir : Dir) (bs : List Byte) (rest : List Token), s.phase = .stream dir →
    s.abortPend = false → s.inq = bs.map Token.byte ++ .error :: rest →
    bs.length < frameIn dir s →
    exec (dirInstr dir) s = .next (failed .ioError s.frames { s with inq := rest })

/-- R210: with ABORT_PEND = 1 the only step of a stream command, in its check or in its frame loop,
is the abort step; `outq` stays. -/
def Obligations.AbortStep : Prop :=
  ∀ (s : State) (dir : Dir), s.abortPend = true →
    ((∃ snap, s.phase = .busy (.instr (dirInstr dir)) snap) ∨ s.phase = .stream dir) →
    exec (dirInstr dir) s = .next (failed .aborted s.frames { s with inq := [] })

/-- R182: in the frame loop with ABORT_PEND = 0, exactly one of the four steps and the two holds is
the case; in a hold the state stays as it is (the model's form of "the engine has no step", log 5),
and otherwise the step changes it. -/
def Obligations.ExactlyOneFrameEvent : Prop :=
  ∀ (s : State) (dir : Dir), s.phase = .stream dir → s.abortPend = false →
    (∃! e, frameEnabled e dir s) ∧
    (frameEnabled .holdInput dir s ∨ frameEnabled .holdOutput dir s →
      exec (dirInstr dir) s = .next s) ∧
    (¬frameEnabled .holdInput dir s → ¬frameEnabled .holdOutput dir s →
      ∃ t, exec (dirInstr dir) s = .next t ∧ t ≠ s)

/-- R170, R171: an output frame has the full fixed width, whatever the chunk; an encrypted chunk's
value is `modpow(chunk, KE, N)`, which fits CLEN bytes, and a decrypted chunk's value is the low
PLEN bytes of `modpow(chunk, KD, N)`. -/
def Obligations.FrameTransforms : Prop :=
  ∀ (s : State) (bs : List Byte), Inv s → s.keyconf = true →
    (frameFn .enc s bs).length = s.clen ∧ (frameFn .dec s bs).length = s.plen ∧
    (bs.length ≤ s.plen → fromLE bs < s.keyN.toNat) ∧
    fromLE (frameFn .enc s bs) = powMod (fromLE bs) s.keyE.toNat s.keyN.toNat ∧
    fromLE (frameFn .dec s bs)
      = powMod (fromLE bs) s.keyD.toNat s.keyN.toNat % 256 ^ s.plen

/-- R186: for a key whose exponents undo each other below N, decrypting the output frame of a chunk
of at most PLEN bytes gives the chunk followed by zero bytes up to PLEN. -/
def Obligations.FrameRoundTrip : Prop :=
  ∀ (s : State) (bs : List Byte), Inv s → s.keyconf = true → bs.length ≤ s.plen →
    (∀ x, x < s.keyN.toNat →
      modpow (modpow x s.keyE.toNat s.keyN.toNat) s.keyD.toNat s.keyN.toNat = x) →
    frameFn .dec s (frameFn .enc s bs) = bs ++ List.replicate (s.plen - bs.length) 0

/-- R184, R185 where the whole input is queued and the whole output fits (input pushed later and a
host that drains the output meanwhile are left out): a stream command accepted from Idle with a key
that has its exponent, on input bytes that are full chunks `cs` and a last chunk shorter than a frame,
then End, completes with NONE after its check step and its frame steps; `outq` gains the transform of
each chunk in order, FRAMES counts the chunks, SHORT says whether there was a short one, later tokens
stay, and nothing else changes. -/
def Obligations.StreamCommandAsAFunction : Prop :=
  ∀ (s : State) (dir : Dir) (cs : List (List Byte)) (last : List Byte) (rest : List Token),
    Inv s → s.phase = .idle → s.agenda = [] → s.keyconf = true →
    (dir = .enc → s.canEnc = true) → (dir = .dec → s.canDec = true) →
    (∀ c ∈ cs, c.length = frameIn dir s) → last.length < frameIn dir s →
    s.inq = (cs.flatten ++ last).map Token.byte ++ .eos :: rest →
    let chunks := if last = [] then cs else cs ++ [last]
    s.outq.length + frameOut dir s * chunks.length ≤ s.cfg.outDepth →
    let t := accept (encodeInstr (dirInstr dir)) s
    Host.Core.run Sys2Proof.core (cs.length + 2) t = .next
      (succeeded false (decide (last ≠ []))
        { t with
          inq := rest
          outq := s.outq ++ chunks.flatMap (frameFn dir s)
          frames := BitVec.ofNat 32 chunks.length })

/-! Frames and whole-machine rules. -/

/-- No step of a command's meaning touches the operand registers, IRQ_EN, OVERRUN, CUR_OP or the
fields of the model's own (R35, R27, R207, R28). -/
def Obligations.CommandsLeaveTheHostsState : Prop :=
  ∀ (i : Instr) (s t : State), exec i s = .next t →
    t.opa = s.opa ∧ t.opb = s.opb ∧ t.opc = s.opc ∧ t.irqEn = s.irqEn ∧
    t.overrun = s.overrun ∧ t.curOp = s.curOp ∧ t.cfg = s.cfg ∧ t.agenda = s.agenda ∧
    t.reply = s.reply

/-- The frame of NOP, GCD, MODINV, MODPOW, POW, ENCBLK and DECBLK as the register window shows it:
every register but STATUS, ERRINFO and the words of R0 reads as before. -/
def Obligations.ScalarFrameOnTheBus : Prop :=
  ∀ (i : Instr) (s t : State),
    i ∈ [Instr.nop, .gcd, .modinv, .modpow, .pow, .encblk, .decblk] → exec i s = .next t →
    ∀ r : Reg, r ≠ .status → r ≠ .errinfo → (∀ k, r ≠ .wide .r0 k) → regRead t r = regRead s r

/-- The frame of ENCSTREAM and DECSTREAM as the register window shows it: every register but STATUS,
ERRINFO, FRAMES and LEVELS reads as before. -/
def Obligations.StreamFrameOnTheBus : Prop :=
  ∀ (dir : Dir) (s t : State), exec (dirInstr dir) s = .next t →
    ∀ r : Reg, r ≠ .status → r ≠ .errinfo → r ≠ .frames → r ≠ .levels →
      regRead t r = regRead s r

/-- R106, R203: an engine step that ends a command in an error writes no result register and no key
state. -/
def Obligations.FailedCommandsWriteNothing : Prop :=
  ∀ s t : State, engineStep s = .next t → s.errcode = .none → t.errcode ≠ .none →
    t.done = true ∧ t.busy = false ∧ t.r0 = s.r0 ∧ t.r1 = s.r1 ∧ t.r2 = s.r2 ∧
    t.keyconf = s.keyconf ∧ t.canEnc = s.canEnc ∧ t.canDec = s.canDec ∧ t.blklen = s.blklen ∧
    t.keyN = s.keyN ∧ t.keyE = s.keyE ∧ t.keyD = s.keyD ∧ t.keycfg = s.keycfg ∧
    t.outq = s.outq

/-- R63, R102: what a command other than a stream command reports and writes depends on its snapshot
and the parameters only: two states in which it is in progress with one snapshot complete with one
report, whatever the host has written since. -/
def Obligations.CommandsReadTheirSnapshotOnly : Prop :=
  ∀ (i : Instr) (snap : Snapshot) (p : Params), i ≠ .encstream → i ≠ .decstream →
    ∃ r : Report, ∀ s : State, s.cfg = p → s.phase = .busy (.instr i) snap →
      exec i s = .next (complete r s)

/-- R22: once the key is Constructed no step but a reset changes KEYCONF, KEYCFG, KEY_N, KEY_E,
KEY_D, BLKLEN or the capabilities; and only a CONFIG that succeeds makes it Constructed. -/
def Obligations.KeyIsImmutable : Prop :=
  (∀ s t : State, PhaseOk s → step s = .next t → s.keyconf = true → ¬ResetMove s →
    t.keyconf = true ∧ t.keycfg = s.keycfg ∧ t.keyN = s.keyN ∧ t.keyE = s.keyE ∧
    t.keyD = s.keyD ∧ t.blklen = s.blklen ∧ t.canEnc = s.canEnc ∧ t.canDec = s.canDec) ∧
  (∀ s t : State, step s = .next t → ResetMove s → t.keyconf = false) ∧
  (∀ s t : State, step s = .next t → s.keyconf = false → t.keyconf = true →
    ∃ snap, s.phase = .busy (.instr .config) snap ∧ t.phase = .idle ∧ t.errcode = .none)

/-- R36: a result register changes only in a reset or in the successful completion of a command
that names it: R0 by the commands of R72 that write it, R1 and R2 by XGCD alone. -/
def Obligations.ResultRegistersChangeAtCompletionOnly : Prop :=
  ∀ s t : State, step s = .next t → ¬ResetMove s →
    (t.r0 ≠ s.r0 → ∃ i snap, s.phase = .busy (.instr i) snap ∧
      i ∈ [Instr.gcd, .xgcd, .modinv, .modpow, .pow, .encblk, .decblk] ∧
      t.phase = .idle ∧ t.done = true ∧ t.errcode = .none) ∧
    (t.r1 ≠ s.r1 ∨ t.r2 ≠ s.r2 → ∃ snap, s.phase = .busy (.instr .xgcd) snap ∧
      t.phase = .idle ∧ t.done = true ∧ t.errcode = .none)

/-- R33: FRAMES changes only by a reset, by the acceptance of a stream command, which sets it to 0,
and by an output frame, which adds 1 as the frame goes to `outq`. -/
def Obligations.FramesCountsOutputFrames : Prop :=
  ∀ s t : State, step s = .next t → ¬ResetMove s → t.frames ≠ s.frames →
    (t.frames = 0 ∧ s.phase = .idle ∧ ∃ dir snap, t.phase = .busy (.instr (dirInstr dir)) snap) ∨
    (∃ dir bs, s.phase = .stream dir ∧ t.frames = s.frames + 1 ∧
      t.outq = s.outq ++ frameFn dir s bs)

/-- R207, R235: OVERRUN is sticky: it is set only by a CMD write while BUSY, and cleared only by a
reset or by a write to STATUS with bit 5 set. -/
def Obligations.OverrunIsSticky : Prop :=
  ∀ s t : State, step s = .next t → ¬ResetMove s →
    (s.overrun = false → t.overrun = true →
      s.busy = true ∧ ∃ w rest, ∃ off : Offset, off.toNat = 0x0018 ∧
        s.agenda = .host (.write off 32 w) :: rest) ∧
    (s.overrun = true → t.overrun = false →
      ∃ v rest, ∃ off : Offset, off.toNat = 0x0014 ∧ v.getLsbD 5 = true ∧
        s.agenda = .host (.write off 32 v) :: rest)
end

