-- ==== Sys2Proof/Laws/Arith.lean ====
section
/-! SUPPORT. What the block's arithmetic computes: Euclid, square-and-multiply, byte sequences. -/

namespace Sys2Proof.Laws

open Sys2Proof.Machine

/-! extended_gcd_unit. -/

/-- With fuel for every turn, the loop of R121 ends at the greatest common divisor. -/
theorem euclidLoop_eq (fuel : Nat) : ∀ a b, b ≤ fuel → euclidLoop fuel a b = Nat.gcd a b := by
  induction fuel with
  | zero => intro a b h; obtain rfl : b = 0 := by omega
            simp [euclidLoop]
  | succ n ih =>
    intro a b h
    by_cases hb : b = 0
    · subst hb; simp [euclidLoop]
    · have hlt : a % b < b := Nat.mod_lt _ (by omega)
      rw [euclidLoop, if_neg hb, ih _ _ (by omega), Nat.gcd_comm a b, Nat.gcd_rec b a,
        Nat.gcd_comm]

/-- `gcd(a, b)` of R121 is the greatest common divisor. -/
theorem euclid_eq (a b : Nat) : euclid a b = Nat.gcd a b := euclidLoop_eq b a b le_rfl

/-- The loop of R122: with fuel for every turn it ends at the gcd of its remainders, and it keeps
the invariant `r = t*a + s*b`. -/
theorem xgcdLoop_spec (a b : Int) (fuel : Nat) : ∀ (r0 r1 : Nat) (s0 s1 t0 t1 : Int), r1 ≤ fuel →
    (r0 : Int) = t0 * a + s0 * b → (r1 : Int) = t1 * a + s1 * b →
    (xgcdLoop fuel r0 r1 s0 s1 t0 t1).g = Nat.gcd r0 r1 ∧
    a * (xgcdLoop fuel r0 r1 s0 s1 t0 t1).x + b * (xgcdLoop fuel r0 r1 s0 s1 t0 t1).y
      = (xgcdLoop fuel r0 r1 s0 s1 t0 t1).g := by
  induction fuel with
  | zero =>
    intro r0 r1 s0 s1 t0 t1 h h0 _
    obtain rfl : r1 = 0 := by omega
    simp only [xgcdLoop, Nat.gcd_zero_right, true_and]
    rw [h0]; ring
  | succ n ih =>
    intro r0 r1 s0 s1 t0 t1 h h0 h1
    by_cases hr : r1 = 0
    · subst hr
      simp only [xgcdLoop, if_true, Nat.gcd_zero_right, true_and]
      rw [h0]; ring
    · have hlt : r0 % r1 < r1 := Nat.mod_lt _ (by omega)
      have hmod : ((r0 % r1 : Nat) : Int) = r0 - ((r0 / r1 : Nat) : Int) * r1 := by
        have := Nat.div_add_mod r0 r1
        have h2 : ((r1 * (r0 / r1) + r0 % r1 : Nat) : Int) = r0 := by rw [this]
        push_cast at h2 ⊢
        linarith
      rw [xgcdLoop, if_neg hr]
      have := ih r1 (r0 % r1) s1 (s0 - ((r0 / r1 : Nat) : Int) * s1) t1
        (t0 - ((r0 / r1 : Nat) : Int) * t1) (by omega) h1 (by rw [hmod, h0, h1]; ring)
      rwa [Nat.gcd_comm r1, ← Nat.gcd_rec, Nat.gcd_comm] at this

/-- The gcd part of `xgcd` (R122, R126). -/
theorem xgcd_g (a b : Nat) : (xgcd a b).g = Nat.gcd a b := by
  rw [Nat.gcd_comm]
  exact (xgcdLoop_spec a b a b a 1 0 0 1 le_rfl (by simp) (by simp)).1

/-- The Bezout identity of `xgcd` (R122, R126). -/
theorem xgcd_bezout (a b : Nat) : (a : Int) * (xgcd a b).x + b * (xgcd a b).y = (xgcd a b).g :=
  (xgcdLoop_spec a b a b a 1 0 0 1 le_rfl (by simp) (by simp)).2

/-- The size of the coefficients while remainders fall (R124): with `|t1|*r0 + |t0|*r1 = B` and
signs that alternate, a loop that still turns ends with `2*g*|x| <= B`, and so for `y`. -/
theorem xgcdLoop_bound (A B : Int) (fuel : Nat) : ∀ (r0 r1 : Nat) (s0 s1 t0 t1 : Int),
    r1 ≤ fuel → r1 ≠ 0 → r1 < r0 → s0 * s1 ≤ 0 → t0 * t1 ≤ 0 →
    |t1| * r0 + |t0| * r1 = B → |s1| * r0 + |s0| * r1 = A →
    2 * ((xgcdLoop fuel r0 r1 s0 s1 t0 t1).g : Int) * |(xgcdLoop fuel r0 r1 s0 s1 t0 t1).x| ≤ B ∧
    2 * ((xgcdLoop fuel r0 r1 s0 s1 t0 t1).g : Int) * |(xgcdLoop fuel r0 r1 s0 s1 t0 t1).y| ≤ A := by
  induction fuel with
  | zero => intro r0 r1 _ _ _ _ h hne; omega
  | succ n ih =>
    intro r0 r1 s0 s1 t0 t1 h hne hlt hs ht hB hA
    have hmodlt : r0 % r1 < r1 := Nat.mod_lt _ (by omega)
    have hdm : (r1 : Int) * ((r0 / r1 : Nat) : Int) + ((r0 % r1 : Nat) : Int) = r0 := by
      exact_mod_cast Nat.div_add_mod r0 r1
    rw [xgcdLoop, if_neg hne]
    by_cases hz : r0 % r1 = 0
    · have hq : 2 ≤ r0 / r1 := by
        rcases Nat.lt_or_ge (r0 / r1) 2 with hq | hq
        · have h3 : r1 * (r0 / r1) + r0 % r1 = r0 := Nat.div_add_mod r0 r1
          have h4 : r1 * (r0 / r1) ≤ r1 * 1 := Nat.mul_le_mul_left _ (by omega)
          omega
        · exact hq
      have hr0 : (2 : Int) * r1 ≤ r0 := by
        have h3 : r1 * (r0 / r1) + r0 % r1 = r0 := Nat.div_add_mod r0 r1
        have h4 : r1 * 2 ≤ r1 * (r0 / r1) := Nat.mul_le_mul_left _ hq
        omega
      have hend : ∀ u v u' v', xgcdLoop n r1 (r0 % r1) u u' v v' = ⟨r1, v, u⟩ := by
        intro u v u' v'
        rw [hz]
        cases n <;> simp [xgcdLoop]
      rw [hend]
      have h1 := abs_nonneg t1
      have h2 := abs_nonneg t0
      have h3 := abs_nonneg s1
      have h4 := abs_nonneg s0
      have h5 : (0 : Int) ≤ r1 := by positivity
      constructor
      · nlinarith [mul_nonneg h2 h5, mul_le_mul_of_nonneg_left hr0 h1]
      · nlinarith [mul_nonneg h4 h5, mul_le_mul_of_nonneg_left hr0 h3]
    · have habs : ∀ u v q : Int, 0 ≤ q → u * v ≤ 0 → |u - q * v| = |u| + q * |v| := by
        intro u v q hq huv
        rcases le_total 0 v with hv | hv
        · rcases le_total 0 u with hu | hu
          · rcases eq_or_lt_of_le hu with h0 | h0
            · subst h0; simp [abs_mul, abs_of_nonneg hq]
            · have : v = 0 := by nlinarith
              subst this; simp
          · rw [abs_of_nonpos hu, abs_of_nonneg hv, abs_of_nonpos (by nlinarith [mul_nonneg hq hv])]
            ring
        · rcases le_total 0 u with hu | hu
          · rw [abs_of_nonneg hu, abs_of_nonpos hv,
              abs_of_nonneg (by nlinarith [mul_nonneg hq (neg_nonneg.2 hv)])]
            ring
          · rcases eq_or_lt_of_le hu with h0 | h0
            · subst h0; simp [abs_mul, abs_of_nonneg hq]
            · have : v = 0 := by nlinarith
              subst this; simp
      have hsign : ∀ u v q : Int, 0 ≤ q → u * v ≤ 0 → v * (u - q * v) ≤ 0 := by
        intro u v q hq huv
        nlinarith [mul_nonneg hq (mul_self_nonneg v)]
      have hq : (0 : Int) ≤ ((r0 / r1 : Nat) : Int) := by positivity
      apply ih r1 (r0 % r1) s1 _ t1 _ (by omega) hz hmodlt (hsign _ _ _ hq hs) (hsign _ _ _ hq ht)
      · rw [habs _ _ _ hq ht, ← hB, ← hdm]; ring
      · rw [habs _ _ _ hq hs, ← hA, ← hdm]; ring

/-- The coefficient bound of R124. -/
theorem xgcd_bound (a b : Nat) (hg : (xgcd a b).g ≠ 0) :
    |(xgcd a b).x| ≤ max 1 ((b / (2 * (xgcd a b).g) : Nat) : Int) ∧
    |(xgcd a b).y| ≤ max 1 ((a / (2 * (xgcd a b).g) : Nat) : Int) := by
  have hdiv : ∀ (z : Int) (c g : Nat), g ≠ 0 → 2 * (g : Int) * |z| ≤ c →
      |z| ≤ max 1 ((c / (2 * g) : Nat) : Int) := by
    intro z c g hg h
    refine le_trans ?_ (le_max_right _ _)
    rw [← Int.natCast_natAbs] at h ⊢
    have h' : 2 * g * z.natAbs ≤ c := by exact_mod_cast h
    exact_mod_cast (Nat.le_div_iff_mul_le (by omega)).2 (by linarith)
  unfold xgcd at hg ⊢
  cases a with
  | zero => simp [xgcdLoop]
  | succ n =>
    rw [xgcdLoop, if_neg (by omega)] at hg ⊢
    by_cases hz : b % (n + 1) = 0
    · have hend : ∀ u v u' v', xgcdLoop n (n + 1) (b % (n + 1)) u u' v v' = ⟨n + 1, v, u⟩ := by
        intro u v u' v'
        rw [hz]
        cases n <;> simp [xgcdLoop]
      rw [hend]
      simp
    · have hdm : ((n + 1 : Nat) : Int) * ((b / (n + 1) : Nat) : Int) + ((b % (n + 1) : Nat) : Int)
          = b := by exact_mod_cast Nat.div_add_mod b (n + 1)
      have hmodlt : b % (n + 1) < n + 1 := Nat.mod_lt _ (by omega)
      have hq : (0 : Int) ≤ ((b / (n + 1) : Nat) : Int) := by positivity
      have := xgcdLoop_bound ((n + 1 : Nat) : Int) b n (n + 1) (b % (n + 1)) 0
        (1 - ((b / (n + 1) : Nat) : Int) * 0) 1 (0 - ((b / (n + 1) : Nat) : Int) * 1)
        (by omega) hz hmodlt (by simp) (by simpa using hq)
        (by
          rw [show (0 - ((b / (n + 1) : Nat) : Int) * 1) = -((b / (n + 1) : Nat) : Int) by ring,
            abs_neg, abs_of_nonneg hq, ← hdm, abs_one]
          ring)
        (by simp)
      exact ⟨hdiv _ _ _ hg this.1, hdiv _ _ _ hg this.2⟩

/-- No coefficient of operands below `2^n` leaves `n`-bit two's complement (R124), for `n >= 2`. -/
theorem xgcd_fits (n a b : Nat) (hn : 2 ≤ n) (ha : a < 2 ^ n) (hb : b < 2 ^ n) :
    fitsSigned n (xgcd a b).x = true ∧ fitsSigned n (xgcd a b).y = true := by
  have hpow : (2 : Nat) ^ n = 2 * 2 ^ (n - 1) := by
    rw [← pow_succ']; congr 1; omega
  have htwo : 2 ≤ 2 ^ (n - 1) := by
    calc 2 = 2 ^ 1 := rfl
      _ ≤ 2 ^ (n - 1) := Nat.pow_le_pow_right (by omega) (by omega)
  have hfit : ∀ (z : Int) (c g : Nat), g ≠ 0 → c < 2 ^ n →
      |z| ≤ max 1 ((c / (2 * g) : Nat) : Int) → fitsSigned n z = true := by
    intro z c g hg hc h
    have hdiv : c / (2 * g) ≤ c / 2 := Nat.div_le_div_left (by omega) (by omega)
    have hlt : c / 2 < 2 ^ (n - 1) := by omega
    have hcast : ((2 ^ (n - 1) : Nat) : Int) = (2 : Int) ^ (n - 1) := by push_cast; rfl
    have hz : |z| < (2 : Int) ^ (n - 1) := by
      rw [← hcast]
      refine lt_of_le_of_lt h (max_lt ?_ ?_)
      · exact_mod_cast htwo
      · exact_mod_cast lt_of_le_of_lt hdiv hlt
    have := abs_lt.1 hz
    simp only [fitsSigned, Bool.and_eq_true, decide_eq_true_eq]
    constructor <;> omega
  by_cases hg : (xgcd a b).g = 0
  · rw [xgcd_g, Nat.gcd_eq_zero_iff] at hg
    obtain ⟨rfl, rfl⟩ := hg
    have hcast : ((2 ^ (n - 1) : Nat) : Int) = (2 : Int) ^ (n - 1) := by push_cast; rfl
    have h2 : (2 : Int) ≤ 2 ^ (n - 1) := by rw [← hcast]; exact_mod_cast htwo
    rw [show (xgcd 0 0).x = 0 from rfl, show (xgcd 0 0).y = 1 from rfl]
    simp only [fitsSigned, Bool.and_eq_true, decide_eq_true_eq]
    refine ⟨⟨?_, ?_⟩, ?_, ?_⟩ <;> linarith
  · have := xgcd_bound a b hg
    exact ⟨hfit _ _ _ hg hb this.1, hfit _ _ _ hg ha this.2⟩

/-! modular_exponentiation_engine. -/

/-- The loop of R141: with fuel for every turn it multiplies `r` by `b ^ e` modulo `m`. -/
theorem modpowLoop_eq (m fuel : Nat) : ∀ r b e, e ≤ fuel → e ≠ 0 →
    modpowLoop fuel r b e m = r * b ^ e % m := by
  induction fuel with
  | zero => intro r b e h hne; omega
  | succ n ih =>
    intro r b e h hne
    rw [modpowLoop, if_neg hne]
    have hsplit : e = 2 * (e / 2) + e % 2 := by omega
    by_cases he : e / 2 = 0
    · have h1 : e = 1 := by omega
      subst h1
      rw [show (1 : Nat) / 2 = 0 from rfl]
      cases n <;> simp [modpowLoop]
    · rw [ih _ _ _ (by omega) he]
      have hpow : (b * b % m) ^ (e / 2) % m = b ^ (2 * (e / 2)) % m := by
        rw [← Nat.pow_mod, ← sq, ← pow_mul]
      rcases Nat.mod_two_eq_zero_or_one e with h2 | h2
      · rw [h2] at hsplit
        rw [if_neg (by omega), Nat.mul_mod, hpow, ← Nat.mul_mod]
        congr 2; rw [hsplit]; congr 1; omega
      · rw [h2] at hsplit
        rw [if_pos h2, Nat.mul_mod, hpow, Nat.mod_mod, ← Nat.mul_mod, mul_assoc, ← pow_succ']
        congr 2; rw [← hsplit]

/-- `modpow(base, e, m)` is `base ^ e mod m` for `e >= 1` (R141). -/
theorem modpow_eq (base e m : Nat) (he : e ≠ 0) : modpow base e m = base ^ e % m := by
  rw [modpow, modpowLoop_eq m e 1 (base % m) e le_rfl he, one_mul, ← Nat.pow_mod]

/-- `modpow(base, 0, m)` is 1, also for `m = 1` (R141, C8). -/
theorem modpow_zero (base m : Nat) : modpow base 0 m = 1 := rfl

/-- The result is below the modulus whenever `e >= 1` (R142, R145). -/
theorem modpow_lt (base e m : Nat) (he : e ≠ 0) (hm : m ≠ 0) : modpow base e m < m := by
  rw [modpow_eq base e m he]; exact Nat.mod_lt _ (by omega)

/-- The exact power, or none when it does not fit (R143). -/
theorem powWithin_eq (n a e : Nat) :
    powWithin n a e = if a ^ e < 2 ^ n then some (a ^ e) else none := by
  rw [powWithin]
  by_cases h : 2 ≤ a ∧ n ≤ e
  · have : 2 ^ n ≤ a ^ e := le_trans (Nat.pow_le_pow_right (by omega) h.2)
      (Nat.pow_le_pow_left h.1 e)
    rw [if_pos h, if_neg (by omega)]
  · rw [if_neg h]
    have : (if a ≤ 1 then (if e = 0 then 1 else a) else a ^ e) = a ^ e := by
      by_cases ha : a ≤ 1
      · rw [if_pos ha]
        by_cases he : e = 0
        · subst he; simp
        · rw [if_neg he]
          interval_cases a
          · rw [zero_pow he]
          · rw [one_pow]
      · rw [if_neg ha]
    simp only [this]

/-! Byte sequences. -/

/-- `LE_n(v)` has `n` bytes (R10). -/
@[simp] theorem leBytes_length (n v : Nat) : (leBytes n v).length = n := by
  induction n generalizing v with
  | zero => rfl
  | succ n ih => simp [leBytes, ih]

/-- A byte sequence of `n` bytes has a value below `256^n` (R10). -/
theorem fromLE_lt (bs : List Byte) : fromLE bs < 256 ^ bs.length := by
  induction bs with
  | nil => simp [fromLE]
  | cons b bs ih =>
    have := b.isLt
    rw [fromLE, List.length_cons, pow_succ]
    omega

/-- Reading `LE_n(v)` back gives the low `n` bytes of `v` (R10). -/
theorem fromLE_leBytes (n v : Nat) : fromLE (leBytes n v) = v % 256 ^ n := by
  induction n generalizing v with
  | zero => simp [leBytes, fromLE, Nat.mod_one]
  | succ n ih =>
    rw [leBytes, fromLE, ih, BitVec.toNat_ofNat, pow_succ' 256 n, Nat.mod_mul]

/-- Writing a byte sequence's value gives the bytes back (R10). -/
theorem leBytes_fromLE (bs : List Byte) : leBytes bs.length (fromLE bs) = bs := by
  induction bs with
  | nil => rfl
  | cons b bs ih =>
    have := b.isLt
    have h1 : (b.toNat + 256 * fromLE bs) / 256 = fromLE bs := by omega
    rw [List.length_cons, leBytes, fromLE, h1, ih]
    congr 1
    apply BitVec.eq_of_toNat_eq
    rw [BitVec.toNat_ofNat]
    omega

/-! Byte lengths. -/

/-- With fuel for every shift, the loop of R9 finds the least `k` with `v < 256^k`. -/
theorem byteLenLoop_le_iff (fuel : Nat) : ∀ v k, v ≤ fuel →
    (byteLenLoop fuel v ≤ k ↔ v < 256 ^ k) := by
  induction fuel with
  | zero =>
    intro v k h
    obtain rfl : v = 0 := by omega
    simp [byteLenLoop]
  | succ n ih =>
    intro v k h
    rw [byteLenLoop]
    by_cases hv : v = 0
    · subst hv; simp
    · rw [if_neg hv, Nat.shiftRight_eq_div_pow]
      cases k with
      | zero => simp; omega
      | succ k =>
        rw [Nat.succ_le_succ_iff, ih _ _ (by omega), pow_succ 256 k,
          Nat.div_lt_iff_lt_mul (by norm_num)]

/-- `bytelen(v) <= k` exactly when `v < 256^k` (R9). -/
theorem byteLen_le_iff (v k : Nat) : byteLen v ≤ k ↔ v < 256 ^ k :=
  byteLenLoop_le_iff v v k le_rfl

/-- `bytelen(v)` bytes hold `v` (R9). -/
theorem lt_pow_byteLen (v : Nat) : v < 256 ^ byteLen v := (byteLen_le_iff v _).1 le_rfl

/-- `k <= log256floor(v)` exactly when `256^k <= v`, for `v >= 1` (R9). -/
theorem le_log256Floor_iff (v k : Nat) (hv : v ≠ 0) : k ≤ log256Floor v ↔ 256 ^ k ≤ v := by
  cases k with
  | zero => simp; omega
  | succ k =>
    rw [← not_iff_not, not_le, not_le, Nat.lt_succ_iff, log256Floor, byteLen_le_iff,
      Nat.shiftRight_eq_div_pow, pow_succ 256 k, Nat.div_lt_iff_lt_mul (by norm_num)]

end Sys2Proof.Laws
end

