-- ==== Sys2Proof/Laws/Decode.lean ====
section
/-! SUPPORT. What the decoder reads (R73). -/

namespace Sys2Proof.Laws

/-- A word with reserved bits 0 is its opcode field (R71). -/
theorem word_of_opcode (w : Word) (h : reservedField w = 0#24) :
    w = (opcodeField w).setWidth 32 := by
  apply BitVec.eq_of_toNat_eq
  have h1 : (reservedField w).toNat = 0 := by rw [h]; rfl
  simp only [reservedField, opcodeField, BitVec.extractLsb'_toNat, BitVec.toNat_setWidth,
    Nat.shiftRight_eq_div_pow] at *
  have := w.isLt
  omega

/-- The opcode map answers a command only for its opcode, and none only for an unassigned one
(R72, R74). -/
theorem instrOfOpcode_spec (b : Byte) :
    (∀ i, instrOfOpcode b = some i → b = opcode i) ∧
    (instrOfOpcode b = none → assignedWords.contains (b.setWidth 32) = false) := by
  revert b; decide +kernel

/-- The eleven words have reserved bits 0 (R72). -/
theorem reserved_of_assigned (w : Word) (h : assignedWords.contains w = true) :
    reservedField w = 0#24 := by
  have : (assignedWords.all fun w => decide (reservedField w = 0#24)) = true := by decide +kernel
  rw [List.contains_iff_mem] at h
  simpa using List.all_eq_true.1 this w h

/-- Decoding answers a well-formed command, whose opcode field is the word's own (R73, R100). -/
theorem decode_wellFormed (w : Word) :
    (decode w).wellFormed = true ∧ opcodeField w = opcodeField (encode (decode w)) := by
  unfold decode
  split
  · next hr =>
    have hw := word_of_opcode w hr
    have hs := instrOfOpcode_spec (opcodeField w)
    cases hi : instrOfOpcode (opcodeField w) with
    | none =>
      simp only [Command.wellFormed, encode, and_true]
      rw [hw, hs.2 hi]; rfl
    | some i =>
      refine ⟨by cases i <;> rfl, ?_⟩
      simp only [encode, encodeInstr]
      rw [hs.1 i hi]; cases i <;> rfl
  · next hr =>
    simp only [Command.wellFormed, encode, and_true, Bool.not_eq_true']
    rw [← Bool.not_eq_true]
    exact fun hm => hr (reserved_of_assigned w hm)

end Sys2Proof.Laws
end

