-- ==== Sys2Proof/Laws/State.lean ====
section
/-! SUPPORT. One lemma per field for each operation that updates the state, so that no proof unfolds
a record update. -/

namespace Sys2Proof.Laws

open Sys2Proof.Machine

/-! `accept` (R100). -/

@[simp] theorem accept_irqEn (w : Word) (s : State) : (accept w s).irqEn = s.irqEn := rfl
@[simp] theorem accept_done (w : Word) (s : State) : (accept w s).done = false := rfl
@[simp] theorem accept_err (w : Word) (s : State) : (accept w s).err = false := rfl
@[simp] theorem accept_noinv (w : Word) (s : State) : (accept w s).noinv = false := rfl
@[simp] theorem accept_short (w : Word) (s : State) : (accept w s).short = false := rfl
@[simp] theorem accept_overrun (w : Word) (s : State) : (accept w s).overrun = s.overrun := rfl
@[simp] theorem accept_keyconf (w : Word) (s : State) : (accept w s).keyconf = s.keyconf := rfl
@[simp] theorem accept_canEnc (w : Word) (s : State) : (accept w s).canEnc = s.canEnc := rfl
@[simp] theorem accept_canDec (w : Word) (s : State) : (accept w s).canDec = s.canDec := rfl
@[simp] theorem accept_abortPend (w : Word) (s : State) :
    (accept w s).abortPend = s.abortPend := rfl
@[simp] theorem accept_errcode (w : Word) (s : State) : (accept w s).errcode = .none := rfl
@[simp] theorem accept_curOp (w : Word) (s : State) : (accept w s).curOp = opcodeField w := rfl
@[simp] theorem accept_errinfo (w : Word) (s : State) : (accept w s).errinfo = 0 := rfl
@[simp] theorem accept_keycfg (w : Word) (s : State) : (accept w s).keycfg = s.keycfg := rfl
@[simp] theorem accept_blklen (w : Word) (s : State) : (accept w s).blklen = s.blklen := rfl
@[simp] theorem accept_frames (w : Word) (s : State) :
    (accept w s).frames = if isStreamCommand (decode w) then 0 else s.frames := rfl
@[simp] theorem accept_opa (w : Word) (s : State) : (accept w s).opa = s.opa := rfl
@[simp] theorem accept_opb (w : Word) (s : State) : (accept w s).opb = s.opb := rfl
@[simp] theorem accept_opc (w : Word) (s : State) : (accept w s).opc = s.opc := rfl
@[simp] theorem accept_r0 (w : Word) (s : State) : (accept w s).r0 = s.r0 := rfl
@[simp] theorem accept_r1 (w : Word) (s : State) : (accept w s).r1 = s.r1 := rfl
@[simp] theorem accept_r2 (w : Word) (s : State) : (accept w s).r2 = s.r2 := rfl
@[simp] theorem accept_keyN (w : Word) (s : State) : (accept w s).keyN = s.keyN := rfl
@[simp] theorem accept_keyE (w : Word) (s : State) : (accept w s).keyE = s.keyE := rfl
@[simp] theorem accept_keyD (w : Word) (s : State) : (accept w s).keyD = s.keyD := rfl
@[simp] theorem accept_phase (w : Word) (s : State) :
    (accept w s).phase = .busy (decode w) (takeSnapshot s) := rfl
@[simp] theorem accept_inq (w : Word) (s : State) : (accept w s).inq = s.inq := rfl
@[simp] theorem accept_outq (w : Word) (s : State) : (accept w s).outq = s.outq := rfl
@[simp] theorem accept_cfg (w : Word) (s : State) : (accept w s).cfg = s.cfg := rfl
@[simp] theorem accept_agenda (w : Word) (s : State) : (accept w s).agenda = s.agenda := rfl
@[simp] theorem accept_reply (w : Word) (s : State) : (accept w s).reply = s.reply := rfl

/-! `resetBlock` (R230): every field but the parameters and the moves still to come. -/

@[simp] theorem resetBlock_irqEn (s : State) :
    (resetBlock s).irqEn = (State.resetOf s.cfg).irqEn := rfl
@[simp] theorem resetBlock_done (s : State) :
    (resetBlock s).done = (State.resetOf s.cfg).done := rfl
@[simp] theorem resetBlock_err (s : State) : (resetBlock s).err = (State.resetOf s.cfg).err := rfl
@[simp] theorem resetBlock_noinv (s : State) :
    (resetBlock s).noinv = (State.resetOf s.cfg).noinv := rfl
@[simp] theorem resetBlock_short (s : State) :
    (resetBlock s).short = (State.resetOf s.cfg).short := rfl
@[simp] theorem resetBlock_overrun (s : State) :
    (resetBlock s).overrun = (State.resetOf s.cfg).overrun := rfl
@[simp] theorem resetBlock_keyconf (s : State) :
    (resetBlock s).keyconf = (State.resetOf s.cfg).keyconf := rfl
@[simp] theorem resetBlock_canEnc (s : State) :
    (resetBlock s).canEnc = (State.resetOf s.cfg).canEnc := rfl
@[simp] theorem resetBlock_canDec (s : State) :
    (resetBlock s).canDec = (State.resetOf s.cfg).canDec := rfl
@[simp] theorem resetBlock_abortPend (s : State) :
    (resetBlock s).abortPend = (State.resetOf s.cfg).abortPend := rfl
@[simp] theorem resetBlock_errcode (s : State) :
    (resetBlock s).errcode = (State.resetOf s.cfg).errcode := rfl
@[simp] theorem resetBlock_curOp (s : State) :
    (resetBlock s).curOp = (State.resetOf s.cfg).curOp := rfl
@[simp] theorem resetBlock_errinfo (s : State) :
    (resetBlock s).errinfo = (State.resetOf s.cfg).errinfo := rfl
@[simp] theorem resetBlock_keycfg (s : State) :
    (resetBlock s).keycfg = (State.resetOf s.cfg).keycfg := rfl
@[simp] theorem resetBlock_blklen (s : State) :
    (resetBlock s).blklen = (State.resetOf s.cfg).blklen := rfl
@[simp] theorem resetBlock_frames (s : State) :
    (resetBlock s).frames = (State.resetOf s.cfg).frames := rfl
@[simp] theorem resetBlock_opa (s : State) : (resetBlock s).opa = (State.resetOf s.cfg).opa := rfl
@[simp] theorem resetBlock_opb (s : State) : (resetBlock s).opb = (State.resetOf s.cfg).opb := rfl
@[simp] theorem resetBlock_opc (s : State) : (resetBlock s).opc = (State.resetOf s.cfg).opc := rfl
@[simp] theorem resetBlock_r0 (s : State) : (resetBlock s).r0 = (State.resetOf s.cfg).r0 := rfl
@[simp] theorem resetBlock_r1 (s : State) : (resetBlock s).r1 = (State.resetOf s.cfg).r1 := rfl
@[simp] theorem resetBlock_r2 (s : State) : (resetBlock s).r2 = (State.resetOf s.cfg).r2 := rfl
@[simp] theorem resetBlock_keyN (s : State) :
    (resetBlock s).keyN = (State.resetOf s.cfg).keyN := rfl
@[simp] theorem resetBlock_keyE (s : State) :
    (resetBlock s).keyE = (State.resetOf s.cfg).keyE := rfl
@[simp] theorem resetBlock_keyD (s : State) :
    (resetBlock s).keyD = (State.resetOf s.cfg).keyD := rfl
@[simp] theorem resetBlock_phase (s : State) :
    (resetBlock s).phase = (State.resetOf s.cfg).phase := rfl
@[simp] theorem resetBlock_inq (s : State) : (resetBlock s).inq = (State.resetOf s.cfg).inq := rfl
@[simp] theorem resetBlock_outq (s : State) :
    (resetBlock s).outq = (State.resetOf s.cfg).outq := rfl
@[simp] theorem resetBlock_cfg (s : State) : (resetBlock s).cfg = s.cfg := rfl
@[simp] theorem resetBlock_agenda (s : State) : (resetBlock s).agenda = s.agenda := rfl
@[simp] theorem resetBlock_reply (s : State) :
    (resetBlock s).reply = (State.resetOf s.cfg).reply := rfl

/-! `clearReport` (R28, R206). -/

@[simp] theorem clearReport_irqEn (v : Word) (s : State) : (clearReport v s).irqEn = s.irqEn := rfl
@[simp] theorem clearReport_done (v : Word) (s : State) :
    (clearReport v s).done = (s.done && !v.getLsbD 1) := rfl
@[simp] theorem clearReport_err (v : Word) (s : State) :
    (clearReport v s).err = (s.err && !v.getLsbD 2) := rfl
@[simp] theorem clearReport_noinv (v : Word) (s : State) : (clearReport v s).noinv = s.noinv := rfl
@[simp] theorem clearReport_short (v : Word) (s : State) : (clearReport v s).short = s.short := rfl
@[simp] theorem clearReport_overrun (v : Word) (s : State) :
    (clearReport v s).overrun = (s.overrun && !v.getLsbD 5) := rfl
@[simp] theorem clearReport_keyconf (v : Word) (s : State) :
    (clearReport v s).keyconf = s.keyconf := rfl
@[simp] theorem clearReport_canEnc (v : Word) (s : State) :
    (clearReport v s).canEnc = s.canEnc := rfl
@[simp] theorem clearReport_canDec (v : Word) (s : State) :
    (clearReport v s).canDec = s.canDec := rfl
@[simp] theorem clearReport_abortPend (v : Word) (s : State) :
    (clearReport v s).abortPend = s.abortPend := rfl
@[simp] theorem clearReport_errcode (v : Word) (s : State) :
    (clearReport v s).errcode = if v.getLsbD 2 then .none else s.errcode := rfl
@[simp] theorem clearReport_curOp (v : Word) (s : State) : (clearReport v s).curOp = s.curOp := rfl
@[simp] theorem clearReport_errinfo (v : Word) (s : State) :
    (clearReport v s).errinfo = if v.getLsbD 2 then 0 else s.errinfo := rfl
@[simp] theorem clearReport_keycfg (v : Word) (s : State) :
    (clearReport v s).keycfg = s.keycfg := rfl
@[simp] theorem clearReport_blklen (v : Word) (s : State) :
    (clearReport v s).blklen = s.blklen := rfl
@[simp] theorem clearReport_frames (v : Word) (s : State) :
    (clearReport v s).frames = s.frames := rfl
@[simp] theorem clearReport_opa (v : Word) (s : State) : (clearReport v s).opa = s.opa := rfl
@[simp] theorem clearReport_opb (v : Word) (s : State) : (clearReport v s).opb = s.opb := rfl
@[simp] theorem clearReport_opc (v : Word) (s : State) : (clearReport v s).opc = s.opc := rfl
@[simp] theorem clearReport_r0 (v : Word) (s : State) : (clearReport v s).r0 = s.r0 := rfl
@[simp] theorem clearReport_r1 (v : Word) (s : State) : (clearReport v s).r1 = s.r1 := rfl
@[simp] theorem clearReport_r2 (v : Word) (s : State) : (clearReport v s).r2 = s.r2 := rfl
@[simp] theorem clearReport_keyN (v : Word) (s : State) : (clearReport v s).keyN = s.keyN := rfl
@[simp] theorem clearReport_keyE (v : Word) (s : State) : (clearReport v s).keyE = s.keyE := rfl
@[simp] theorem clearReport_keyD (v : Word) (s : State) : (clearReport v s).keyD = s.keyD := rfl
@[simp] theorem clearReport_phase (v : Word) (s : State) : (clearReport v s).phase = s.phase := rfl
@[simp] theorem clearReport_inq (v : Word) (s : State) : (clearReport v s).inq = s.inq := rfl
@[simp] theorem clearReport_outq (v : Word) (s : State) : (clearReport v s).outq = s.outq := rfl
@[simp] theorem clearReport_cfg (v : Word) (s : State) : (clearReport v s).cfg = s.cfg := rfl
@[simp] theorem clearReport_agenda (v : Word) (s : State) :
    (clearReport v s).agenda = s.agenda := rfl
@[simp] theorem clearReport_reply (v : Word) (s : State) : (clearReport v s).reply = s.reply := rfl

/-! `loadKey` (R161). -/

@[simp] theorem loadKey_irqEn (k : KeyLoad) (s : State) : (loadKey k s).irqEn = s.irqEn := rfl
@[simp] theorem loadKey_done (k : KeyLoad) (s : State) : (loadKey k s).done = s.done := rfl
@[simp] theorem loadKey_err (k : KeyLoad) (s : State) : (loadKey k s).err = s.err := rfl
@[simp] theorem loadKey_noinv (k : KeyLoad) (s : State) : (loadKey k s).noinv = s.noinv := rfl
@[simp] theorem loadKey_short (k : KeyLoad) (s : State) : (loadKey k s).short = s.short := rfl
@[simp] theorem loadKey_overrun (k : KeyLoad) (s : State) : (loadKey k s).overrun = s.overrun := rfl
@[simp] theorem loadKey_keyconf (k : KeyLoad) (s : State) : (loadKey k s).keyconf = true := rfl
@[simp] theorem loadKey_canEnc (k : KeyLoad) (s : State) : (loadKey k s).canEnc = k.canEnc := rfl
@[simp] theorem loadKey_canDec (k : KeyLoad) (s : State) : (loadKey k s).canDec = k.canDec := rfl
@[simp] theorem loadKey_abortPend (k : KeyLoad) (s : State) :
    (loadKey k s).abortPend = s.abortPend := rfl
@[simp] theorem loadKey_errcode (k : KeyLoad) (s : State) : (loadKey k s).errcode = s.errcode := rfl
@[simp] theorem loadKey_curOp (k : KeyLoad) (s : State) : (loadKey k s).curOp = s.curOp := rfl
@[simp] theorem loadKey_errinfo (k : KeyLoad) (s : State) : (loadKey k s).errinfo = s.errinfo := rfl
@[simp] theorem loadKey_keycfg (k : KeyLoad) (s : State) : (loadKey k s).keycfg = k.keycfg := rfl
@[simp] theorem loadKey_blklen (k : KeyLoad) (s : State) : (loadKey k s).blklen = k.blklen := rfl
@[simp] theorem loadKey_frames (k : KeyLoad) (s : State) : (loadKey k s).frames = s.frames := rfl
@[simp] theorem loadKey_opa (k : KeyLoad) (s : State) : (loadKey k s).opa = s.opa := rfl
@[simp] theorem loadKey_opb (k : KeyLoad) (s : State) : (loadKey k s).opb = s.opb := rfl
@[simp] theorem loadKey_opc (k : KeyLoad) (s : State) : (loadKey k s).opc = s.opc := rfl
@[simp] theorem loadKey_r0 (k : KeyLoad) (s : State) : (loadKey k s).r0 = s.r0 := rfl
@[simp] theorem loadKey_r1 (k : KeyLoad) (s : State) : (loadKey k s).r1 = s.r1 := rfl
@[simp] theorem loadKey_r2 (k : KeyLoad) (s : State) : (loadKey k s).r2 = s.r2 := rfl
@[simp] theorem loadKey_keyN (k : KeyLoad) (s : State) : (loadKey k s).keyN = k.n := rfl
@[simp] theorem loadKey_keyE (k : KeyLoad) (s : State) : (loadKey k s).keyE = k.ke := rfl
@[simp] theorem loadKey_keyD (k : KeyLoad) (s : State) : (loadKey k s).keyD = k.kd := rfl
@[simp] theorem loadKey_phase (k : KeyLoad) (s : State) : (loadKey k s).phase = s.phase := rfl
@[simp] theorem loadKey_inq (k : KeyLoad) (s : State) : (loadKey k s).inq = s.inq := rfl
@[simp] theorem loadKey_outq (k : KeyLoad) (s : State) : (loadKey k s).outq = s.outq := rfl
@[simp] theorem loadKey_cfg (k : KeyLoad) (s : State) : (loadKey k s).cfg = s.cfg := rfl
@[simp] theorem loadKey_agenda (k : KeyLoad) (s : State) : (loadKey k s).agenda = s.agenda := rfl
@[simp] theorem loadKey_reply (k : KeyLoad) (s : State) : (loadKey k s).reply = s.reply := rfl

/-! `applyWrites` (R103): only result registers and the key state. -/

@[simp] theorem applyWrites_irqEn (w : Writes) (s : State) :
    (applyWrites w s).irqEn = s.irqEn := by
  unfold applyWrites; cases w.key <;> rfl
@[simp] theorem applyWrites_done (w : Writes) (s : State) :
    (applyWrites w s).done = s.done := by
  unfold applyWrites; cases w.key <;> rfl
@[simp] theorem applyWrites_err (w : Writes) (s : State) :
    (applyWrites w s).err = s.err := by
  unfold applyWrites; cases w.key <;> rfl
@[simp] theorem applyWrites_noinv (w : Writes) (s : State) :
    (applyWrites w s).noinv = s.noinv := by
  unfold applyWrites; cases w.key <;> rfl
@[simp] theorem applyWrites_short (w : Writes) (s : State) :
    (applyWrites w s).short = s.short := by
  unfold applyWrites; cases w.key <;> rfl
@[simp] theorem applyWrites_overrun (w : Writes) (s : State) :
    (applyWrites w s).overrun = s.overrun := by
  unfold applyWrites; cases w.key <;> rfl
@[simp] theorem applyWrites_keyconf (w : Writes) (s : State) :
    (applyWrites w s).keyconf = (match w.key with | none => s.keyconf | some _ => true) := by
  unfold applyWrites; cases w.key <;> rfl
@[simp] theorem applyWrites_canEnc (w : Writes) (s : State) :
    (applyWrites w s).canEnc = (match w.key with | none => s.canEnc | some k => k.canEnc) := by
  unfold applyWrites; cases w.key <;> rfl
@[simp] theorem applyWrites_canDec (w : Writes) (s : State) :
    (applyWrites w s).canDec = (match w.key with | none => s.canDec | some k => k.canDec) := by
  unfold applyWrites; cases w.key <;> rfl
@[simp] theorem applyWrites_abortPend (w : Writes) (s : State) :
    (applyWrites w s).abortPend = s.abortPend := by
  unfold applyWrites; cases w.key <;> rfl
@[simp] theorem applyWrites_errcode (w : Writes) (s : State) :
    (applyWrites w s).errcode = s.errcode := by
  unfold applyWrites; cases w.key <;> rfl
@[simp] theorem applyWrites_curOp (w : Writes) (s : State) :
    (applyWrites w s).curOp = s.curOp := by
  unfold applyWrites; cases w.key <;> rfl
@[simp] theorem applyWrites_errinfo (w : Writes) (s : State) :
    (applyWrites w s).errinfo = s.errinfo := by
  unfold applyWrites; cases w.key <;> rfl
@[simp] theorem applyWrites_keycfg (w : Writes) (s : State) :
    (applyWrites w s).keycfg = (match w.key with | none => s.keycfg | some k => k.keycfg) := by
  unfold applyWrites; cases w.key <;> rfl
@[simp] theorem applyWrites_blklen (w : Writes) (s : State) :
    (applyWrites w s).blklen = (match w.key with | none => s.blklen | some k => k.blklen) := by
  unfold applyWrites; cases w.key <;> rfl
@[simp] theorem applyWrites_frames (w : Writes) (s : State) :
    (applyWrites w s).frames = s.frames := by
  unfold applyWrites; cases w.key <;> rfl
@[simp] theorem applyWrites_opa (w : Writes) (s : State) :
    (applyWrites w s).opa = s.opa := by
  unfold applyWrites; cases w.key <;> rfl
@[simp] theorem applyWrites_opb (w : Writes) (s : State) :
    (applyWrites w s).opb = s.opb := by
  unfold applyWrites; cases w.key <;> rfl
@[simp] theorem applyWrites_opc (w : Writes) (s : State) :
    (applyWrites w s).opc = s.opc := by
  unfold applyWrites; cases w.key <;> rfl
@[simp] theorem applyWrites_r0 (w : Writes) (s : State) :
    (applyWrites w s).r0 = w.r0.getD s.r0 := by
  unfold applyWrites; cases w.key <;> rfl
@[simp] theorem applyWrites_r1 (w : Writes) (s : State) :
    (applyWrites w s).r1 = w.r1.getD s.r1 := by
  unfold applyWrites; cases w.key <;> rfl
@[simp] theorem applyWrites_r2 (w : Writes) (s : State) :
    (applyWrites w s).r2 = w.r2.getD s.r2 := by
  unfold applyWrites; cases w.key <;> rfl
@[simp] theorem applyWrites_keyN (w : Writes) (s : State) :
    (applyWrites w s).keyN = (match w.key with | none => s.keyN | some k => k.n) := by
  unfold applyWrites; cases w.key <;> rfl
@[simp] theorem applyWrites_keyE (w : Writes) (s : State) :
    (applyWrites w s).keyE = (match w.key with | none => s.keyE | some k => k.ke) := by
  unfold applyWrites; cases w.key <;> rfl
@[simp] theorem applyWrites_keyD (w : Writes) (s : State) :
    (applyWrites w s).keyD = (match w.key with | none => s.keyD | some k => k.kd) := by
  unfold applyWrites; cases w.key <;> rfl
@[simp] theorem applyWrites_phase (w : Writes) (s : State) :
    (applyWrites w s).phase = s.phase := by
  unfold applyWrites; cases w.key <;> rfl
@[simp] theorem applyWrites_inq (w : Writes) (s : State) :
    (applyWrites w s).inq = s.inq := by
  unfold applyWrites; cases w.key <;> rfl
@[simp] theorem applyWrites_outq (w : Writes) (s : State) :
    (applyWrites w s).outq = s.outq := by
  unfold applyWrites; cases w.key <;> rfl
@[simp] theorem applyWrites_cfg (w : Writes) (s : State) :
    (applyWrites w s).cfg = s.cfg := by
  unfold applyWrites; cases w.key <;> rfl
@[simp] theorem applyWrites_agenda (w : Writes) (s : State) :
    (applyWrites w s).agenda = s.agenda := by
  unfold applyWrites; cases w.key <;> rfl
@[simp] theorem applyWrites_reply (w : Writes) (s : State) :
    (applyWrites w s).reply = s.reply := by
  unfold applyWrites; cases w.key <;> rfl

/-! `complete` (R103, R202). -/

@[simp] theorem complete_irqEn (r : Report) (s : State) :
    (complete r s).irqEn = s.irqEn := by
  unfold complete; split <;> simp
@[simp] theorem complete_done (r : Report) (s : State) : (complete r s).done = true := rfl
@[simp] theorem complete_err (r : Report) (s : State) :
    (complete r s).err = decide (r.code ≠ .none) := rfl
@[simp] theorem complete_noinv (r : Report) (s : State) : (complete r s).noinv = r.noinv := rfl
@[simp] theorem complete_short (r : Report) (s : State) : (complete r s).short = r.short := rfl
@[simp] theorem complete_overrun (r : Report) (s : State) :
    (complete r s).overrun = s.overrun := by
  unfold complete; split <;> simp
@[simp] theorem complete_keyconf (r : Report) (s : State) :
    (complete r s).keyconf = if r.code = .none then (applyWrites r.writes s).keyconf else s.keyconf :=
  by
  unfold complete; split <;> rfl
@[simp] theorem complete_canEnc (r : Report) (s : State) :
    (complete r s).canEnc = if r.code = .none then (applyWrites r.writes s).canEnc else s.canEnc :=
  by
  unfold complete; split <;> rfl
@[simp] theorem complete_canDec (r : Report) (s : State) :
    (complete r s).canDec = if r.code = .none then (applyWrites r.writes s).canDec else s.canDec :=
  by
  unfold complete; split <;> rfl
@[simp] theorem complete_abortPend (r : Report) (s : State) :
    (complete r s).abortPend = false := rfl
@[simp] theorem complete_errcode (r : Report) (s : State) : (complete r s).errcode = r.code := rfl
@[simp] theorem complete_curOp (r : Report) (s : State) :
    (complete r s).curOp = s.curOp := by
  unfold complete; split <;> simp
@[simp] theorem complete_errinfo (r : Report) (s : State) :
    (complete r s).errinfo = if r.code = .none then 0 else r.info := rfl
@[simp] theorem complete_keycfg (r : Report) (s : State) :
    (complete r s).keycfg = if r.code = .none then (applyWrites r.writes s).keycfg else s.keycfg :=
  by
  unfold complete; split <;> rfl
@[simp] theorem complete_blklen (r : Report) (s : State) :
    (complete r s).blklen = if r.code = .none then (applyWrites r.writes s).blklen else s.blklen :=
  by
  unfold complete; split <;> rfl
@[simp] theorem complete_frames (r : Report) (s : State) :
    (complete r s).frames = s.frames := by
  unfold complete; split <;> simp
@[simp] theorem complete_opa (r : Report) (s : State) :
    (complete r s).opa = s.opa := by
  unfold complete; split <;> simp
@[simp] theorem complete_opb (r : Report) (s : State) :
    (complete r s).opb = s.opb := by
  unfold complete; split <;> simp
@[simp] theorem complete_opc (r : Report) (s : State) :
    (complete r s).opc = s.opc := by
  unfold complete; split <;> simp
@[simp] theorem complete_r0 (r : Report) (s : State) :
    (complete r s).r0 = if r.code = .none then (applyWrites r.writes s).r0 else s.r0 := by
  unfold complete; split <;> rfl
@[simp] theorem complete_r1 (r : Report) (s : State) :
    (complete r s).r1 = if r.code = .none then (applyWrites r.writes s).r1 else s.r1 := by
  unfold complete; split <;> rfl
@[simp] theorem complete_r2 (r : Report) (s : State) :
    (complete r s).r2 = if r.code = .none then (applyWrites r.writes s).r2 else s.r2 := by
  unfold complete; split <;> rfl
@[simp] theorem complete_keyN (r : Report) (s : State) :
    (complete r s).keyN = if r.code = .none then (applyWrites r.writes s).keyN else s.keyN := by
  unfold complete; split <;> rfl
@[simp] theorem complete_keyE (r : Report) (s : State) :
    (complete r s).keyE = if r.code = .none then (applyWrites r.writes s).keyE else s.keyE := by
  unfold complete; split <;> rfl
@[simp] theorem complete_keyD (r : Report) (s : State) :
    (complete r s).keyD = if r.code = .none then (applyWrites r.writes s).keyD else s.keyD := by
  unfold complete; split <;> rfl
@[simp] theorem complete_phase (r : Report) (s : State) : (complete r s).phase = .idle := rfl
@[simp] theorem complete_inq (r : Report) (s : State) :
    (complete r s).inq = s.inq := by
  unfold complete; split <;> simp
@[simp] theorem complete_outq (r : Report) (s : State) :
    (complete r s).outq = s.outq := by
  unfold complete; split <;> simp
@[simp] theorem complete_cfg (r : Report) (s : State) :
    (complete r s).cfg = s.cfg := by
  unfold complete; split <;> simp
@[simp] theorem complete_agenda (r : Report) (s : State) :
    (complete r s).agenda = s.agenda := by
  unfold complete; split <;> simp
@[simp] theorem complete_reply (r : Report) (s : State) :
    (complete r s).reply = s.reply := by
  unfold complete; split <;> simp

/-! `emitFrame` (R178, R179). -/

@[simp] theorem emitFrame_irqEn (dir : Dir) (n : Nat) (s : State) :
    (emitFrame dir n s).irqEn = s.irqEn := rfl
@[simp] theorem emitFrame_done (dir : Dir) (n : Nat) (s : State) :
    (emitFrame dir n s).done = s.done := rfl
@[simp] theorem emitFrame_err (dir : Dir) (n : Nat) (s : State) :
    (emitFrame dir n s).err = s.err := rfl
@[simp] theorem emitFrame_noinv (dir : Dir) (n : Nat) (s : State) :
    (emitFrame dir n s).noinv = s.noinv := rfl
@[simp] theorem emitFrame_short (dir : Dir) (n : Nat) (s : State) :
    (emitFrame dir n s).short = s.short := rfl
@[simp] theorem emitFrame_overrun (dir : Dir) (n : Nat) (s : State) :
    (emitFrame dir n s).overrun = s.overrun := rfl
@[simp] theorem emitFrame_keyconf (dir : Dir) (n : Nat) (s : State) :
    (emitFrame dir n s).keyconf = s.keyconf := rfl
@[simp] theorem emitFrame_canEnc (dir : Dir) (n : Nat) (s : State) :
    (emitFrame dir n s).canEnc = s.canEnc := rfl
@[simp] theorem emitFrame_canDec (dir : Dir) (n : Nat) (s : State) :
    (emitFrame dir n s).canDec = s.canDec := rfl
@[simp] theorem emitFrame_abortPend (dir : Dir) (n : Nat) (s : State) :
    (emitFrame dir n s).abortPend = s.abortPend := rfl
@[simp] theorem emitFrame_errcode (dir : Dir) (n : Nat) (s : State) :
    (emitFrame dir n s).errcode = s.errcode := rfl
@[simp] theorem emitFrame_curOp (dir : Dir) (n : Nat) (s : State) :
    (emitFrame dir n s).curOp = s.curOp := rfl
@[simp] theorem emitFrame_errinfo (dir : Dir) (n : Nat) (s : State) :
    (emitFrame dir n s).errinfo = s.errinfo := rfl
@[simp] theorem emitFrame_keycfg (dir : Dir) (n : Nat) (s : State) :
    (emitFrame dir n s).keycfg = s.keycfg := rfl
@[simp] theorem emitFrame_blklen (dir : Dir) (n : Nat) (s : State) :
    (emitFrame dir n s).blklen = s.blklen := rfl
@[simp] theorem emitFrame_frames (dir : Dir) (n : Nat) (s : State) :
    (emitFrame dir n s).frames = s.frames + 1 := rfl
@[simp] theorem emitFrame_opa (dir : Dir) (n : Nat) (s : State) :
    (emitFrame dir n s).opa = s.opa := rfl
@[simp] theorem emitFrame_opb (dir : Dir) (n : Nat) (s : State) :
    (emitFrame dir n s).opb = s.opb := rfl
@[simp] theorem emitFrame_opc (dir : Dir) (n : Nat) (s : State) :
    (emitFrame dir n s).opc = s.opc := rfl
@[simp] theorem emitFrame_r0 (dir : Dir) (n : Nat) (s : State) :
    (emitFrame dir n s).r0 = s.r0 := rfl
@[simp] theorem emitFrame_r1 (dir : Dir) (n : Nat) (s : State) :
    (emitFrame dir n s).r1 = s.r1 := rfl
@[simp] theorem emitFrame_r2 (dir : Dir) (n : Nat) (s : State) :
    (emitFrame dir n s).r2 = s.r2 := rfl
@[simp] theorem emitFrame_keyN (dir : Dir) (n : Nat) (s : State) :
    (emitFrame dir n s).keyN = s.keyN := rfl
@[simp] theorem emitFrame_keyE (dir : Dir) (n : Nat) (s : State) :
    (emitFrame dir n s).keyE = s.keyE := rfl
@[simp] theorem emitFrame_keyD (dir : Dir) (n : Nat) (s : State) :
    (emitFrame dir n s).keyD = s.keyD := rfl
@[simp] theorem emitFrame_phase (dir : Dir) (n : Nat) (s : State) :
    (emitFrame dir n s).phase = s.phase := rfl
@[simp] theorem emitFrame_inq (dir : Dir) (n : Nat) (s : State) :
    (emitFrame dir n s).inq = s.inq.drop n := rfl
@[simp] theorem emitFrame_outq (dir : Dir) (n : Nat) (s : State) :
    (emitFrame dir n s).outq = s.outq ++ frameFn dir s (frameChunk dir s) := rfl
@[simp] theorem emitFrame_cfg (dir : Dir) (n : Nat) (s : State) :
    (emitFrame dir n s).cfg = s.cfg := rfl
@[simp] theorem emitFrame_agenda (dir : Dir) (n : Nat) (s : State) :
    (emitFrame dir n s).agenda = s.agenda := rfl
@[simp] theorem emitFrame_reply (dir : Dir) (n : Nat) (s : State) :
    (emitFrame dir n s).reply = s.reply := rfl

end Sys2Proof.Laws
end

