-- ==== Sys2Proof/Laws/Ops.lean ====
section
/-! SUPPORT. For each shared operation, once, everything it can do. -/

namespace Sys2Proof.Laws

open Sys2Proof.Machine

/-! Wide registers (R35). -/

theorem setWideWord_getLsbD (v : Wide) (i : Nat) (w : Word) (j : Nat) (hj : j < wideBits) :
    (setWideWord v i w).getLsbD j
      = if 32 * i ≤ j ∧ j < 32 * i + 32 then w.getLsbD (j - 32 * i) else v.getLsbD j := by
  unfold setWideWord
  simp only [BitVec.getLsbD_or, BitVec.getLsbD_and, BitVec.getLsbD_not, BitVec.getLsbD_shiftLeft,
    BitVec.getLsbD_setWidth, BitVec.getLsbD_allOnes]
  by_cases h1 : 32 * i ≤ j
  · have h2 : j - 32 * i < wideBits := by omega
    by_cases h3 : j < 32 * i + 32
    · have : j - 32 * i < 32 := by omega
      have h4 : ¬ j < 32 * i := by omega
      simp [hj, h1, h2, h3, this, h4]
    · have h4 : ¬ j - 32 * i < 32 := by omega
      have h5 : w.getLsbD (j - 32 * i) = false := BitVec.getLsbD_of_ge _ _ (by omega)
      simp [hj, h1, h3, h4, h5]
  · have h4 : j < 32 * i := by omega
    simp [hj, h1, h4]

/-- A word written is read back (R35). -/
theorem wideWord_setWideWord_same (v : Wide) (i : Nat) (w : Word) (hi : 32 * i + 32 ≤ wideBits) :
    wideWord (setWideWord v i w) i = w := by
  apply BitVec.eq_of_getLsbD_eq
  intro j hj
  have h : 32 * i + j < wideBits := by omega
  simp only [wideWord, BitVec.getLsbD_extractLsb', hj, decide_true, Bool.true_and]
  rw [setWideWord_getLsbD _ _ _ _ h, if_pos (by omega), Nat.add_sub_cancel_left]

/-- The other words stay (R35). -/
theorem wideWord_setWideWord_other (v : Wide) (i k : Nat) (w : Word) (hk : k ≠ i) :
    wideWord (setWideWord v i w) k = wideWord v k := by
  apply BitVec.eq_of_getLsbD_eq
  intro j hj
  simp only [wideWord, BitVec.getLsbD_extractLsb', hj, decide_true, Bool.true_and]
  by_cases h : 32 * k + j < wideBits
  · rw [setWideWord_getLsbD _ _ _ _ h, if_neg (by omega)]
  · rw [BitVec.getLsbD_of_ge _ _ (by omega), BitVec.getLsbD_of_ge _ _ (by omega)]

/-- A value fits `n` bits when every bit from `n` up is 0. -/
theorem toNat_lt_iff_bits (v : Wide) (n : Nat) :
    v.toNat < 2 ^ n ↔ ∀ j, n ≤ j → v.getLsbD j = false := by
  constructor
  · intro h j hj
    rw [← BitVec.testBit_toNat]
    exact Nat.testBit_lt_two_pow (lt_of_lt_of_le h (Nat.pow_le_pow_right (by norm_num) hj))
  · intro h
    refine Nat.lt_pow_two_of_testBit _ fun j hj => ?_
    rw [BitVec.testBit_toNat]
    exact h j hj

/-- Writing a word below `L` keeps the register within `n` bits (R35). -/
theorem setWideWord_fits (v : Wide) (i : Nat) (w : Word) (n : Nat) (hi : 32 * i + 32 ≤ n)
    (h : v.toNat < 2 ^ n) : (setWideWord v i w).toNat < 2 ^ n := by
  rw [toNat_lt_iff_bits] at h ⊢
  intro j hj
  by_cases hw : j < wideBits
  · rw [setWideWord_getLsbD _ _ _ _ hw, if_neg (by omega)]; exact h j hj
  · exact BitVec.getLsbD_of_ge _ _ (by omega)

/-- A number that fits the widest register is held as it is. -/
theorem wideOf_toNat (v : Nat) (h : v < 2 ^ wideBits) : (wideOf v).toNat = v := by
  rw [wideOf, BitVec.toNat_ofNat, Nat.mod_eq_of_lt h]

/-- A number below `2^n` is held below `2^n`. -/
theorem wideOf_fits (v n : Nat) (h : v < 2 ^ n) : (wideOf v).toNat < 2 ^ n := by
  rw [wideOf, BitVec.toNat_ofNat]
  exact lt_of_le_of_lt (Nat.mod_le _ _) h

/-! Register fields (R31, R32). -/

/-- The bits of a register word made of one field. -/
theorem fieldAt_getLsbD (lo : Nat) {n : Nat} (x : BitVec n) (i : Nat) :
    (fieldAt lo x).getLsbD i = (decide (i < 32) && !decide (i < lo) && x.getLsbD (i - lo)) := by
  rw [fieldAt, BitVec.getLsbD_shiftLeft, BitVec.getLsbD_setWidth]
  by_cases h : i < 32
  · have : i - lo < 32 := by omega
    simp [h, this]
  · simp [h]

/-- The low half of a word made of two halves. -/
theorem lowHalf_append (hi lo : BitVec 16) : (hi ++ lo : Word).extractLsb' 0 16 = lo := by
  have : (hi ++ lo : BitVec (16 + 16)).extractLsb' 0 16 = lo := by
    rw [BitVec.extractLsb'_append_eq_of_add_le (by omega)]
    simp
  exact this

/-- The high half of a word made of two halves. -/
theorem highHalf_append (hi lo : BitVec 16) : (hi ++ lo : Word).extractLsb' 16 16 = hi := by
  have : (hi ++ lo : BitVec (16 + 16)).extractLsb' 16 16 = hi := by
    rw [BitVec.extractLsb'_append_eq_of_le (by omega)]
    simp
  exact this

/-- PLEN of a BLKLEN word (R32). -/
theorem plenOf_blklenOf (p c : Nat) (hp : p < 2 ^ 16) : plenOf (blklenOf p c) = p := by
  rw [plenOf, blklenOf, lowHalf_append, BitVec.toNat_ofNat, Nat.mod_eq_of_lt hp]

/-- CLEN of a BLKLEN word (R32). -/
theorem clenOf_blklenOf (p c : Nat) (hc : c < 2 ^ 16) : clenOf (blklenOf p c) = c := by
  rw [clenOf, blklenOf, highHalf_append, BitVec.toNat_ofNat, Nat.mod_eq_of_lt hc]

/-- Writing back what KEYCFG holds changes nothing (R31). -/
theorem keycfgWritten_idem (v : Word) : keycfgWritten (keycfgWritten v) = keycfgWritten v := by
  rw [keycfgWritten, keycfgWritten, BitVec.and_assoc]
  congr 1

/-! Acceptance (R100). -/

/-- A CMD write while BUSY only sets OVERRUN (R100, R235). -/
theorem cmdWrite_busy (w : Word) (s : State) (h : s.busy = true) :
    cmdWrite w s = { s with overrun := true } := by
  rw [cmdWrite, if_pos h]

/-- A CMD write while Idle accepts the command (R100). -/
theorem cmdWrite_idle (w : Word) (s : State) (h : s.busy = false) : cmdWrite w s = accept w s := by
  rw [cmdWrite, if_neg (by simp [h])]

/-- BUSY is 0 exactly in Idle (R21). -/
theorem busy_eq_false_iff (s : State) : s.busy = false ↔ s.phase = .idle := by
  unfold State.busy
  cases s.phase <;> simp

/-! CTRL (R27, R43, R231). -/

/-- A write with SRST = 1 is a reset, whatever its other bits (R231). -/
theorem ctrlWrite_srst (v : Word) (s : State) (h : v.getLsbD 2 = true) :
    ctrlWrite v s = resetBlock s := by
  rw [ctrlWrite, if_pos h]

/-- A write with SRST = 0 writes IRQ_EN, and sets ABORT_PEND if ABORT = 1 while a stream command is
in progress (R27, R43). -/
theorem ctrlWrite_no_srst (v : Word) (s : State) (h : v.getLsbD 2 = false) :
    ctrlWrite v s
      = { s with
          irqEn := v.getLsbD 0
          abortPend := s.abortPend || (v.getLsbD 1 && s.streaming) } := by
  rw [ctrlWrite, if_neg (by rw [h]; decide)]
  have hst : State.streaming { s with irqEn := v.getLsbD 0 } = s.streaming := rfl
  cases h1 : v.getLsbD 1
  · simp
  · rw [if_pos rfl, requestAbort, hst]
    cases h2 : s.streaming <;> simp

/-! The register map (R23). -/

/-- Each register stands at its offset (R23). -/
theorem regAt_regOffset (r : Reg) (h : ∀ x i, r = .wide x i → i < 128) :
    regAt (regOffset r) = r := by
  cases r with
  | wide x i =>
    have hi := h x i rfl
    have ho : regOffset (.wide x i) = wideBase x + 4 * i := rfl
    revert ho
    generalize regOffset (.wide x i) = o
    intro ho
    unfold regAt
    cases x <;> simp only [wideBase] at ho <;>
      (repeat rw [if_neg (by omega)]) <;> rw [if_pos (by omega)] <;>
      exact congrArg _ (by omega)
  | _ => rfl

/-- The offset of a register is aligned and inside the window (R23). -/
theorem regOffset_lt (r : Reg) (h : ∀ x i, r = .wide x i → i < 128) :
    regOffset r < 2 ^ 14 ∧ regOffset r % 4 = 0 := by
  cases r with
  | wide x i =>
    have hi := h x i rfl
    cases x <;> simp only [regOffset, wideBase] <;> omega
  | _ => exact ⟨by decide, by decide⟩

/-! Bus accesses (R54). -/

/-- A decoded read answers the register and changes nothing else (R54, R56). -/
theorem busRead_decoded (off : Offset) (width : Nat) (s : State)
    (h : accessDecoded off width = true) :
    busRead off width s = { s with reply := .data (regRead s (regAt off.toNat)) } := by
  rw [busRead, if_pos h]

/-- A decoded write is the register's write (R54). -/
theorem busWrite_decoded (off : Offset) (width : Nat) (v : Word) (s : State)
    (h : accessDecoded off width = true) :
    busWrite off width v s = { regWrite (regAt off.toNat) v s with reply := .done } := by
  rw [busWrite, if_pos h]

/-- An access that is not decoded answers an error and changes nothing (R54). -/
theorem busAccess_undecoded (off : Offset) (width : Nat) (v : Word) (s : State)
    (h : accessDecoded off width = false) :
    busRead off width s = { s with reply := .error } ∧
    busWrite off width v s = { s with reply := .error } := by
  rw [busRead, busWrite, if_neg (by simp [h]), if_neg (by simp [h])]
  exact ⟨rfl, rfl⟩

/-- `WR X.wI, v` on a word of a wide register (R81). -/
theorem hostStep_wrWide (s : State) (x : WideReg) (i : Nat) (v : Word) (hi : i < 128) :
    hostStep (wr (.wide x i) v) s = some { wideWrite x i v s with reply := .done } := by
  have h : ∀ y j, Reg.wide x i = .wide y j → j < 128 := by intro y j h; cases h; exact hi
  have hlt := regOffset_lt _ h
  have hn : (BitVec.ofNat 14 (regOffset (.wide x i))).toNat = regOffset (.wide x i) := by
    rw [BitVec.toNat_ofNat, Nat.mod_eq_of_lt hlt.1]
  have hd : accessDecoded (BitVec.ofNat 14 (regOffset (.wide x i))) 32 = true := by
    rw [accessDecoded, hn]; simp [hlt.2]
  simp only [hostStep, wr]
  rw [busWrite_decoded _ _ _ _ hd, hn, regAt_regOffset _ h]
  rfl

/-- `RD X.wI` on a word of a wide register (R81). -/
theorem hostStep_rdWide (s : State) (x : WideReg) (i : Nat) (hi : i < 128) :
    hostStep (rd (.wide x i)) s = some { s with reply := .data (regRead s (.wide x i)) } := by
  have h : ∀ y j, Reg.wide x i = .wide y j → j < 128 := by intro y j h; cases h; exact hi
  have hlt := regOffset_lt _ h
  have hn : (BitVec.ofNat 14 (regOffset (.wide x i))).toNat = regOffset (.wide x i) := by
    rw [BitVec.toNat_ofNat, Nat.mod_eq_of_lt hlt.1]
  have hd : accessDecoded (BitVec.ofNat 14 (regOffset (.wide x i))) 32 = true := by
    rw [accessDecoded, hn]; simp [hlt.2]
  simp only [hostStep, rd]
  rw [busRead_decoded _ _ _ hd, hn, regAt_regOffset _ h]

/-- A branch of the register map that is not the register asked for. -/
theorem regAt_other {c : Prop} [Decidable c] {a b x : Reg} (ha : a ≠ x)
    (h : (if c then a else b) = x) : b = x := by
  split at h
  · exact absurd h ha
  · exact h

/-- CTRL stands at one offset (R23). -/
theorem regAt_ctrl (o : Nat) (h : regAt o = .ctrl) : o = 0x0010 := by
  by_contra ho
  unfold regAt at h
  iterate 3 replace h := regAt_other (by decide) h
  rw [if_neg ho] at h
  iterate 8 replace h := regAt_other (by decide) h
  iterate 9 replace h := regAt_other (by simp) h
  cases h

/-- STATUS stands at one offset (R23). -/
theorem regAt_status (o : Nat) (h : regAt o = .status) : o = 0x0014 := by
  by_contra ho
  unfold regAt at h
  iterate 4 replace h := regAt_other (by decide) h
  rw [if_neg ho] at h
  iterate 7 replace h := regAt_other (by decide) h
  iterate 9 replace h := regAt_other (by simp) h
  cases h

/-- CMD stands at one offset (R23). -/
theorem regAt_cmd (o : Nat) (h : regAt o = .cmd) : o = 0x0018 := by
  by_contra ho
  unfold regAt at h
  iterate 5 replace h := regAt_other (by decide) h
  rw [if_neg ho] at h
  iterate 6 replace h := regAt_other (by decide) h
  iterate 9 replace h := regAt_other (by simp) h
  cases h

/-- Everything a host action can do (R14, R54, R65, R230). -/
theorem hostStep_cases (a : HostAction) (s t : State) (h : hostStep a s = some t) :
    (∃ off width, a = .read off width ∧ ∃ r, t = { s with reply := r }) ∨
    (∃ off width v, a = .write off width v ∧ accessDecoded off width = true ∧
      t = { regWrite (regAt off.toNat) v s with reply := .done }) ∨
    (∃ off width v, a = .write off width v ∧ accessDecoded off width = false ∧
      t = { s with reply := .error }) ∨
    (∃ k, a = .push k ∧ s.inq.length < s.cfg.inDepth ∧
      t = { s with inq := s.inq ++ [decodeToken k], reply := .done }) ∨
    (∃ b rest, a = .pop ∧ s.outq = b :: rest ∧ t = { s with outq := rest, reply := .byte b }) ∨
    (a = .rst ∧ t = resetBlock s) := by
  cases a with
  | read off width =>
    left
    refine ⟨off, width, rfl, ?_⟩
    simp only [hostStep, Option.some.injEq] at h
    rw [← h, busRead]
    split
    · exact ⟨_, rfl⟩
    · exact ⟨_, rfl⟩
  | write off width v =>
    simp only [hostStep, Option.some.injEq] at h
    cases hd : accessDecoded off width
    · exact .inr (.inr (.inl ⟨off, width, v, rfl, hd,
        by rw [← h, (busAccess_undecoded off width v s hd).2]⟩))
    · exact .inr (.inl ⟨off, width, v, rfl, hd, by rw [← h, busWrite_decoded off width v s hd]⟩)
  | push k =>
    simp only [hostStep, portPush] at h
    split at h
    · next hlt => exact .inr (.inr (.inr (.inl ⟨k, rfl, hlt, by simpa using h.symm⟩)))
    · cases h
  | pop =>
    simp only [hostStep, portPop] at h
    split at h
    · cases h
    · next b rest heq =>
      exact .inr (.inr (.inr (.inr (.inl ⟨b, rest, rfl, heq, by simpa using h.symm⟩))))
  | rst =>
    simp only [hostStep, Option.some.injEq] at h
    exact .inr (.inr (.inr (.inr (.inr ⟨rfl, h.symm⟩))))

end Sys2Proof.Laws
end

