-- ==== Sys2Proof/Laws/Exec.lean ====
section
/-! SUPPORT. What the engine's steps and the moves of the block can do, once for all proofs. -/

namespace Sys2Proof.Laws

open Sys2Proof.Machine

/-- The execute step of the command in progress completes with its report (R102). -/
theorem runScalar_busy (i : Instr) (body : Snapshot → Report) (s : State) (snap : Snapshot)
    (h : s.phase = .busy (.instr i) snap) :
    runScalar i body s = .next (complete (body snap) s) := by
  simp [runScalar, h]

/-- The check step of the stream command in progress (R176). -/
theorem runStream_busy (dir : Dir) (s : State) (snap : Snapshot)
    (h : s.phase = .busy (.instr (dirInstr dir)) snap) :
    runStream dir s = .next (streamCheck dir snap s) := by
  simp [runStream, h]

/-- A step of the frame loop in progress (R178 to R182). -/
theorem runStream_stream (dir : Dir) (s : State) (h : s.phase = .stream dir) :
    runStream dir s = .next (streamStep dir s) := by
  simp [runStream, h]

/-- The report a command that is no stream command completes with (R102). -/
def scalarReport (p : Params) (i : Instr) (snap : Snapshot) : Option Report :=
  match i with
  | .nop => some (nopReport snap)
  | .gcd => some (gcdReport snap)
  | .xgcd => some (xgcdReport p snap)
  | .modinv => some (modinvReport snap)
  | .modpow => some (modpowReport snap)
  | .pow => some (powReport p snap)
  | .config => some (configReport snap)
  | .encblk => some (encblkReport snap)
  | .decblk => some (decblkReport snap)
  | .encstream => none
  | .decstream => none

/-- Everything a meaning does for the command in progress: a scalar command completes with its
report, a stream command takes its check step (R102, R176). -/
theorem exec_busy (i : Instr) (s : State) (snap : Snapshot) (h : s.phase = .busy (.instr i) snap) :
    (∃ r, scalarReport s.cfg i snap = some r ∧ exec i s = .next (complete r s)) ∨
    (∃ dir, i = dirInstr dir ∧ exec i s = .next (streamCheck dir snap s)) := by
  cases i
  case encstream => exact .inr ⟨.enc, rfl, runStream_busy .enc s snap h⟩
  case decstream => exact .inr ⟨.dec, rfl, runStream_busy .dec s snap h⟩
  all_goals exact .inl ⟨_, rfl, runScalar_busy _ _ s snap h⟩

/-- A step of the frame loop, through the meaning of its stream command (R175). -/
theorem exec_stream (dir : Dir) (s : State) (h : s.phase = .stream dir) :
    exec (dirInstr dir) s = .next (streamStep dir s) := by
  cases dir
  · exact runStream_stream .enc s h
  · exact runStream_stream .dec s h

/-- A meaning asked for a command that is not in progress stops (log 6). -/
theorem exec_other (i : Instr) (s : State) (h1 : ∀ snap, s.phase ≠ .busy (.instr i) snap)
    (h2 : ∀ dir, i = dirInstr dir → s.phase ≠ .stream dir) :
    exec i s = .fault .notInProgress := by
  have hscalar : ∀ body, runScalar i body s = .fault .notInProgress := by
    intro body
    unfold runScalar
    split
    · next j snap hp => rw [if_neg]; rintro rfl; exact h1 snap hp
    all_goals rfl
  have hstream : ∀ dir, i = dirInstr dir → runStream dir s = .fault .notInProgress := by
    intro dir hd
    unfold runStream
    split
    · next j snap hp => rw [if_neg]; rintro rfl; exact h1 snap (by rw [hd]; exact hp)
    · next d hp => rw [if_neg]; rintro rfl; exact h2 d hd hp
    all_goals rfl
  cases i
  case encstream => exact hstream .enc rfl
  case decstream => exact hstream .dec rfl
  all_goals exact hscalar _

/-- Everything a meaning that answers a next state has done. -/
theorem exec_cases (i : Instr) (s t : State) (h : exec i s = .next t) :
    (∃ snap r, s.phase = .busy (.instr i) snap ∧ scalarReport s.cfg i snap = some r ∧
      t = complete r s) ∨
    (∃ dir snap, i = dirInstr dir ∧ s.phase = .busy (.instr i) snap ∧ t = streamCheck dir snap s) ∨
    (∃ dir, i = dirInstr dir ∧ s.phase = .stream dir ∧ t = streamStep dir s) := by
  by_cases h1 : ∃ snap, s.phase = .busy (.instr i) snap
  · obtain ⟨snap, hp⟩ := h1
    rcases exec_busy i s snap hp with ⟨r, hr, hx⟩ | ⟨dir, hd, hx⟩ <;> rw [hx] at h <;>
      injection h with h
    · exact .inl ⟨snap, r, hp, hr, h.symm⟩
    · exact .inr (.inl ⟨dir, snap, hd, hp, h.symm⟩)
  · by_cases h2 : ∃ dir, i = dirInstr dir ∧ s.phase = .stream dir
    · obtain ⟨dir, rfl, hp⟩ := h2
      rw [exec_stream dir s hp] at h
      injection h with h
      exact .inr (.inr ⟨dir, rfl, hp, h.symm⟩)
    · rw [exec_other i s (fun snap hp => h1 ⟨snap, hp⟩) (fun dir hd hp => h2 ⟨dir, hd, hp⟩)] at h
      cases h

/-- Everything an engine step does (R102, R105, R176 to R182): it always answers a next state. -/
theorem engineStep_cases (s : State) :
    (s.phase = .idle ∧ engineStep s = .next s) ∨
    (∃ i snap r, s.phase = .busy (.instr i) snap ∧ scalarReport s.cfg i snap = some r ∧
      engineStep s = .next (complete r s)) ∨
    (∃ dir snap, s.phase = .busy (.instr (dirInstr dir)) snap ∧
      engineStep s = .next (streamCheck dir snap s)) ∨
    (∃ w snap, s.phase = .busy (.illegal w) snap ∧
      engineStep s = .next (complete (illegalReport w) s)) ∨
    (∃ dir, s.phase = .stream dir ∧ engineStep s = .next (streamStep dir s)) := by
  cases h : s.phase with
  | idle => exact .inl ⟨rfl, by simp [engineStep, h]⟩
  | busy op snap =>
    cases op with
    | instr i =>
      have he : engineStep s = exec i s := by simp [engineStep, h]
      rcases exec_busy i s snap h with ⟨r, hr, hx⟩ | ⟨dir, hd, hx⟩
      · exact .inr (.inl ⟨i, snap, r, rfl, hr, he.trans hx⟩)
      · exact .inr (.inr (.inl ⟨dir, snap, by rw [hd], he.trans hx⟩))
    | illegal w => exact .inr (.inr (.inr (.inl ⟨w, snap, rfl, by simp [engineStep, h]⟩)))
  | stream dir =>
    have he : engineStep s = exec (dirInstr dir) s := by simp [engineStep, h]
    exact .inr (.inr (.inr (.inr ⟨dir, rfl, he.trans (exec_stream dir s h)⟩)))

/-- With nothing left on the agenda the engine moves (R14). -/
theorem step_engine_alone (s : State) (h : s.agenda = []) : step s = engineStep s := by
  simp [step, advance, h]

/-- A turn of the engine on the agenda (R14). -/
theorem step_engine_turn (s : State) (rest : List Move) (h : s.agenda = .engine :: rest) :
    step s = engineStep { s with agenda := rest } := by
  simp [step, advance, h]

/-- A host action that is enabled (R14). -/
theorem step_host (s : State) (a : HostAction) (rest : List Move) (t : State)
    (h : s.agenda = .host a :: rest) (ht : hostStep a { s with agenda := rest } = some t) :
    step s = .next t := by
  simp [step, advance, h, ht]

/-- A host action that waits (R15, R65). -/
theorem step_host_waits (s : State) (a : HostAction) (rest : List Move)
    (h : s.agenda = .host a :: rest) (ht : hostStep a { s with agenda := rest } = none) :
    step s = engineStep s := by
  simp [step, advance, h, ht]

/-- A turn of WAIT ends it when BUSY = 0 and goes back to the read when BUSY = 1; it changes the
moves to come and the reply only (R83, R56). -/
theorem waitTurn_eq (gaps : List Nat) (rest : List Move) (s : State) :
    waitTurn gaps rest s
      = { s with
          agenda := if s.busy then waitAgain gaps rest else rest
          reply := .data s.statusWord } := by
  have hb : s.statusWord.getLsbD 0 = s.busy := by
    simp only [State.statusWord, BitVec.getLsbD_or, fieldAt_getLsbD]
    simp
  rw [waitTurn, busRead_decoded _ _ _ (by decide)]
  have hr : regRead s (regAt (0x0014#14 : Offset).toNat) = s.statusWord := rfl
  simp only [hr, replyBit0, hb]

/-- WAIT's turn (R83). -/
theorem step_wait (s : State) (gaps : List Nat) (rest : List Move)
    (h : s.agenda = .wait gaps :: rest) : step s = .next (waitTurn gaps rest s) := by
  simp [step, advance, h]

/-- Everything one step of the block does: an enabled host action, a turn of WAIT, or an engine step
with the agenda as it was or less its head (R14, R59, R83). -/
theorem step_cases (s : State) :
    (∃ a rest t, s.agenda = .host a :: rest ∧ hostStep a { s with agenda := rest } = some t ∧
      step s = .next t) ∨
    (∃ gaps rest, s.agenda = .wait gaps :: rest ∧ step s = .next (waitTurn gaps rest s)) ∨
    (∃ rest, step s = engineStep { s with agenda := rest } ∧
      (rest = s.agenda ∨ s.agenda = .engine :: rest)) := by
  cases h : s.agenda with
  | nil =>
    exact .inr (.inr ⟨[], by rw [step_engine_alone s h]; congr 1; rw [← h], .inl rfl⟩)
  | cons m rest =>
    cases m with
    | engine => exact .inr (.inr ⟨rest, step_engine_turn s rest h, .inr rfl⟩)
    | wait gaps => exact .inr (.inl ⟨gaps, rest, rfl, step_wait s gaps rest h⟩)
    | host a =>
      cases ht : hostStep a { s with agenda := rest } with
      | some t => exact .inl ⟨a, rest, t, rfl, ht, step_host s a rest t h ht⟩
      | none =>
        refine .inr (.inr ⟨.host a :: rest, ?_, .inl rfl⟩)
        rw [step_host_waits s a rest h ht, ← h]

/-- A run takes its first step and goes on. -/
theorem core_run_succ (M : Host.Core) (k : Nat) (s t : M.State) (h : M.step s = .next t) :
    Host.Core.run M (k + 1) s = Host.Core.run M k t := by
  conv_lhs => unfold Host.Core.run
  simp only [h]

/-- A run of the block takes its first step and goes on. -/
theorem run_succ (k : Nat) (s t : State) (h : step s = .next t) :
    Host.Core.run Sys2Proof.core (k + 1) s = Host.Core.run Sys2Proof.core k t :=
  core_run_succ Sys2Proof.core k s t h

/-! The frame loop (R177 to R182, R210). -/

/-- Everything a step of the frame loop does. -/
theorem streamStep_cases (dir : Dir) (s : State) :
    (s.abortPend = true ∧ streamStep dir s = abortStep s) ∨
    (s.abortPend = false ∧ frameCount dir s = frameIn dir s ∧ frameFits dir s = true ∧
      streamStep dir s = fullFrame dir s) ∨
    (s.abortPend = false ∧ frameTerm dir s = some .eos ∧ frameCount dir s = 0 ∧
      streamStep dir s = endStep s) ∨
    (s.abortPend = false ∧ frameTerm dir s = some .eos ∧ frameCount dir s ≠ 0 ∧
      frameFits dir s = true ∧ streamStep dir s = shortFrame dir s) ∨
    (s.abortPend = false ∧ frameTerm dir s = some .error ∧
      streamStep dir s = ioErrorStep dir s) ∨
    (s.abortPend = false ∧ streamStep dir s = s) := by
  unfold streamStep
  by_cases h0 : s.abortPend = true
  · simp [h0]
  · rw [Bool.not_eq_true] at h0
    by_cases h1 : frameCount dir s = frameIn dir s
    · by_cases h2 : frameFits dir s = true <;> simp [h0, h1, h2]
    · simp only [h0, h1]
      rcases frameTerm dir s with _ | t
      · simp
      · cases t with
        | byte b => simp
        | error => simp
        | eos =>
          by_cases h3 : frameCount dir s = 0
          · simp [h3]
          · by_cases h4 : frameFits dir s = true <;> simp [h3, h4]

/-- Everything the check step of a stream command does (R176). -/
theorem streamCheck_cases (dir : Dir) (snap : Snapshot) (s : State) :
    (s.abortPend = true ∧ streamCheck dir snap s = abortStep s) ∨
    (s.abortPend = false ∧ snap.keyconf = false ∧
      streamCheck dir snap s = complete (raise .notConfigured (encodeInstr (dirInstr dir))) s) ∨
    (s.abortPend = false ∧ snap.keyconf = true ∧ capable dir snap = false ∧
      streamCheck dir snap s = complete (raise .capability (encodeInstr (dirInstr dir))) s) ∨
    (s.abortPend = false ∧ snap.keyconf = true ∧ capable dir snap = true ∧
      streamCheck dir snap s = { s with phase := .stream dir }) := by
  unfold streamCheck
  by_cases h0 : s.abortPend = true <;> by_cases h1 : snap.keyconf = true <;>
    by_cases h2 : capable dir snap = true <;> simp [h0, h1, h2]

/-- An output frame has the fixed width of its direction (R170, R171). -/
@[simp] theorem frameFn_length (dir : Dir) (s : State) (bs : List Byte) :
    (frameFn dir s bs).length = frameOut dir s := by
  cases dir <;> simp [frameFn, frameOut, encFrame, decFrame]

end Sys2Proof.Laws
end

