-- ==== Sys2Proof/Laws/Invariant.lean ====
section
/-! SUPPORT. Each shared operation keeps the state consistent. -/

namespace Sys2Proof.Laws

open Sys2Proof.Machine

/-- The ranges of R6 as arithmetic facts. -/
theorem legal_opw {p : Params} (h : p.legal = true) :
    p.opw % 32 = 0 ∧ 64 ≤ p.opw ∧ p.opw ≤ 4096 := by
  simp only [Params.legal, Bool.and_eq_true, decide_eq_true_eq] at h
  omega

/-- `KeyOk` reads the key state only. -/
theorem keyOk_congr {s t : State} (h : KeyOk s) (h1 : t.keycfg = s.keycfg)
    (h2 : t.keyconf = s.keyconf) (h3 : t.canEnc = s.canEnc) (h4 : t.canDec = s.canDec)
    (h5 : t.blklen = s.blklen) (h6 : t.keyN = s.keyN) (h7 : t.keyE = s.keyE)
    (h8 : t.keyD = s.keyD) : KeyOk t := by
  constructor
  · rw [h1]; exact h.reserved
  · rw [h2, h3, h4, h5]; exact h.unconfigured
  · rw [h1, h2, h3]; exact h.canEnc
  · rw [h1, h2, h4]; exact h.canDec
  · rw [h2, h3, h4]; exact h.some_exponent
  · rw [h2, h3, h7]; exact h.no_e
  · rw [h2, h4, h8]; exact h.no_d
  · rw [h1, h2, h5, h6]; exact h.blklen
  · rw [h1, h2, h6]; exact h.plen_pos

/-- The fields no part of `Inv` reads may change freely, and the queues within their capacity. -/
theorem inv_update {s : State} (h : Inv s) (irqEn overrun : Bool) (frames : Word)
    (inq : List Token) (outq : List Byte) (agenda : List Move) (reply : Reply)
    (hin : inq.length ≤ s.cfg.inDepth) (hout : outq.length ≤ s.cfg.outDepth) :
    Inv { s with
      irqEn := irqEn, overrun := overrun, frames := frames, inq := inq, outq := outq,
      agenda := agenda, reply := reply } where
  legal := h.legal
  registers :=
    have r := h.registers
    ⟨r.opa, r.opb, r.opc, r.r0, r.r1, r.r2, r.keyN, r.keyE, r.keyD, r.snap⟩
  report :=
    have r := h.report
    ⟨r.err_iff, r.info, r.noinv, r.short, r.busy⟩
  key := keyOk_congr h.key rfl rfl rfl rfl rfl rfl rfl rfl
  phase :=
    ⟨h.phase.idle, fun op snap hp =>
      have ⟨a, b, c, d⟩ := h.phase.busy op snap hp
      ⟨a, b, ⟨c.keyconf, c.canEnc, c.canDec, c.blklen, c.reserved, c.key⟩, d⟩, h.phase.stream⟩
  queues := ⟨hin, hout⟩

/-- A reset state is consistent (R44), whatever is still to come. -/
theorem inv_resetOf (p : Params) (h : p.legal = true) : Inv (State.resetOf p) := by
  refine ⟨h, ?_, ?_, ?_, ?_, ?_⟩
  · constructor <;> simp [State.resetOf, FitsOpw]
  · constructor <;> simp [State.resetOf, State.busy]
  · constructor <;> simp [State.resetOf, keycfgWritten]
  · constructor <;> simp [State.resetOf]
  · constructor <;> simp [State.resetOf]

/-! Completion. -/

/-- What a report must meet for its completion to keep the state consistent. -/
structure GoodReport (s : State) (r : Report) : Prop where
  r0 : ∀ v, r.writes.r0 = some v → FitsOpw s.cfg v
  r1 : ∀ v, r.writes.r1 = some v → FitsOpw s.cfg v
  r2 : ∀ v, r.writes.r2 = some v → FitsOpw s.cfg v
  noinv : r.noinv = true → r.code = .none ∧ r.short = false
  short : r.short = true → r.code = .none
  key : ∀ k, r.code = .none → r.writes.key = some k →
    FitsOpw s.cfg k.n ∧ FitsOpw s.cfg k.ke ∧ FitsOpw s.cfg k.kd ∧ KeyOk (loadKey k s)

/-- An error report is good (R202). -/
theorem goodReport_raise (s : State) (c : ErrCode) (i : Word) (hc : c ≠ .none) :
    GoodReport s (raise c i) := by
  constructor <;> simp [raise, hc]

/-- A report that writes R0 is good when the value fits. -/
theorem goodReport_r0 (s : State) (v : Nat) (h : v < 2 ^ s.cfg.opw) :
    GoodReport s (reportR0 v) := by
  constructor <;> simp [reportR0]
  exact wideOf_fits _ _ h

theorem registersFit_complete {r : Report} {s : State} (hf : RegistersFit s)
    (hr : GoodReport s r) : RegistersFit (complete r s) := by
  have g0 : ∀ (o : Option Wide) (v : Wide), (∀ u, o = some u → FitsOpw s.cfg u) →
      FitsOpw s.cfg v → FitsOpw s.cfg (o.getD v) := by
    intro o v ho hv
    cases o with
    | none => exact hv
    | some u => exact ho u rfl
  constructor
  · simpa using hf.opa
  · simpa using hf.opb
  · simpa using hf.opc
  · simp only [complete_cfg, complete_r0, applyWrites_r0]
    split
    · exact g0 _ _ hr.r0 hf.r0
    · exact hf.r0
  · simp only [complete_cfg, complete_r1, applyWrites_r1]
    split
    · exact g0 _ _ hr.r1 hf.r1
    · exact hf.r1
  · simp only [complete_cfg, complete_r2, applyWrites_r2]
    split
    · exact g0 _ _ hr.r2 hf.r2
    · exact hf.r2
  · simp only [complete_cfg, complete_keyN, applyWrites_keyN]
    split
    · next hc =>
      cases hk : r.writes.key with
      | none => exact hf.keyN
      | some k => exact (hr.key k hc hk).1
    · exact hf.keyN
  · simp only [complete_cfg, complete_keyE, applyWrites_keyE]
    split
    · next hc =>
      cases hk : r.writes.key with
      | none => exact hf.keyE
      | some k => exact (hr.key k hc hk).2.1
    · exact hf.keyE
  · simp only [complete_cfg, complete_keyD, applyWrites_keyD]
    split
    · next hc =>
      cases hk : r.writes.key with
      | none => exact hf.keyD
      | some k => exact (hr.key k hc hk).2.2.1
    · exact hf.keyD
  · intro op snap hp; simp at hp

/-- Completion keeps the state consistent (R103). -/
theorem complete_inv (r : Report) (s : State) (h : Inv s) (hr : GoodReport s r) :
    Inv (complete r s) where
  legal := by simpa using h.legal
  registers := registersFit_complete h.registers hr
  report := by
    constructor
    · simp
    · simp only [complete_err, complete_errinfo]
      intro h; split
      · rfl
      · simp_all
    · intro h
      have := hr.noinv (by simpa using h)
      simp [this]
    · intro h
      have := hr.short (by simpa using h)
      simp [this]
    · simp [State.busy]
  key := by
    by_cases hcode : r.code = .none
    · cases hkey : r.writes.key with
      | none => apply keyOk_congr h.key <;> simp [hcode, hkey]
      | some k => apply keyOk_congr (hr.key k hcode hkey).2.2.2 <;> simp [hcode, hkey]
    · apply keyOk_congr h.key <;> simp [hcode]
  phase := by constructor <;> simp
  queues := ⟨by simpa using h.queues.inq, by simpa using h.queues.outq⟩

/-! The reports of the commands. -/

/-- The report of GCD is good (R121, R125). -/
theorem gcdReport_good (s : State) (snap : Snapshot) (hs : SnapshotFits s.cfg snap) :
    GoodReport s (gcdReport snap) := by
  apply goodReport_r0
  rw [euclid_eq]
  by_cases ha : snap.a.toNat = 0
  · rw [ha, Nat.gcd_zero_left]; exact hs.b
  · exact lt_of_le_of_lt (Nat.gcd_le_left _ (by omega)) hs.a

/-- A two's-complement encoding fits its width (R8). -/
theorem twosComplement_lt (n : Nat) (z : Int) : twosComplement n z < 2 ^ n := by
  unfold twosComplement
  have h1 : (0 : Int) < 2 ^ n := by positivity
  have h2 := Int.emod_nonneg z (ne_of_gt h1)
  have h3 := Int.emod_lt_of_pos z h1
  have : ((z % 2 ^ n).toNat : Int) < ((2 ^ n : Nat) : Int) := by
    rw [Int.toNat_of_nonneg h2]; push_cast; exact h3
  exact_mod_cast this

/-- The report of XGCD is good (R122, R125). -/
theorem xgcdReport_good (s : State) (snap : Snapshot) (hs : SnapshotFits s.cfg snap) :
    GoodReport s (xgcdReport s.cfg snap) := by
  unfold xgcdReport
  simp only
  split
  · constructor <;> simp
    · apply wideOf_fits
      rw [xgcd_g]
      by_cases ha : snap.a.toNat = 0
      · rw [ha, Nat.gcd_zero_left]; exact hs.b
      · exact lt_of_le_of_lt (Nat.gcd_le_left _ (by omega)) hs.a
    · exact wideOf_fits _ _ (twosComplement_lt _ _)
    · exact wideOf_fits _ _ (twosComplement_lt _ _)
  · exact goodReport_raise _ _ _ (by simp)

/-- The report of MODINV is good (R123, R125). -/
theorem modinvReport_good (s : State) (snap : Snapshot) (hs : SnapshotFits s.cfg snap) :
    GoodReport s (modinvReport snap) := by
  have hno : GoodReport s noInverse := by
    constructor <;> simp [noInverse]
    exact wideOf_fits _ _ (by positivity)
  unfold modinvReport
  split
  · exact hno
  · simp only
    split
    · exact hno
    · apply goodReport_r0
      refine lt_trans ?_ hs.b
      have h1 : (0 : Int) < snap.b.toNat := by omega
      have h2 := Int.emod_nonneg (xgcd snap.a.toNat snap.b.toNat).x (ne_of_gt h1)
      have h3 := Int.emod_lt_of_pos (xgcd snap.a.toNat snap.b.toNat).x h1
      omega

/-- A modular power fits wherever its modulus does (R141). -/
theorem modpow_fits (n a e m : Nat) (hn : n ≠ 0) (hm : m ≠ 0) (hlt : m < 2 ^ n) :
    modpow a e m < 2 ^ n := by
  by_cases he : e = 0
  · subst he; simpa [modpow_zero] using Nat.one_lt_two_pow hn
  · exact lt_trans (modpow_lt _ _ _ he hm) hlt

/-- The report of POW is good (R143). -/
theorem powReport_good (s : State) (snap : Snapshot) : GoodReport s (powReport s.cfg snap) := by
  unfold powReport
  rw [powWithin_eq]
  split
  · next v hv =>
    split at hv
    · next hlt => simp at hv; subst hv; exact goodReport_r0 _ _ hlt
    · simp at hv
  · exact goodReport_raise _ _ _ (by simp)

/-- The report of CONFIG is good (R161). -/
theorem configReport_good (s : State) (snap : Snapshot) (hs : SnapshotFits s.cfg snap)
    (hk : keycfgWritten snap.keycfg = snap.keycfg) : GoodReport s (configReport snap) := by
  unfold configReport
  split
  · exact goodReport_raise _ _ _ (by simp)
  split
  · exact goodReport_raise _ _ _ (by simp)
  split
  · exact goodReport_raise _ _ _ (by simp)
  split
  · exact goodReport_raise _ _ _ (by simp)
  next _ _ h3 h4 =>
  constructor
  · simp
  · simp
  · simp
  · simp
  · simp
  · intro k _ hkey
    simp at hkey
    subst hkey
    refine ⟨hs.n, ?_, ?_, ?_⟩
    · simp only [keyOfSnapshot]
      split
      · exact hs.ke
      · simp [FitsOpw]
    · simp only [keyOfSnapshot]
      split
      · exact hs.kd
      · simp [FitsOpw]
    · constructor
      · exact hk
      · simp
      · simp [keyOfSnapshot]
      · simp [keyOfSnapshot]
      · simp [keyOfSnapshot] at h3 ⊢
        cases h : keycfgEP snap.keycfg <;> simp_all
      · simp [keyOfSnapshot]; intro h; simp [h]
      · simp [keyOfSnapshot]; intro h; simp [h]
      · intro _; rfl
      · intro _
        show 1 ≤ configPlen snap.n.toNat snap.keycfg
        omega

/-- In a consistent state, the modulus of a Constructed key is not 0 (R161). -/
theorem keyN_ne_zero {s : State} (h : KeyOk s) (hk : s.keyconf = true) : s.keyN.toNat ≠ 0 := by
  intro h0
  have := h.plen_pos hk
  rw [h0] at this
  simp [configPlen, capped, plen0, log256Floor, byteLen, byteLenLoop] at this

/-- In a consistent state every scalar command in progress completes with a good report. -/
theorem scalarReport_good (i : Instr) (s : State) (snap : Snapshot) (r : Report) (h : Inv s)
    (hp : s.phase = .busy (.instr i) snap) (hr : scalarReport s.cfg i snap = some r) :
    GoodReport s r := by
  have hl := legal_opw h.legal
  have hs := h.registers.snap _ _ hp
  obtain ⟨_, _, hso, _⟩ := h.phase.busy _ _ hp
  have hn : snap.keyconf = true → snap.n.toNat ≠ 0 := by
    intro hk
    rw [hso.keyconf] at hk
    rw [(hso.key hk).2.1]
    exact keyN_ne_zero h.key hk
  cases i <;> simp only [scalarReport, Option.some.injEq, reduceCtorEq] at hr <;> subst hr
  · constructor <;> simp [nopReport]
  · exact gcdReport_good s snap hs
  · exact xgcdReport_good s snap hs
  · exact modinvReport_good s snap hs
  · unfold modpowReport
    split
    · exact goodReport_raise _ _ _ (by simp)
    · exact goodReport_r0 _ _ (modpow_fits _ _ _ _ (by omega) (by assumption) hs.c)
  · exact powReport_good s snap
  · exact configReport_good s snap hs hso.reserved
  · unfold encblkReport
    split
    · exact goodReport_raise _ _ _ (by simp)
    split
    · exact goodReport_raise _ _ _ (by simp)
    · exact goodReport_r0 _ _ (modpow_fits _ _ _ _ (by omega) (hn (by simp_all)) hs.n)
  · unfold decblkReport
    split
    · exact goodReport_raise _ _ _ (by simp)
    split
    · exact goodReport_raise _ _ _ (by simp)
    · exact goodReport_r0 _ _ (modpow_fits _ _ _ _ (by omega) (hn (by simp_all)) hs.n)

/-! The stream commands. -/

/-- The abort step keeps the state consistent (R210). -/
theorem abortStep_inv (s : State) (h : Inv s) : Inv (abortStep s) :=
  complete_inv _ _
    (inv_update h s.irqEn s.overrun s.frames [] s.outq s.agenda s.reply (by simp) h.queues.outq)
    (goodReport_raise _ _ _ (by simp))

/-- An output frame that fits keeps the state consistent (R178). -/
theorem emitFrame_inv (dir : Dir) (n : Nat) (s : State) (h : Inv s)
    (hf : frameFits dir s = true) : Inv (emitFrame dir n s) := by
  refine inv_update h s.irqEn s.overrun (s.frames + 1) (s.inq.drop n)
    (s.outq ++ frameFn dir s (frameChunk dir s)) s.agenda s.reply ?_ ?_
  · have := h.queues.inq
    rw [List.length_drop]; omega
  · simp only [frameFits, decide_eq_true_eq] at hf
    rwa [List.length_append, frameFn_length]

/-- A step of the frame loop keeps the state consistent (R178 to R182). -/
theorem streamStep_inv (dir : Dir) (s : State) (h : Inv s) : Inv (streamStep dir s) := by
  have hd : ∀ n, Inv { s with inq := s.inq.drop n } := fun n =>
    inv_update h s.irqEn s.overrun s.frames (s.inq.drop n) s.outq s.agenda s.reply
      (by have := h.queues.inq; rw [List.length_drop]; omega) h.queues.outq
  rcases streamStep_cases dir s with
    ⟨_, e⟩ | ⟨_, _, hf, e⟩ | ⟨_, _, _, e⟩ | ⟨_, _, _, hf, e⟩ | ⟨_, _, e⟩ | ⟨_, e⟩ <;> rw [e]
  · exact abortStep_inv s h
  · exact emitFrame_inv _ _ _ h hf
  · exact complete_inv _ _ (hd _) (by constructor <;> simp)
  · exact complete_inv _ _ (emitFrame_inv _ _ _ h hf) (by constructor <;> simp)
  · exact complete_inv _ _ (hd _) (goodReport_raise _ _ _ (by simp))
  · exact h

/-- The check step of a stream command keeps the state consistent (R176). -/
theorem streamCheck_inv (dir : Dir) (snap : Snapshot) (s : State) (h : Inv s)
    (hp : s.phase = .busy (.instr (dirInstr dir)) snap) : Inv (streamCheck dir snap s) := by
  rcases streamCheck_cases dir snap s with
    ⟨_, e⟩ | ⟨_, _, e⟩ | ⟨_, _, _, e⟩ | ⟨_, hk, hc, e⟩ <;> rw [e]
  · exact abortStep_inv s h
  · exact complete_inv _ _ h (goodReport_raise _ _ _ (by simp))
  · exact complete_inv _ _ h (goodReport_raise _ _ _ (by simp))
  · obtain ⟨_, hcur, hso, _⟩ := h.phase.busy _ _ hp
    have r := h.registers
    refine ⟨h.legal,
      ⟨r.opa, r.opb, r.opc, r.r0, r.r1, r.r2, r.keyN, r.keyE, r.keyD, by simp⟩,
      ⟨h.report.err_iff, h.report.info, h.report.noinv, h.report.short,
        fun _ => h.report.busy (by simp [State.busy, hp])⟩,
      keyOk_congr h.key rfl rfl rfl rfl rfl rfl rfl rfl, ⟨by simp, by simp, ?_⟩,
      h.queues.inq, h.queues.outq⟩
    intro d hd
    simp at hd; subst hd
    refine ⟨?_, ?_, ?_, ?_⟩
    · simp [hcur]; cases dir <;> decide
    · simp [← hso.keyconf, hk]
    · rintro rfl; simpa [capable, hso.canEnc] using hc
    · rintro rfl; simpa [capable, hso.canDec] using hc

/-! Register writes. -/

/-- Acceptance keeps the state consistent (R100). -/
theorem accept_inv (w : Word) (s : State) (h : Inv s) (hi : s.phase = .idle) :
    Inv (accept w s) := by
  have hd := decode_wellFormed w
  have r := h.registers
  refine ⟨h.legal, ⟨r.opa, r.opb, r.opc, r.r0, r.r1, r.r2, r.keyN, r.keyE, r.keyD, ?_⟩, ?_,
    keyOk_congr h.key rfl rfl rfl rfl rfl rfl rfl rfl, ⟨by simp, ?_, by simp⟩,
    h.queues.inq, h.queues.outq⟩
  · intro op snap hp
    simp at hp
    obtain ⟨rfl, rfl⟩ := hp
    exact ⟨r.opa, r.opb, r.opc, r.keyN, r.keyE, r.keyD⟩
  · constructor <;> simp
  · intro op snap hp
    simp at hp
    obtain ⟨rfl, rfl⟩ := hp
    refine ⟨hd.1, hd.2, ⟨rfl, rfl, rfl, rfl, h.key.reserved, fun _ => ⟨rfl, rfl, rfl, rfl⟩⟩, ?_⟩
    simp [h.phase.idle hi]

/-- A write to CTRL keeps the state consistent (R27). -/
theorem ctrlWrite_inv (v : Word) (s : State) (h : Inv s) : Inv (ctrlWrite v s) := by
  cases hs : v.getLsbD 2
  · rw [ctrlWrite_no_srst v s hs]
    have r := h.registers
    refine ⟨h.legal, ⟨r.opa, r.opb, r.opc, r.r0, r.r1, r.r2, r.keyN, r.keyE, r.keyD, r.snap⟩,
      ⟨h.report.err_iff, h.report.info, h.report.noinv, h.report.short, h.report.busy⟩,
      keyOk_congr h.key rfl rfl rfl rfl rfl rfl rfl rfl, ⟨?_, ?_, h.phase.stream⟩,
      h.queues.inq, h.queues.outq⟩
    · intro hp
      have hp' : s.phase = .idle := hp
      simp [h.phase.idle hp', State.streaming, hp']
    · intro op snap hp
      have hp' : s.phase = .busy op snap := hp
      obtain ⟨a, b, c, d⟩ := h.phase.busy op snap hp'
      refine ⟨a, b, ⟨c.keyconf, c.canEnc, c.canDec, c.blklen, c.reserved, c.key⟩, ?_⟩
      simp [State.streaming, hp']
      rintro (h | h)
      · exact d h
      · exact h.2
  · rw [ctrlWrite_srst v s hs]
    exact inv_update (inv_resetOf _ h.legal) false false 0 [] [] s.agenda .none (by simp) (by simp)

/-- Clearing a report keeps the state consistent (R28). -/
theorem clearReport_inv (v : Word) (s : State) (h : Inv s) : Inv (clearReport v s) := by
  have r := h.registers
  refine ⟨h.legal, ⟨r.opa, r.opb, r.opc, r.r0, r.r1, r.r2, r.keyN, r.keyE, r.keyD, r.snap⟩, ?_,
    keyOk_congr h.key rfl rfl rfl rfl rfl rfl rfl rfl,
    ⟨h.phase.idle, fun op snap hp =>
      have ⟨a, b, c, d⟩ := h.phase.busy op snap hp
      ⟨a, b, ⟨c.keyconf, c.canEnc, c.canDec, c.blklen, c.reserved, c.key⟩, d⟩, h.phase.stream⟩,
    h.queues.inq, h.queues.outq⟩
  have hb : (clearReport v s).busy = s.busy := rfl
  constructor
  · simp only [clearReport_err, clearReport_errcode]
    cases v.getLsbD 2 <;> simp [h.report.err_iff]
  · simp only [clearReport_err, clearReport_errinfo]
    cases v.getLsbD 2 <;> simp
    exact h.report.info
  · intro hn
    have := h.report.noinv hn
    simp [this]
  · intro hn
    have := h.report.short hn
    simp [this]
  · rw [hb]; intro hn
    have := h.report.busy hn
    simp [this]

/-- A write to KEYCFG keeps the state consistent (R31). -/
theorem keycfgWrite_inv (v : Word) (s : State) (h : Inv s) : Inv (keycfgWrite v s) := by
  unfold keycfgWrite
  split
  · exact h
  · next hk =>
    rw [Bool.not_eq_true] at hk
    have r := h.registers
    have hu := h.key.unconfigured hk
    refine ⟨h.legal, ⟨r.opa, r.opb, r.opc, r.r0, r.r1, r.r2, r.keyN, r.keyE, r.keyD, r.snap⟩,
      ⟨h.report.err_iff, h.report.info, h.report.noinv, h.report.short, h.report.busy⟩, ?_,
      ⟨h.phase.idle, fun op snap hp =>
        have ⟨a, b, c, d⟩ := h.phase.busy op snap hp
        ⟨a, b, ⟨c.keyconf, c.canEnc, c.canDec, c.blklen, c.reserved, by simp [hk]⟩, d⟩,
        h.phase.stream⟩,
      h.queues.inq, h.queues.outq⟩
    constructor <;> simp [hk, hu, keycfgWritten_idem]

/-- Operand registers may change within OPW bits (R35). -/
theorem inv_operands {s : State} (h : Inv s) (a b c : Wide) (ha : FitsOpw s.cfg a)
    (hb : FitsOpw s.cfg b) (hc : FitsOpw s.cfg c) : Inv { s with opa := a, opb := b, opc := c } :=
  have r := h.registers
  ⟨h.legal, ⟨ha, hb, hc, r.r0, r.r1, r.r2, r.keyN, r.keyE, r.keyD, r.snap⟩,
    ⟨h.report.err_iff, h.report.info, h.report.noinv, h.report.short, h.report.busy⟩,
    keyOk_congr h.key rfl rfl rfl rfl rfl rfl rfl rfl,
    ⟨h.phase.idle, fun op snap hp =>
      have ⟨a, b, c, d⟩ := h.phase.busy op snap hp
      ⟨a, b, ⟨c.keyconf, c.canEnc, c.canDec, c.blklen, c.reserved, c.key⟩, d⟩, h.phase.stream⟩,
    h.queues.inq, h.queues.outq⟩

/-- Key registers may change within OPW bits while the key is Uninitialized (R37). -/
theorem inv_keys {s : State} (h : Inv s) (hk : s.keyconf = false) (n e d : Wide)
    (hn : FitsOpw s.cfg n) (he : FitsOpw s.cfg e) (hd : FitsOpw s.cfg d) :
    Inv { s with keyN := n, keyE := e, keyD := d } := by
  have r := h.registers
  have hu := h.key.unconfigured hk
  refine ⟨h.legal, ⟨r.opa, r.opb, r.opc, r.r0, r.r1, r.r2, hn, he, hd, r.snap⟩,
    ⟨h.report.err_iff, h.report.info, h.report.noinv, h.report.short, h.report.busy⟩, ?_,
    ⟨h.phase.idle, fun op snap hp =>
      have ⟨a, b, c, d⟩ := h.phase.busy op snap hp
      ⟨a, b, ⟨c.keyconf, c.canEnc, c.canDec, c.blklen, c.reserved, by simp [hk]⟩, d⟩,
      h.phase.stream⟩,
    h.queues.inq, h.queues.outq⟩
  constructor <;> simp [hk, hu]
  exact h.key.reserved

/-- A write to a word of a wide register keeps the state consistent (R35 to R37). -/
theorem wideWrite_inv (x : WideReg) (i : Nat) (v : Word) (s : State) (h : Inv s) :
    Inv (wideWrite x i v s) := by
  unfold wideWrite
  split
  · next hi =>
    have hl := legal_opw h.legal
    have hb : 32 * i + 32 ≤ s.cfg.opw := by simp [Params.words] at hi; omega
    have r := h.registers
    have fit : ∀ u : Wide, FitsOpw s.cfg u → FitsOpw s.cfg (setWideWord u i v) :=
      fun u hu => setWideWord_fits u i v _ hb hu
    cases x with
    | opa => exact inv_operands h _ _ _ (fit _ r.opa) r.opb r.opc
    | opb => exact inv_operands h _ _ _ r.opa (fit _ r.opb) r.opc
    | opc => exact inv_operands h _ _ _ r.opa r.opb (fit _ r.opc)
    | r0 => exact h
    | r1 => exact h
    | r2 => exact h
    | keyN =>
      simp only
      split
      · exact h
      · next hk => exact inv_keys h (by simpa using hk) _ _ _ (fit _ r.keyN) r.keyE r.keyD
    | keyE =>
      simp only
      split
      · exact h
      · next hk => exact inv_keys h (by simpa using hk) _ _ _ r.keyN (fit _ r.keyE) r.keyD
    | keyD =>
      simp only
      split
      · exact h
      · next hk => exact inv_keys h (by simpa using hk) _ _ _ r.keyN r.keyE (fit _ r.keyD)
  · exact h

/-- A register write keeps the state consistent (R23). -/
theorem regWrite_inv (r : Reg) (v : Word) (s : State) (h : Inv s) : Inv (regWrite r v s) := by
  cases r with
  | ctrl => exact ctrlWrite_inv v s h
  | status => exact clearReport_inv v s h
  | cmd =>
    simp only [regWrite]
    cases hb : s.busy
    · rw [cmdWrite_idle v s hb]
      exact accept_inv _ _ h ((busy_eq_false_iff s).1 hb)
    · rw [cmdWrite_busy _ s hb]
      exact inv_update h s.irqEn true s.frames s.inq s.outq s.agenda s.reply
        h.queues.inq h.queues.outq
  | keycfg => exact keycfgWrite_inv v s h
  | wide x i => exact wideWrite_inv x i v s h
  | id => exact h
  | hwcfg => exact h
  | fifocfg => exact h
  | errinfo => exact h
  | blklen => exact h
  | frames => exact h
  | levels => exact h
  | reserved => exact h

end Sys2Proof.Laws
end

