-- ==== Sys2Proof/Laws/PerInstr.lean ====
section
/-! SUPPORT. Per command: its word is a well-formed CMD32 that decodes back to it (R71 to R73). -/

namespace Sys2Proof.Laws.RoundTrip

/-- The command is well formed, its word has reserved bits 0 and its own opcode, and decodes to
it. -/
def Statement (i : Instr) : Prop :=
  i.wellFormed = true ∧ reservedField (encodeInstr i) = 0#24 ∧
    opcodeField (encodeInstr i) = opcode i ∧ decode (encodeInstr i) = .instr i

theorem nop : Statement .nop := by unfold Statement; decide
theorem gcd : Statement .gcd := by unfold Statement; decide
theorem xgcd : Statement .xgcd := by unfold Statement; decide
theorem modinv : Statement .modinv := by unfold Statement; decide
theorem modpow : Statement .modpow := by unfold Statement; decide
theorem pow : Statement .pow := by unfold Statement; decide
theorem config : Statement .config := by unfold Statement; decide
theorem encblk : Statement .encblk := by unfold Statement; decide
theorem decblk : Statement .decblk := by unfold Statement; decide
theorem encstream : Statement .encstream := by unfold Statement; decide
theorem decstream : Statement .decstream := by unfold Statement; decide

end Sys2Proof.Laws.RoundTrip
end

