-- ==== Sys2Proof/Tests/Slice0.lean ====
section
/-! SUPPORT. Tests of the model, with expected values from the spec's vectors, and a witness for the
hypotheses of each statement. -/

namespace Sys2Proof.Tests

open Sys2Proof.Machine Sys2Proof.Laws

-- One test after another: the tests' kernel evaluations need not all be in memory at once.
set_option Elab.async false

/-! Well-formedness: an ill-formed term for each check, which that check alone refuses. -/

theorem test_wellFormed_command :
    Command.wellFormed (.instr .decstream) = true ∧
    Command.wellFormed (.illegal 0x00000015#32) = true ∧
    Command.wellFormed (.illegal 0x00000101#32) = true ∧
    Command.wellFormed (.illegal 0x00000014#32) = false := by decide

theorem test_wellFormed_instr :
    ([.nop, .gcd, .xgcd, .modinv, .modpow, .pow, .config, .encblk, .decblk, .encstream,
      .decstream] : List Instr).all Instr.wellFormed = true := by decide

theorem test_legal_params_at_both_ends :
    Params.legal ⟨64, 9, 8⟩ = true ∧ Params.legal ⟨4096, 65535, 65535⟩ = true ∧
    Params.legal ⟨4096, 513, 512⟩ = true := by decide

theorem test_legal_opw_multiple_of_32 : Params.legal ⟨80, 64, 64⟩ = false := by decide
theorem test_legal_opw_least : Params.legal ⟨32, 64, 64⟩ = false := by decide
theorem test_legal_opw_greatest : Params.legal ⟨4128, 65535, 65535⟩ = false := by decide
theorem test_legal_in_depth_least : Params.legal ⟨64, 8, 64⟩ = false := by decide
theorem test_legal_in_depth_greatest : Params.legal ⟨64, 65536, 64⟩ = false := by decide
theorem test_legal_out_depth_least : Params.legal ⟨64, 64, 7⟩ = false := by decide
theorem test_legal_out_depth_greatest : Params.legal ⟨64, 64, 65536⟩ = false := by decide

/-! Decoding: words written out bit by bit from R71, R72, R76. -/

theorem test_decode_gcd_reserved_bit :
    decode 0b00000000000000000000000100000001#32 = .illegal 0x00000101#32 := by decide

theorem test_decode_top_reserved_bit :
    decode 0b10000000000000000000000000010100#32 = .illegal 0x80000014#32 := by decide

theorem test_decode_unassigned_neighbours :
    [0x04#32, 0x07#32, 0x0A#32, 0x0F#32, 0x15#32, 0xFF#32].all
      (fun w => decide (decode w = .illegal w)) = true := by decide

theorem test_decode_families :
    decode 0b00000000000000000000000000000000#32 = .instr .nop ∧
    decode 0b00000000000000000000000000000011#32 = .instr .modinv ∧
    decode 0b00000000000000000000000000001001#32 = .instr .pow ∧
    decode 0b00000000000000000000000000010010#32 = .instr .decblk := by decide

theorem test_decode_tokens :
    decodeToken 0b0000000011#10 = .byte 0x03#8 ∧ decodeToken 0b0011111111#10 = .byte 0xFF#8 ∧
    decodeToken 0b0100000000#10 = .eos ∧ decodeToken 0b1000000000#10 = .error ∧
    decodeToken 0b1100000101#10 = .error := by decide

theorem test_decodeTableWord :
    decodeTableWord 32 0x13 = some .encstream ∧ decodeTableWord 32 0x113 = none ∧
    decodeTableWord 40 0x100000013 = none := by decide

/-! One step of each command, on operands of the spec's vectors (95_test_vectors.md). -/

/-- The next state of a step, if the step answers one. -/
def stepped (s : State) : Option State :=
  match step s with
  | .next t => some t
  | .fault _ => none
  | .refused _ => none

/-- The reset state with operands. -/
def operands (a b c : Nat) : State :=
  { State.reset with opa := wideOf a, opb := wideOf b, opc := wideOf c }

/-- Right after the acceptance of a command. -/
def started (i : Instr) (s : State) : State := accept (encodeInstr i) s

/-- What the vectors list: STATUS, ERRINFO and the result registers. -/
def seen (s : State) : Word × Word × Nat × Nat × Nat :=
  (s.statusWord, s.errinfo, s.r0.toNat, s.r1.toNat, s.r2.toNat)

/-- R104, V-LIFE. -/
theorem test_nop :
    (stepped (started .nop State.reset)).map seen = some (0x00000002#32, 0, 0, 0, 0) := by
  decide +kernel

/-- V-GCD. -/
theorem test_gcd : (stepped (started .gcd (operands 12 18 0))).map seen
    = some (0x00010002#32, 0, 6, 0, 0) := by decide +kernel

/-- V-GCD, the largest operands. -/
theorem test_gcd_top :
    (stepped (started .gcd (operands 18446744073709551615 9223372036854775808 0))).map seen
      = some (0x00010002#32, 0, 1, 0, 0) := by decide +kernel

/-- V-XGCD, the scenario of §8. -/
theorem test_xgcd : (stepped (started .xgcd (operands 4632 61551 0))).map seen
    = some (0x00020002#32, 0, 3, 0xFFFFFFFFFFFFF41D, 0xE5) := by decide +kernel

/-- V-XGCD, the tie of D14. -/
theorem test_xgcd_tie : (stepped (started .xgcd (operands 7 7 0))).map seen
    = some (0x00020002#32, 0, 7, 1, 0) := by decide +kernel

/-- V-MODINV, the scenario of §8: a positive coefficient. -/
theorem test_modinv : (stepped (started .modinv (operands 10 17 0))).map seen
    = some (0x00030002#32, 0, 12, 0, 0) := by decide +kernel

/-- V-MODINV, modulus 0 with gcd 1 (C4). -/
theorem test_modinv_none : (stepped (started .modinv (operands 1 0 0))).map seen
    = some (0x0003000A#32, 0, 0, 0, 0) := by decide +kernel

/-- V-MODPOW, exponent 0 with modulus 1 (C8). -/
theorem test_modpow_one : (stepped (started .modpow (operands 5 0 1))).map seen
    = some (0x00080002#32, 0, 1, 0, 0) := by decide +kernel

/-- V-MODPOW, modulus 0. -/
theorem test_modpow_zero : (stepped (started .modpow (operands 5 3 0))).map seen
    = some (0x00084006#32, 0x00000008#32, 0, 0, 0) := by decide +kernel

/-- V-POW, the largest power of 3 that fits. -/
theorem test_pow : (stepped (started .pow (operands 3 40 0))).map seen
    = some (0x00090002#32, 0, 12157665459056928801, 0, 0) := by decide +kernel

/-- V-POW, 2^OPW overflows. -/
theorem test_pow_overflow : (stepped (started .pow (operands 2 64 0))).map seen
    = some (0x00095006#32, 0x00000009#32, 0, 0, 0) := by decide +kernel

/-- V-LIFE: a word of no command. -/
theorem test_illegal : (stepped (accept 0x00000101#32 State.reset)).map seen
    = some (0x00016006#32, 0x00000101#32, 0, 0, 0) := by decide +kernel

/-- The key registers as the host writes them before CONFIG. -/
def keyWritten (n e d : Nat) (kc : Word) : State :=
  { State.reset with keyN := wideOf n, keyE := wideOf e, keyD := wideOf d, keycfg := kc }

/-- A Constructed key, as CONFIG leaves it (R161). -/
def keyed (n e d : Nat) (kc : Word) : State :=
  { keyWritten n e d kc with
    keyconf := true
    canEnc := keycfgEP kc
    canDec := keycfgDP kc
    blklen := blklenOf (configPlen n kc) (clen n) }

/-- The key of §8. -/
def key8 : State := keyed 8612189837 6968567183 2644925087 0x00000003#32

/-- V-CONFIG: both exponents; and cap 3 with a public exponent only. -/
theorem test_config :
    (stepped (started .config (keyWritten 8612189837 6968567183 2644925087 0x3#32))).map
        (fun t => (t.statusWord, t.blklen, t.keyE.toNat, t.keyD.toNat))
      = some (0x001001C2#32, 0x00050004#32, 6968567183, 2644925087) ∧
    (stepped (started .config (keyWritten 8612189837 6968567183 2644925087 0x00030005#32))).map
        (fun t => (t.statusWord, t.blklen, t.keyE.toNat, t.keyD.toNat))
      = some (0x001000C2#32, 0x00050003#32, 6968567183, 0) := by decide +kernel

/-- V-CONFIG: cap 0. -/
theorem test_config_cap_zero :
    (stepped (started .config (keyWritten 8612189837 6968567183 2644925087 0x7#32))).map seen
      = some (0x00103006#32, 0x00000004#32, 0, 0, 0) := by decide +kernel

/-- V-BLK: `Encrypt(3)`. -/
theorem test_encblk : (stepped (started .encblk { key8 with opa := 3 })).map seen
    = some (0x001101C2#32, 0, 7244224352, 0, 0) := by decide +kernel

/-- V-BLK: no CONFIG. -/
theorem test_encblk_unconfigured : (stepped (started .encblk (operands 3 0 0))).map seen
    = some (0x00117006#32, 0x00000011#32, 0, 0, 0) := by decide +kernel

/-- V-BLK: `Decrypt(Encrypt(3))`. -/
theorem test_decblk : (stepped (started .decblk { key8 with opa := wideOf 7244224352 })).map seen
    = some (0x001201C2#32, 0, 3, 0, 0) := by decide +kernel

/-- V-BLK: a public-only key. -/
theorem test_decblk_capability :
    (stepped (started .decblk (keyed 8612189837 6968567183 0 0x1#32))).map seen
      = some (0x001220C6#32, 0x00000012#32, 0, 0, 0) := by decide +kernel

/-- A stream command in its frame loop with tokens queued. -/
def streaming (dir : Dir) (q : List Token) (s : State) : State :=
  { started (dirInstr dir) { s with inq := q } with phase := .stream dir }

/-- S1: the full-frame step. -/
theorem test_encstream_full :
    (stepped (streaming .enc [.byte 3, .byte 0, .byte 0, .byte 0, .eos] key8)).map
        (fun t => (t.outq, t.inq, t.frames, t.statusWord))
      = some ([0x60, 0x17, 0xCA, 0xAF, 0x01], [.eos], 1, 0x001301C1#32) := by decide +kernel

/-- S13: the short-final-frame step leaves the tokens behind End. -/
theorem test_encstream_short :
    (stepped (streaming .enc [.byte 3, .eos, .byte 7, .eos] key8)).map
        (fun t => (t.outq, t.inq, t.frames, t.statusWord))
      = some ([0x60, 0x17, 0xCA, 0xAF, 0x01], [.byte 7, .eos], 1, 0x001301D2#32) := by
  decide +kernel

/-- S8: the full-frame step of DECSTREAM. -/
theorem test_decstream_full :
    (stepped (streaming .dec [.byte 0x60, .byte 0x17, .byte 0xCA, .byte 0xAF, .byte 0x01, .eos]
        key8)).map (fun t => (t.outq, t.inq, t.frames, t.statusWord))
      = some ([3, 0, 0, 0], [.eos], 1, 0x001401C1#32) := by decide +kernel

/-- S16: the check step fails for a public-only key and consumes no token. -/
theorem test_decstream_capability :
    (stepped (started .decstream
        { keyed 8612189837 6968567183 0 0x1#32 with inq := [.byte 3, .eos] })).map
        (fun t => (t.inq, t.errinfo, t.statusWord))
      = some ([.byte 3, .eos], 0x00000014#32, 0x001420C6#32) := by decide +kernel

/-- S12: the I/O-error step on a reserved token kind. -/
theorem test_stream_io_error :
    (stepped (streaming .enc [.byte 3, .byte 0, decodeToken 0x300#10] key8)).map
        (fun t => (t.inq, t.errinfo, t.statusWord))
      = some ([], 0, 0x001391C6#32) := by decide +kernel

/-- S20: the abort step after one frame. -/
theorem test_stream_abort :
    (stepped { streaming .enc [.byte 5] key8 with
        frames := 1, outq := [0x60, 0x17, 0xCA, 0xAF, 0x01], abortPend := true, irqEn := true }).map
        (fun t => (t.statusWord, t.errinfo, regRead t .levels, t.irq))
      = some (0x0013A1C6#32, 0x00000001#32, 0x00050000#32, true) := by decide +kernel

/-- S22: with 3 free bytes of 8 the second frame holds. -/
theorem test_stream_hold :
    let s : State := { streaming .enc [.byte 5, .byte 6, .byte 7, .byte 8, .eos] key8 with
      cfg := ⟨64, 9, 8⟩, frames := 1, outq := [0x0B, 0xFB, 0x44, 0x0D, 0x01] }
    stepped s = some s := by decide +kernel

/-! The bus (V-LIFE, P2, P3). -/

/-- P2, lines 1 and 2 up to the acceptance: LOADKEY writes the key in ascending word order. -/
theorem test_loadkey :
    runHost (loadKeyProgram Config.params (wideOf 8612189837) (wideOf 6968567183)
        (wideOf 2644925087) (keycfgWord true true none)) State.reset
      = some { keyWritten 8612189837 6968567183 2644925087 0x3#32 with reply := .done } := by
  decide +kernel

/-- V-LIFE: W1C of ERR after the MODPOW vector, and CLR. -/
theorem test_status_w1c :
    (runHost [wr .status 0x4#32] { operands 5 3 0 with
        done := true, err := true, errcode := .modulusZero, errinfo := 8, curOp := 0x08 }).map
        (fun t => (t.statusWord, t.errinfo)) = some (0x00080002#32, 0) ∧
    (runHost [clr] { operands 5 3 0 with
        done := true, err := true, errcode := .modulusZero, errinfo := 8, curOp := 0x08 }).map
        (fun t => (t.statusWord, t.errinfo)) = some (0x00080000#32, 0) := by decide +kernel

/-- V-LIFE: reads of CMD, of a reserved offset and of a word past L. -/
theorem test_reads_of_zero :
    [rd .cmd, rd .reserved, .read 0x1008#14 32].all
      (fun a => decide ((hostStep a (operands 5 5 5)).map State.reply = some (.data 0))) = true := by
  decide +kernel

/-- V-LIFE: RD ID, HWCFG and FIFOCFG with IN_DEPTH = 9 and OUT_DEPTH = 8. -/
theorem test_identification :
    [rd .id, rd .hwcfg, rd .fifocfg].map
      (fun a => (hostStep a (State.resetOf ⟨64, 9, 8⟩)).map State.reply)
      = [some (.data 0x52534145#32), some (.data 0x00000040#32), some (.data 0x00080009#32)] := by
  decide +kernel

/-- V-LIFE: a CMD write while a stream command runs is dropped. -/
theorem test_overrun :
    (hostStep (cmd .nop) (streaming .enc [.byte 3] key8)).map State.statusWord
      = some 0x001301E1#32 := by decide +kernel

/-- S18 (2): ABORT while the stream command runs; S21: ABORT while Idle. -/
theorem test_abort_write :
    (hostStep abort (streaming .enc [.byte 3, .byte 0] key8)).map State.statusWord
      = some 0x001303C1#32 ∧
    (hostStep abort key8).map State.statusWord = some 0x000001C0#32 := by decide +kernel

/-- R231: a soft reset with the other bits set leaves IRQ_EN 0 and the key Uninitialized. -/
theorem test_soft_reset :
    hostStep (.write 0x0010#14 32 0x7#32) { key8 with irqEn := true }
      = some { State.reset with reply := .done } := by decide +kernel

/-- How a word placed by the harness runs at once. -/
theorem test_withFetchWord :
    (stepped (State.reset.withFetchWord 32 0x01)).map State.statusWord = some 0x00010002#32 := by
  decide +kernel

/-- R83: WAIT goes back to its read while it finds BUSY = 1, after the engine's turns, and ends at
the first read of BUSY = 0; the value read is V-LIFE's STATUS after NOP. -/
theorem test_wait :
    (stepped { started .nop State.reset with agenda := [.wait [2], .host clr] }).map
        (fun t => (t.agenda, t.reply))
      = some ([.engine, .engine, .wait [], .host clr], .data 0x00000001#32) ∧
    (stepped { State.reset with done := true, agenda := [.wait [2], .host clr] }).map
        (fun t => (t.agenda, t.reply))
      = some ([.host clr], .data 0x00000002#32) := by decide +kernel

/-- R88: `RUN M` is `CMD M ; WAIT`, with no engine turn between them, and with one, so that the
first read of WAIT comes after the completion, as in the schedule of 95_test_vectors.md. -/
theorem test_run :
    (stepped { State.reset with agenda := runCommand .gcd 0 [] }).map
        (fun t => (t.agenda, t.statusWord)) = some ([.wait []], 0x00010001#32) ∧
    (stepped { State.reset with agenda := runCommand .gcd 1 [] }).map
        (fun t => (t.agenda, t.statusWord)) = some ([.engine, .wait []], 0x00010001#32) := by
  decide +kernel

/-! Consistent states for the witnesses. -/

/-- The reset state is consistent. -/
theorem test_inv_reset : Inv State.reset := inv_resetOf _ (by decide)

/-- A Constructed key is consistent under the conditions CONFIG checks. -/
theorem inv_keyed (n e d : Nat) (kc : Word) (hn : n < 2 ^ 64) (he : e < 2 ^ 64) (hd : d < 2 ^ 64)
    (hkc : keycfgWritten kc = kc) (hsome : keycfgEP kc = true ∨ keycfgDP kc = true)
    (hnoe : keycfgEP kc = false → e = 0) (hnod : keycfgDP kc = false → d = 0)
    (hplen : 1 ≤ configPlen n kc) : Inv (keyed n e d kc) := by
  have hw : (wideOf n).toNat = n :=
    wideOf_toNat n (lt_trans hn (Nat.pow_lt_pow_right (by norm_num) (by decide)))
  have hlegal : Params.legal ⟨64, 64, 64⟩ = true := by decide
  refine ⟨hlegal, ?_, ?_, ?_, ?_, ⟨Nat.zero_le _, Nat.zero_le _⟩⟩
  · constructor
    case keyN => exact wideOf_fits _ _ hn
    case keyE => exact wideOf_fits _ _ he
    case keyD => exact wideOf_fits _ _ hd
    case snap => intro op snap h; cases h
    all_goals simp [FitsOpw, keyed, keyWritten, State.reset, State.resetOf]
  · constructor <;> simp [keyed, keyWritten, State.reset, State.resetOf, State.busy]
  · constructor
    · exact hkc
    · intro h; cases h
    · intro _; rfl
    · intro _; rfl
    · intro _; exact hsome
    · intro _ h; simp [keyed, keyWritten, wideOf, hnoe h]
    · intro _ h; simp [keyed, keyWritten, wideOf, hnod h]
    · intro _
      show blklenOf _ _ = blklenOf (configPlen (wideOf n).toNat kc) (clen (wideOf n).toNat)
      rw [hw]
    · intro _
      show 1 ≤ configPlen (wideOf n).toNat kc
      rw [hw]; exact hplen
  · constructor
    · intro _; rfl
    · intro op snap h; cases h
    · intro dir h; cases h

/-- Tokens and bytes queued keep a state consistent. -/
theorem inv_queued (s : State) (q : List Token) (o : List Byte) (h : Inv s)
    (hq : q.length ≤ s.cfg.inDepth) (ho : o.length ≤ s.cfg.outDepth) :
    Inv { s with inq := q, outq := o } :=
  inv_update h s.irqEn s.overrun s.frames q o s.agenda s.reply hq ho

theorem test_inv_key8 : Inv key8 := by
  apply inv_keyed <;> decide +kernel

/-- The key of the valid pair 5, 173 for the modulus 323 = 17 * 19, with PLEN 1 and CLEN 2. -/
def smallKey : State := keyed 323 5 173 0x3#32

theorem test_inv_smallKey : Inv smallKey := by
  apply inv_keyed <;> decide +kernel

/-- A key at a power of 256: PLEN = CLEN = 1. -/
theorem test_inv_key256 : Inv (keyed 256 3 0 0x1#32) := by
  apply inv_keyed <;> decide +kernel

/-- A stream command accepted. -/
theorem test_inv_busy : Inv (started .encstream key8) :=
  accept_inv _ _ test_inv_key8 rfl

/-- A stream command in its loop, with tokens queued. -/
theorem test_inv_streaming : Inv (streaming .enc [.byte 3, .eos] key8) := by
  have h := streamCheck_inv .enc (takeSnapshot { key8 with inq := [.byte 3, .eos] })
    (started .encstream { key8 with inq := [.byte 3, .eos] })
    (accept_inv _ _ (inv_queued key8 [.byte 3, .eos] [] test_inv_key8 (by decide) (by decide)) rfl)
    rfl
  exact h

/-! Witnesses: for each statement with hypotheses, states and operands that meet them. -/

theorem test_meets_DecodeIsTheOpcodeMap :
    (0x14#32, Instr.decstream) ∈ commandTable ∧ (∀ i, (0x15#32, i) ∉ commandTable) ∧
    decode 0x15#32 = .illegal 0x15#32 ∧ (0x100#32 : Word).toNat / 256 ≠ 0 := by
  refine ⟨by decide, fun i => ?_, by decide, by decide⟩
  cases i <;> decide

theorem test_meets_DecodeEncodeAgree :
    Command.wellFormed (.instr .nop) = true ∧ Command.wellFormed (.illegal 0xFFFFFFFF#32) = true := by
  decide

theorem test_meets_LittleEndianBytes : 1 < 2 ∧ 0xFFFF < 256 ^ 2 ∧ 0 < 256 ^ 0 := by decide

/-- A phase of each kind under an empty agenda, at the engine's turn and with a host action that
waits; an enabled host action; a CMD write in Idle; WAIT with BUSY = 0 and with BUSY = 1. -/
theorem test_meets_StepRunsTheCommandInProgress :
    (∃ snap, (started .gcd State.reset).phase = .busy (.instr .gcd) snap) ∧
    (streaming .dec [] key8).phase = .stream .dec ∧
    (∃ snap, (accept 0x101#32 State.reset).phase = .busy (.illegal 0x101#32) snap) ∧
    State.reset.phase = .idle ∧ State.reset.agenda = [] ∧ (streaming .dec [] key8).agenda = [] ∧
    ({ streaming .dec [] key8 with agenda := [.engine] } : State).agenda = .engine :: [] ∧
    ({ streaming .dec [] key8 with agenda := [.host .pop] } : State).agenda = .host .pop :: [] ∧
    hostStep .pop { streaming .dec [] key8 with agenda := [] } = none ∧
    hostStep .pop { accept 0x101#32 State.reset with agenda := [] } = none ∧
    (hostStep (rd .id) State.reset).isSome = true ∧
    ({ State.reset with agenda := [.wait [0]] } : State).busy = false ∧
    ({ started .gcd State.reset with agenda := [.wait [0]] } : State).busy = true ∧
    decode 0x14#32 = .instr .decstream :=
  ⟨⟨_, rfl⟩, rfl, ⟨_, rfl⟩, rfl, rfl, rfl, rfl, rfl, rfl, rfl, by decide, rfl, rfl, by decide⟩

theorem test_meets_BlockNeverHalts :
    let s : State := { State.reset with agenda := runCommand .gcd 1 [0, 2] ++ [.host (rd .id)] }
    let t : State := { State.reset with agenda := runCommand .gcd 0 [] ++ [] }
    Instr.gcd ≠ .encstream ∧ Instr.gcd ≠ .decstream ∧ s.phase = .idle ∧ t.phase = .idle ∧
    s.agenda = runCommand .gcd 1 [0, 2] ++ [.host (rd .id)] ∧
    t.agenda = runCommand .gcd 0 [] ++ [] := by decide

theorem test_meets_InvariantKeptByEveryStep :
    (∃ t, step State.reset = .next t) ∧ (∃ t, step (started .encstream key8) = .next t) ∧
    ∃ t, step (streaming .enc [.byte 3, .eos] key8) = .next t :=
  ⟨⟨_, rfl⟩, ⟨_, rfl⟩, ⟨_, rfl⟩⟩

theorem test_meets_ResetIsConsistent : Params.legal ⟨4096, 513, 512⟩ = true := by decide

theorem test_meets_ParametersNeverChange :
    ∃ t, step { key8 with agenda := [.host .rst] } = .next t := ⟨_, rfl⟩

theorem test_meets_CmdWriteAcceptsOrOverruns :
    (started .nop State.reset).busy = true ∧ (streaming .enc [] key8).busy = true ∧
    State.reset.busy = false ∧ decode 0x13#32 = .instr .encstream ∧
    decode 0x14#32 = .instr .decstream := by decide

/-- CTRL written with ABORT and IRQ_EN, and the word next to CTRL. -/
theorem test_meets_SnapshotIsFixedAtAcceptance :
    (∃ snap, (started .gcd State.reset).phase = .busy (.instr .gcd) snap) ∧
    HostAction.write 0x0010#14 32 0x3#32 ≠ .rst ∧ (0x3#32 : Word).getLsbD 2 = false ∧
    (hostStep (.write 0x0010#14 32 0x3#32) (started .gcd State.reset)).isSome = true ∧
    (hostStep (.write 0x0014#14 32 0x4#32) (started .gcd State.reset)).isSome = true ∧
    Inv (started .encstream key8) ∧
    (∃ snap, (started .encstream key8).phase = .busy (.instr .encstream) snap) ∧
    (started .encstream key8).keyconf = true :=
  ⟨⟨_, rfl⟩, by decide, by decide, by decide, by decide, test_inv_busy, ⟨_, rfl⟩, rfl⟩

/-- A report with and one without a key state, of success and of failure. -/
theorem test_meets_CompletionReportsAtomically :
    (reportR0 6).writes.key = none ∧ (raise .overflow 9).writes.key = none ∧
    ∃ k, (configReport (takeSnapshot (keyWritten 256 3 0 0x1#32))).writes.key = some k :=
  ⟨rfl, rfl, ⟨keyOfSnapshot (takeSnapshot (keyWritten 256 3 0 0x1#32)), by decide +kernel⟩⟩

theorem test_meets_ResetLeavesTheResetValues :
    (0x4#32 : Word).getLsbD 2 = true ∧ (0xFFFFFFFF#32 : Word).getLsbD 2 = true := by decide

theorem test_meets_IdentificationRegisters :
    (State.resetOf ⟨64, 9, 8⟩).cfg.legal = true ∧
    (State.resetOf ⟨4096, 65535, 65535⟩).cfg.legal = true := by decide

theorem test_meets_LevelsShowTheQueues :
    Inv State.reset ∧ Inv { key8 with inq := [.byte 3, .eos], outq := [7] } :=
  ⟨test_inv_reset, inv_queued key8 _ _ test_inv_key8 (by decide) (by decide)⟩

/-- Misaligned and narrow accesses, and reserved offsets at the ends of each range. -/
theorem test_meets_UndecodedAndReservedAccesses :
    0 < 128 ∧ 127 < 128 ∧ (0x3FFF#14 : Offset).toNat % 4 ≠ 0 ∧ (0x0001#14 : Offset).toNat % 4 ≠ 0 ∧ 16 ≠ 32 ∧
    ([0x000C#14, 0x0030#14, 0x0FFC#14, 0x2200#14, 0x3FFC#14] : List Offset).all
      (fun off => decide (off.toNat % 4 = 0 ∧ (off.toNat = 0x000C ∨
        (0x0030 ≤ off.toNat ∧ off.toNat ≤ 0x0FFF) ∨ 0x2200 ≤ off.toNat))) = true := by decide

/-- CTRL written in the check step of both stream commands, in the frame loop, and elsewhere. -/
theorem test_meets_CtrlWriteSetsIrqEnAndAbort :
    (0x3#32 : Word).getLsbD 2 = false ∧ (0x0#32 : Word).getLsbD 2 = false ∧
    (∃ snap, (started .encstream key8).phase = .busy (.instr .encstream) snap) ∧
    (∃ snap, (started .decstream key8).phase = .busy (.instr .decstream) snap) ∧
    (∃ dir, (streaming .dec [] key8).phase = .stream dir) ∧
    ¬((∃ snap, (started .gcd key8).phase = .busy (.instr .encstream) snap ∨
        (started .gcd key8).phase = .busy (.instr .decstream) snap) ∨
      (∃ dir, (started .gcd key8).phase = .stream dir)) := by
  refine ⟨by decide, by decide, ⟨_, rfl⟩, ⟨_, rfl⟩, ⟨_, rfl⟩, ?_⟩
  rintro (⟨snap, h | h⟩ | ⟨dir, h⟩) <;> cases h

theorem test_meets_KeycfgWrite : key8.keyconf = true ∧ State.reset.keyconf = false := by decide

/-- The first and the last word of a wide register, and the words past it; both key states. -/
theorem test_meets_OperandWordsReadBack :
    State.reset.cfg.legal = true ∧ 0 < State.reset.cfg.words ∧ 1 < State.reset.cfg.words ∧
    State.reset.cfg.words ≤ 2 ∧ State.reset.cfg.words ≤ 127 ∧ 2 < 128 ∧ 127 < 128 ∧
    127 < (State.resetOf ⟨4096, 513, 512⟩).cfg.words ∧
    (State.resetOf ⟨4096, 513, 512⟩).cfg.legal = true ∧ State.reset.keyconf = false ∧
    key8.keyconf = true := by decide

theorem test_meets_ReadOnlyWideRegisters :
    0 < 128 ∧ 127 < 128 ∧ key8.keyconf = true ∧ State.reset.keyconf = false := by decide

theorem test_meets_WideWriteLoadsTheValue :
    State.reset.cfg.legal = true ∧ FitsOpw State.reset.cfg (wideOf 0xFFFFFFFFFFFFFFFF) ∧
    (∀ x, FitsOpw State.reset.cfg (State.reset.wideReg x)) ∧ State.reset.keyconf = false := by
  refine ⟨by decide, wideOf_fits _ _ (by decide), fun x => ?_, rfl⟩
  cases x <;> simp [FitsOpw, State.reset, State.resetOf, State.wideReg]

/-- Queues one below full, full and empty. -/
theorem test_meets_PortActions :
    let most : State := { State.resetOf ⟨64, 9, 8⟩ with inq := List.replicate 8 .eos }
    let full : State := { State.resetOf ⟨64, 9, 8⟩ with inq := List.replicate 9 .eos, outq := [7] }
    most.inq.length < most.cfg.inDepth ∧ full.cfg.inDepth ≤ full.inq.length ∧
    full.outq = 7 :: [] ∧ most.outq = [] ∧
    ({ most with agenda := [.host .pop] } : State).agenda = .host .pop :: [] ∧
    hostStep .pop { most with agenda := [] } = none ∧
    hostStep (.push 0#10) full = none := by decide

theorem test_meets_InterruptOutput :
    (0x2#32 : Word).getLsbD 1 = true ∧ (0x2#32 : Word).getLsbD 0 = false ∧
    (hostStep (.write 0x0014#14 32 0x2#32) State.reset).isSome = true ∧
    (hostStep (.write 0x0010#14 32 0x2#32) State.reset).isSome = true ∧
    (hostStep .rst State.reset).isSome = true := by decide

theorem test_meets_NopOnlyReports :
    (∃ snap, (started .nop State.reset).phase = .busy (.instr .nop) snap) ∧
    (started .gcd State.reset).busy = true := ⟨⟨_, rfl⟩, rfl⟩

theorem test_meets_IllegalCommandReports :
    (∀ i, (0x04#32, i) ∉ commandTable) ∧ (∀ i, (0x80000000#32, i) ∉ commandTable) ∧
    ∃ snap, (accept 0x101#32 State.reset).phase = .busy (.illegal 0x101#32) snap := by
  refine ⟨fun i => ?_, fun i => ?_, ⟨_, rfl⟩⟩ <;> cases i <;> decide

theorem test_meets_GcdWritesTheGcd :
    ∃ snap, (started .gcd (operands 12 18 0)).phase = .busy (.instr .gcd) snap := ⟨_, rfl⟩

/-- A snapshot of 64-bit operands. -/
theorem snapshot_fits (a b : Nat) (ha : a < 2 ^ 64) (hb : b < 2 ^ 64) :
    SnapshotFits ⟨64, 64, 64⟩ (takeSnapshot (operands a b 0)) := by
  constructor
  case a => exact wideOf_fits _ _ ha
  case b => exact wideOf_fits _ _ hb
  case c => exact wideOf_fits _ _ (by decide)
  all_goals simp [FitsOpw, takeSnapshot, operands, State.reset, State.resetOf]

/-- The operands of the widest coefficients among 64-bit ones, and zeros. -/
theorem test_meets_XgcdWritesABezoutTriple :
    (∃ snap, (started .xgcd (operands (2 ^ 64 - 1) (2 ^ 64 - 2) 0)).cfg.legal = true ∧
      SnapshotFits (started .xgcd (operands (2 ^ 64 - 1) (2 ^ 64 - 2) 0)).cfg snap ∧
      (started .xgcd (operands (2 ^ 64 - 1) (2 ^ 64 - 2) 0)).phase
        = .busy (.instr .xgcd) snap) ∧
    ∃ snap, (started .xgcd (operands 0 0 0)).cfg.legal = true ∧
      SnapshotFits (started .xgcd (operands 0 0 0)).cfg snap ∧
      (started .xgcd (operands 0 0 0)).phase = .busy (.instr .xgcd) snap :=
  ⟨⟨_, rfl, snapshot_fits _ _ (by decide) (by decide), rfl⟩,
    ⟨_, rfl, snapshot_fits _ _ (by decide) (by decide), rfl⟩⟩

theorem test_meets_XgcdMeetsTheRecursion : (1 : Nat) ≠ 0 ∧ (0 : Nat) < 1 := by decide

/-- MODINV of a running command on operands `a` and `b`. -/
theorem modinv_meets (a b : Nat) : (started .modinv (operands a b 0)).phase
    = .busy (.instr .modinv) (takeSnapshot (operands a b 0)) := rfl

theorem test_meets_ModinvWritesTheInverse :
    (takeSnapshot (operands 1 0 0)).b.toNat = 0 ∧
    Nat.gcd (takeSnapshot (operands 2 4 0)).a.toNat (takeSnapshot (operands 2 4 0)).b.toNat ≠ 1 ∧
    (takeSnapshot (operands 3 26 0)).b.toNat ≠ 0 ∧
    Nat.gcd (takeSnapshot (operands 3 26 0)).a.toNat
      (takeSnapshot (operands 3 26 0)).b.toNat = 1 ∧
    (takeSnapshot (operands 0 1 0)).b.toNat = 1 ∧
    (takeSnapshot (operands 3 26 0)).a.toNat = 3 ∧
    (takeSnapshot (operands 3 26 0)).b.toNat = 26 ∧
    (takeSnapshot (operands 2 4 0)).a.toNat = 2 ∧
    (takeSnapshot (operands 2 4 0)).b.toNat = 4 := by decide +kernel

theorem test_meets_ModpowIsTheModularPower : (1 : Nat) ≤ 1 := by decide

theorem test_meets_ModpowCommand :
    (∃ snap, (started .modpow (operands 5 3 0)).phase = .busy (.instr .modpow) snap ∧
      snap.c.toNat = 0) ∧
    (∃ snap, (started .modpow (operands 5 0 1)).phase = .busy (.instr .modpow) snap ∧
      snap.c.toNat ≠ 0) :=
  ⟨⟨takeSnapshot (operands 5 3 0), rfl, by decide +kernel⟩,
    ⟨takeSnapshot (operands 5 0 1), rfl, by decide +kernel⟩⟩

/-- The powers of 2 at the bound. -/
theorem test_meets_PowCommand :
    (∃ snap, (started .pow (operands 2 63 0)).cfg.legal = true ∧
      (started .pow (operands 2 63 0)).phase = .busy (.instr .pow) snap ∧
      snap.a.toNat ^ snap.b.toNat < 2 ^ (started .pow (operands 2 63 0)).cfg.opw) ∧
    (∃ snap, (started .pow (operands 2 64 0)).cfg.legal = true ∧
      (started .pow (operands 2 64 0)).phase = .busy (.instr .pow) snap ∧
      2 ^ (started .pow (operands 2 64 0)).cfg.opw ≤ snap.a.toNat ^ snap.b.toNat) :=
  ⟨⟨takeSnapshot (operands 2 63 0), rfl, rfl, by decide +kernel⟩,
    ⟨takeSnapshot (operands 2 64 0), rfl, rfl, by decide +kernel⟩⟩

theorem test_meets_PlainBlockLength : (1 : Nat) ≤ 255 ∧ (1 : Nat) ≤ 256 := by decide

/-- 257 lies between two powers of 256; 256 is one. -/
theorem test_meets_EncryptedBlockLength :
    256 ≤ 257 ∧ (∀ k, 257 ≠ 256 ^ k) ∧ 1 ≤ 1 ∧ 256 = 256 ^ 1 := by
  refine ⟨by decide, fun k h => ?_, by decide, by decide⟩
  match k with
  | 0 => simp at h
  | 1 => simp at h
  | k + 2 =>
    have hp : 1 ≤ 256 ^ k := Nat.one_le_pow _ _ (by decide)
    rw [pow_add] at h
    omega

/-- CONFIG's five outcomes: a second CONFIG, modulus 0, no exponent, PLEN 0, and PLEN 1. -/
theorem test_meets_ConfigConstructsTheKey :
    (∃ snap, (started .config key8).phase = .busy (.instr .config) snap ∧
      snap.keyconf = true) ∧
    (∃ snap, (started .config (keyWritten 0 3 0 0x1#32)).phase = .busy (.instr .config) snap ∧
      snap.keyconf = false ∧ snap.n.toNat = 0) ∧
    (∃ snap, (started .config (keyWritten 256 3 0 0x0#32)).phase = .busy (.instr .config) snap ∧
      snap.keyconf = false ∧ snap.n.toNat ≠ 0 ∧ keycfgEP snap.keycfg = false ∧
      keycfgDP snap.keycfg = false) ∧
    (∃ snap, (started .config (keyWritten 255 3 0 0x2#32)).phase = .busy (.instr .config) snap ∧
      snap.keyconf = false ∧ snap.n.toNat ≠ 0 ∧ keycfgDP snap.keycfg = true ∧
      keycfgCapEn snap.keycfg = false ∧ plen0 snap.n.toNat < 1) ∧
    ∃ snap, (started .config (keyWritten 256 3 0 0x00010005#32)).phase
        = .busy (.instr .config) snap ∧
      snap.keyconf = false ∧ snap.n.toNat ≠ 0 ∧ keycfgEP snap.keycfg = true ∧
      keycfgCapEn snap.keycfg = true ∧
      1 ≤ min (plen0 snap.n.toNat) (keycfgMaxBlk snap.keycfg) :=
  ⟨⟨takeSnapshot key8, rfl, rfl⟩,
    ⟨takeSnapshot (keyWritten 0 3 0 0x1#32), rfl, rfl, by decide +kernel⟩,
    ⟨takeSnapshot (keyWritten 256 3 0 0x0#32), rfl, rfl, by decide +kernel⟩,
    ⟨takeSnapshot (keyWritten 255 3 0 0x2#32), rfl, rfl, by decide +kernel⟩,
    ⟨takeSnapshot (keyWritten 256 3 0 0x00010005#32), rfl, rfl, by decide +kernel⟩⟩

theorem test_meets_BlockLengthsAreBounded :
    Inv (keyed 256 3 0 0x1#32) ∧ (keyed 256 3 0 0x1#32).keyconf = true ∧
    Inv key8 ∧ key8.keyconf = true := ⟨test_inv_key256, rfl, test_inv_key8, rfl⟩

theorem test_meets_EncblkCommand :
    (∃ snap, (started .encblk State.reset).phase = .busy (.instr .encblk) snap ∧
      snap.keyconf = false) ∧
    (∃ snap, (started .encblk (keyed 323 0 173 0x2#32)).phase = .busy (.instr .encblk) snap ∧
      snap.keyconf = true ∧ snap.canEnc = false) ∧
    ∃ snap, (started .encblk key8).phase = .busy (.instr .encblk) snap ∧
      snap.keyconf = true ∧ snap.canEnc = true ∧ snap.n.toNat ≠ 0 :=
  ⟨⟨takeSnapshot State.reset, rfl, rfl⟩, ⟨takeSnapshot (keyed 323 0 173 0x2#32), rfl, rfl, rfl⟩,
    ⟨takeSnapshot key8, rfl, rfl, rfl, by decide +kernel⟩⟩

theorem test_meets_DecblkCommand :
    (∃ snap, (started .decblk State.reset).phase = .busy (.instr .decblk) snap ∧
      snap.keyconf = false) ∧
    (∃ snap, (started .decblk (keyed 323 5 0 0x1#32)).phase = .busy (.instr .decblk) snap ∧
      snap.keyconf = true ∧ snap.canDec = false) ∧
    ∃ snap, (started .decblk key8).phase = .busy (.instr .decblk) snap ∧
      snap.keyconf = true ∧ snap.canDec = true ∧ snap.n.toNat ≠ 0 :=
  ⟨⟨takeSnapshot State.reset, rfl, rfl⟩, ⟨takeSnapshot (keyed 323 5 0 0x1#32), rfl, rfl, rfl⟩,
    ⟨takeSnapshot key8, rfl, rfl, rfl, by decide +kernel⟩⟩

/-- An accepted stream command with ABORT written. -/
def aborting (dir : Dir) : State := { started (dirInstr dir) key8 with abortPend := true }

theorem test_meets_StreamCheckStep :
    (∃ snap, (aborting .enc).phase = .busy (.instr .encstream) snap ∧
      (aborting .enc).abortPend = true) ∧
    (∃ snap, (started .encstream State.reset).phase = .busy (.instr .encstream) snap ∧
      (started .encstream State.reset).abortPend = false ∧ snap.keyconf = false) ∧
    (∃ snap, (started .encstream (keyed 323 0 173 0x2#32)).phase
        = .busy (.instr .encstream) snap ∧
      snap.keyconf = true ∧ snap.canEnc = false) ∧
    (∃ snap, (started .encstream key8).phase = .busy (.instr .encstream) snap ∧
      snap.keyconf = true ∧ snap.canEnc = true) ∧
    (∃ snap, (aborting .dec).phase = .busy (.instr .decstream) snap ∧
      (aborting .dec).abortPend = true) ∧
    (∃ snap, (started .decstream State.reset).phase = .busy (.instr .decstream) snap ∧
      (started .decstream State.reset).abortPend = false ∧ snap.keyconf = false) ∧
    (∃ snap, (started .decstream (keyed 323 5 0 0x1#32)).phase
        = .busy (.instr .decstream) snap ∧
      snap.keyconf = true ∧ snap.canDec = false) ∧
    ∃ snap, (started .decstream key8).phase = .busy (.instr .decstream) snap ∧
      snap.keyconf = true ∧ snap.canDec = true :=
  ⟨⟨_, rfl, rfl⟩, ⟨_, rfl, rfl, rfl⟩, ⟨_, rfl, rfl, rfl⟩, ⟨_, rfl, rfl, rfl⟩, ⟨_, rfl, rfl⟩,
    ⟨_, rfl, rfl, rfl⟩, ⟨_, rfl, rfl, rfl⟩, ⟨_, rfl, rfl, rfl⟩⟩

/-- In the frame loop of a direction, not aborted. -/
abbrev InLoop (dir : Dir) (s : State) : Prop := s.phase = .stream dir ∧ s.abortPend = false

/-- The widths of the key of §8. -/
theorem key8_frameIn (q : List Token) :
    frameIn .enc (streaming .enc q key8) = 4 ∧ frameIn .dec (streaming .dec q key8) = 5 ∧
    frameOut .enc (streaming .enc q key8) = 5 ∧ frameOut .dec (streaming .dec q key8) = 4 := by
  have hb : blklenOf (configPlen 8612189837 0x3#32) (clen 8612189837) = 0x00050004#32 := by
    decide +kernel
  have h : ∀ dir, (streaming dir q key8).blklen = 0x00050004#32 := fun _ => hb
  simp only [frameIn, frameOut, State.plen, State.clen, h]
  decide

theorem test_meets_FullFrameStep :
    (InLoop .enc (streaming .enc [.byte 3, .byte 0, .byte 0, .byte 0, .eos] key8) ∧
      [3, 0, 0, 0].length
        = frameIn .enc (streaming .enc [.byte 3, .byte 0, .byte 0, .byte 0, .eos] key8) ∧
      0 + frameOut .enc (streaming .enc [.byte 3, .byte 0, .byte 0, .byte 0, .eos] key8) ≤ 64) ∧
    InLoop .dec (streaming .dec (([1, 2, 3, 4, 5].map .byte) ++ []) key8) ∧
    [1, 2, 3, 4, 5].length
      = frameIn .dec (streaming .dec (([1, 2, 3, 4, 5].map .byte) ++ []) key8) ∧
    0 + frameOut .dec (streaming .dec (([1, 2, 3, 4, 5].map .byte) ++ []) key8) ≤ 64 := by
  simp only [key8_frameIn]; exact ⟨⟨⟨rfl, rfl⟩, by decide⟩, ⟨rfl, rfl⟩, by decide⟩

/-- One byte, and one byte less than a frame, before End. -/
theorem test_meets_ShortFinalFrameStep :
    (InLoop .enc (streaming .enc [.byte 3, .eos, .byte 7] key8) ∧
      1 < frameIn .enc (streaming .enc [.byte 3, .eos, .byte 7] key8) ∧
      0 + frameOut .enc (streaming .enc [.byte 3, .eos, .byte 7] key8) ≤ 64) ∧
    InLoop .dec (streaming .dec [.byte 1, .byte 2, .byte 3, .byte 4, .eos] key8) ∧
    4 < frameIn .dec (streaming .dec [.byte 1, .byte 2, .byte 3, .byte 4, .eos] key8) ∧
    0 + frameOut .dec (streaming .dec [.byte 1, .byte 2, .byte 3, .byte 4, .eos] key8)
      ≤ 64 := by
  simp only [key8_frameIn]; exact ⟨⟨⟨rfl, rfl⟩, by decide⟩, ⟨rfl, rfl⟩, by decide⟩

theorem test_meets_EndOfStreamStep :
    InLoop .enc (streaming .enc [.eos, .byte 7] key8) ∧
    (streaming .enc [.eos, .byte 7] key8).inq = .eos :: [.byte 7] ∧
    1 ≤ frameIn .enc (streaming .enc [.eos, .byte 7] key8) ∧
    InLoop .dec (streaming .dec [.eos] key8) ∧ 1 ≤ frameIn .dec (streaming .dec [.eos] key8) := by
  simp only [key8_frameIn]; exact ⟨⟨rfl, rfl⟩, rfl, by decide, ⟨rfl, rfl⟩, by decide⟩

/-- An empty stream. -/
theorem test_meets_EndOfStreamStep_empty :
    let s : State := { key8 with inq := [.eos], outq := [] }
    Inv s ∧ s.phase = .idle ∧ s.agenda = [] ∧ s.keyconf = true ∧ s.canEnc = true ∧
    s.canDec = true ∧ s.inq = .eos :: [] :=
  ⟨inv_queued key8 _ _ test_inv_key8 (by decide) (by decide), rfl, rfl, rfl, rfl, rfl, rfl⟩

/-- An Error token at a frame boundary, and one byte before a frame is complete. -/
theorem test_meets_IoErrorStep :
    InLoop .enc (streaming .enc [.error] key8) ∧
    (streaming .enc [.error] key8).inq = [].map Token.byte ++ .error :: [] ∧
    0 < frameIn .enc (streaming .enc [.error] key8) ∧
    InLoop .dec (streaming .dec [.byte 1, .byte 2, .byte 3, .byte 4, .error] key8) ∧
    4 < frameIn .dec (streaming .dec [.byte 1, .byte 2, .byte 3, .byte 4, .error] key8) := by
  simp only [key8_frameIn]; exact ⟨⟨rfl, rfl⟩, rfl, by decide, ⟨rfl, rfl⟩, by decide⟩

theorem test_meets_AbortStep :
    (∃ snap, (aborting .enc).phase = .busy (.instr (dirInstr .enc)) snap) ∧
    (aborting .enc).abortPend = true ∧
    ({ streaming .dec [] key8 with abortPend := true } : State).phase = .stream .dec :=
  ⟨⟨_, rfl⟩, rfl, rfl⟩

/-- Frame loops that hold for input and for room, and one that moves. -/
theorem test_meets_ExactlyOneFrameEvent :
    InLoop .enc (streaming .enc [] key8) ∧ frameEnabled .holdInput .enc (streaming .enc [] key8) ∧
    InLoop .dec (streaming .dec [.eos] key8) ∧
    ¬frameEnabled .holdInput .dec (streaming .dec [.eos] key8) ∧
    ¬frameEnabled .holdOutput .dec (streaming .dec [.eos] key8) ∧
    frameEnabled .holdOutput .enc { streaming .enc [.byte 3, .eos] key8 with
      cfg := ⟨64, 9, 8⟩, outq := [1, 2, 3, 4] } := by
  refine ⟨⟨rfl, rfl⟩, ?_, ⟨rfl, rfl⟩, ?_, ?_, ?_⟩ <;> unfold frameEnabled <;> decide +kernel

theorem test_meets_FrameTransforms :
    Inv key8 ∧ key8.keyconf = true ∧ [3, 0, 0, 0].length ≤ key8.plen ∧
    ([] : List Byte).length ≤ key8.plen :=
  ⟨test_inv_key8, rfl, by decide +kernel, by decide +kernel⟩

/-- The key 323 = 17 * 19 with the pair 5, 173, whose transforms undo each other. -/
theorem test_meets_FrameRoundTrip :
    Inv smallKey ∧ smallKey.keyconf = true ∧ [0xFF].length ≤ smallKey.plen ∧
    ([] : List Byte).length ≤ smallKey.plen ∧
    (∀ x, x < smallKey.keyN.toNat →
      modpow (modpow x smallKey.keyE.toNat smallKey.keyN.toNat) smallKey.keyD.toNat
        smallKey.keyN.toNat = x) := by
  have hn : smallKey.keyN.toNat = 323 := by decide +kernel
  have he : smallKey.keyE.toNat = 5 := by decide +kernel
  have hd : smallKey.keyD.toNat = 173 := by decide +kernel
  refine ⟨test_inv_smallKey, rfl, by decide +kernel, by decide +kernel, ?_⟩
  rw [hn, he, hd]
  decide +kernel

/-- One full chunk and a last chunk of one byte, and tokens behind End. -/
theorem test_meets_StreamCommandAsAFunction :
    let q : List Token := [.byte 3, .byte 0, .byte 0, .byte 0, .byte 5, .eos, .byte 7]
    let s : State := { key8 with inq := q, outq := [] }
    Inv s ∧ s.phase = .idle ∧ s.agenda = [] ∧ s.keyconf = true ∧ s.canEnc = true ∧
    (∀ c ∈ ([[3, 0, 0, 0]] : List (List Byte)), c.length = frameIn .enc s) ∧
    ([5] : List Byte).length < frameIn .enc s ∧
    s.inq = (([[3, 0, 0, 0]] : List (List Byte)).flatten ++ [5]).map Token.byte
      ++ .eos :: [.byte 7] ∧
    s.outq.length + frameOut .enc s * 2 ≤ s.cfg.outDepth := by
  refine ⟨inv_queued key8 _ _ test_inv_key8 (by decide) (by decide), rfl, rfl, rfl, rfl, ?_, ?_,
    rfl, ?_⟩ <;> decide +kernel

/-- Each command has a state in which its meaning answers a next state. -/
theorem exec_moves (i : Instr) : ∃ t, exec i (started i State.reset) = .next t := by
  cases i <;> exact ⟨_, rfl⟩

theorem test_meets_CommandsLeaveTheHostsState :
    ∃ t, exec .pow (started .pow State.reset) = .next t := exec_moves .pow

theorem test_meets_ScalarFrameOnTheBus :
    (∃ t, exec .decblk (started .decblk State.reset) = .next t) ∧
    Reg.wide .r1 0 ≠ .status ∧ (∀ k, Reg.wide .r1 0 ≠ .wide .r0 k) :=
  ⟨exec_moves .decblk, by decide, fun k => by simp⟩

theorem test_meets_StreamFrameOnTheBus :
    (∃ t, exec (dirInstr .enc) (started .encstream State.reset) = .next t) ∧
    (∃ t, exec (dirInstr .dec) (streaming .dec [.eos] key8) = .next t) ∧
    Reg.ctrl ≠ .status ∧ Reg.ctrl ≠ .errinfo ∧ Reg.ctrl ≠ .frames ∧ Reg.ctrl ≠ .levels :=
  ⟨exec_moves .encstream, ⟨_, rfl⟩, by decide⟩

theorem test_meets_FailedCommandsWriteNothing :
    ∃ t, engineStep (started .encblk State.reset) = .next t ∧
      (started .encblk State.reset).errcode = .none ∧ t.errcode ≠ .none :=
  ⟨_, rfl, rfl, by decide⟩

theorem test_meets_CommandsReadTheirSnapshotOnly :
    Instr.gcd ≠ .encstream ∧ Instr.gcd ≠ .decstream ∧
    (started .gcd State.reset).cfg = Config.params ∧
    ∃ snap, (started .gcd State.reset).phase = .busy (.instr .gcd) snap :=
  ⟨by decide, by decide, rfl, ⟨_, rfl⟩⟩

/-- No reset is next where the agenda is empty. -/
theorem not_resetMove (s : State) (h : s.agenda = []) : ¬ResetMove s := by
  rintro (⟨rest, hr⟩ | ⟨off, v, rest, hr, -⟩) <;> rw [h] at hr <;> cases hr

theorem test_meets_KeyIsImmutable :
    (PhaseOk (started .encstream key8) ∧ (∃ t, step (started .encstream key8) = .next t) ∧
      (started .encstream key8).keyconf = true ∧ ¬ResetMove (started .encstream key8)) ∧
    ((∃ t, step { key8 with agenda := [.host .rst] } = .next t) ∧
      ResetMove { key8 with agenda := [.host .rst] } ∧
      ResetMove { key8 with agenda := [.host (.write 0x0010#14 32 0x4#32)] }) ∧
    ∃ t, step (started .config (keyWritten 256 3 0 0x1#32)) = .next t ∧
      (started .config (keyWritten 256 3 0 0x1#32)).keyconf = false ∧ t.keyconf = true :=
  ⟨⟨test_inv_busy.phase, ⟨_, rfl⟩, rfl, not_resetMove _ rfl⟩,
    ⟨⟨_, rfl⟩, .inl ⟨_, rfl⟩, .inr ⟨_, _, _, rfl, by decide, by decide⟩⟩,
    ⟨_, rfl, rfl, by decide +kernel⟩⟩

theorem test_meets_ResultRegistersChangeAtCompletionOnly :
    (∃ t, step (started .gcd (operands 12 18 0)) = .next t ∧
      ¬ResetMove (started .gcd (operands 12 18 0)) ∧
      t.r0 ≠ (started .gcd (operands 12 18 0)).r0) ∧
    ∃ t, step (started .xgcd (operands 4632 61551 0)) = .next t ∧
      ¬ResetMove (started .xgcd (operands 4632 61551 0)) ∧
      t.r1 ≠ (started .xgcd (operands 4632 61551 0)).r1 :=
  ⟨⟨_, rfl, not_resetMove _ rfl, by decide +kernel⟩,
    ⟨_, rfl, not_resetMove _ rfl, by decide +kernel⟩⟩

/-- FRAMES changes at an output frame, and at an acceptance that finds it not 0. -/
theorem test_meets_FramesCountsOutputFrames :
    (∃ t, step (streaming .enc [.byte 3, .eos] key8) = .next t ∧
      ¬ResetMove (streaming .enc [.byte 3, .eos] key8) ∧
      t.frames ≠ (streaming .enc [.byte 3, .eos] key8).frames) ∧
    ∃ t, step { key8 with frames := 2, agenda := [.host (cmd .encstream)] } = .next t ∧
      ¬ResetMove { key8 with frames := 2, agenda := [.host (cmd .encstream)] } ∧
      t.frames ≠ 2 := by
  refine ⟨⟨_, rfl, not_resetMove _ rfl, by decide +kernel⟩, ⟨_, rfl, ?_, by decide⟩⟩
  rintro (⟨rest, h⟩ | ⟨off, v, rest, h, h1, -⟩)
  · cases h
  · simp only [List.cons.injEq, Move.host.injEq, cmd, wr, HostAction.write.injEq] at h
    rw [← h.1.1] at h1
    exact absurd h1 (by decide)

theorem test_meets_OverrunIsSticky :
    (∃ t, step { started .gcd State.reset with agenda := [.host (cmd .nop)] } = .next t ∧
      ¬ResetMove { started .gcd State.reset with agenda := [.host (cmd .nop)] } ∧
      t.overrun = true) ∧
    ∃ t, step { State.reset with overrun := true, agenda := [.host clr] } = .next t ∧
      ¬ResetMove { State.reset with overrun := true, agenda := [.host clr] } ∧
      t.overrun = false := by
  refine ⟨⟨_, rfl, ?_, by decide⟩, ⟨_, rfl, ?_, by decide⟩⟩ <;>
    rintro (⟨rest, h⟩ | ⟨off, v, rest, h, h1, -⟩)
  all_goals first
    | cases h; done
    | (simp only [List.cons.injEq, Move.host.injEq, cmd, clr, wr, HostAction.write.injEq] at h
       rw [← h.1.1] at h1
       exact absurd h1 (by decide))

end Sys2Proof.Tests
end

/-! PROOFS. The scope of the model (spec/00_scope.md): what every step keeps, that the block never
halts, which step it takes, and the byte sequences of R10. -/

namespace Sys2Proof.Scope

open Sys2Proof.Machine Sys2Proof.Laws

/-! Byte sequences (R10). -/

/-- Byte `i` of `LE_n(v)` is the low byte of `v >> 8i`. -/
theorem leBytes_getElem? (n v i : Nat) (hi : i < n) :
    (leBytes n v)[i]? = some (BitVec.ofNat 8 (v / 256 ^ i)) := by
  induction n generalizing v i with
  | zero => omega
  | succ n ih =>
    cases i with
    | zero => simp [leBytes]
    | succ i =>
      rw [leBytes, List.getElem?_cons_succ, ih (v / 256) i (by omega), Nat.div_div_eq_div_mul,
        ← pow_succ']

/-- The weighted sum of a byte sequence whose first byte has the weight `256^k`. -/
theorem sum_weighted_bytes (bs : List Byte) (k : Nat) :
    (bs.mapIdx fun i b => b.toNat * 256 ^ (i + k)).sum = fromLE bs * 256 ^ k := by
  induction bs generalizing k with
  | nil => simp [fromLE]
  | cons b bs ih =>
    have htail : (bs.mapIdx fun i b => b.toNat * 256 ^ (i + 1 + k)).sum
        = fromLE bs * 256 ^ (k + 1) := by
      simpa only [Nat.add_assoc, Nat.add_comm 1 k] using ih (k + 1)
    rw [List.mapIdx_cons, List.sum_cons, htail, fromLE, Nat.zero_add, pow_succ]
    ring

/-- Settles O5: the length, the bytes, the sum and both inverses. -/
theorem littleEndianBytes : Obligations.LittleEndianBytes := by
  refine ⟨fun n v => ⟨leBytes_length n v, leBytes_getElem? n v⟩, fun bs => ?_, fun n v hv => ?_,
    leBytes_fromLE⟩
  · simpa using (sum_weighted_bytes bs 0).symm
  · rw [fromLE_leBytes, Nat.mod_eq_of_lt hv]

/-! The moves to come and the last reply are the model's own (log 1, log 3): the block's operations
carry them along. -/

/-- Completion leaves the agenda and the reply alone. -/
theorem complete_moves (r : Report) (s : State) (m : List Move) (p : Reply) :
    complete r { s with agenda := m, reply := p }
      = { complete r s with agenda := m, reply := p } := by
  unfold complete applyWrites
  cases r.writes.key <;> split <;> rfl

/-- Other moves to come and another reply keep the state consistent. -/
theorem inv_moves {s : State} (h : Inv s) (m : List Move) (p : Reply) :
    Inv { s with agenda := m, reply := p } :=
  inv_update h s.irqEn s.overrun s.frames s.inq s.outq m p h.queues.inq h.queues.outq

/-! Every step keeps the state consistent. -/

/-- Either reset leaves a consistent state (R44, R230). -/
theorem resetBlock_inv (s : State) (h : Inv s) : Inv (resetBlock s) :=
  inv_moves (inv_resetOf s.cfg h.legal) s.agenda .none

/-- A host action keeps the state consistent (R14). -/
theorem hostStep_inv (a : HostAction) (s t : State) (h : Inv s) (ht : hostStep a s = some t) :
    Inv t := by
  rcases hostStep_cases a s t ht with ⟨_, _, -, r, rfl⟩ | ⟨off, _, v, -, -, rfl⟩ |
    ⟨_, _, _, -, -, rfl⟩ | ⟨k, -, hroom, rfl⟩ | ⟨b, rest, -, hout, rfl⟩ | ⟨-, rfl⟩
  · exact inv_moves h s.agenda r
  · have hw := regWrite_inv (regAt off.toNat) v s h
    exact inv_moves hw (regWrite (regAt off.toNat) v s).agenda .done
  · exact inv_moves h s.agenda .error
  · exact inv_update h s.irqEn s.overrun s.frames (s.inq ++ [decodeToken k]) s.outq s.agenda .done
      (by simpa using hroom) h.queues.outq
  · have hle : (b :: rest).length ≤ s.cfg.outDepth := hout ▸ h.queues.outq
    exact inv_update h s.irqEn s.overrun s.frames s.inq rest s.agenda (.byte b) h.queues.inq
      (Nat.le_of_succ_le hle)
  · exact resetBlock_inv s h

/-- An engine step keeps the state consistent (R102, R105, R176 to R182). -/
theorem engineStep_inv (s t : State) (h : Inv s) (ht : engineStep s = .next t) : Inv t := by
  rcases engineStep_cases s with ⟨-, e⟩ | ⟨i, snap, r, hp, hr, e⟩ | ⟨dir, snap, hp, e⟩ |
    ⟨w, _, -, e⟩ | ⟨dir, -, e⟩ <;> obtain rfl := Host.Outcome.next.inj (e.symm.trans ht)
  · exact h
  · exact complete_inv r s h (scalarReport_good i s snap r h hp hr)
  · exact streamCheck_inv dir snap s h hp
  · exact complete_inv _ s h (goodReport_raise s .illegalCommand w (by decide))
  · exact streamStep_inv dir s h

/-- Settles O8: the host's action, the turn of WAIT and the engine's step each keep `Inv`. -/
theorem invariantKeptByEveryStep : Obligations.InvariantKeptByEveryStep := by
  intro s t h ht
  rcases step_cases s with ⟨a, rest, u, -, hu, e⟩ | ⟨gaps, rest, -, e⟩ | ⟨rest, e, -⟩
  · obtain rfl := Host.Outcome.next.inj (e.symm.trans ht)
    exact hostStep_inv a { s with agenda := rest } u (inv_moves h rest s.reply) hu
  · obtain rfl := Host.Outcome.next.inj (e.symm.trans ht)
    rw [waitTurn_eq]
    exact inv_moves h _ _
  · exact engineStep_inv { s with agenda := rest } t (inv_moves h rest s.reply) (e.symm.trans ht)

/-- Settles O9: reset is consistent for every legal parameters, and `Config.params` are legal. -/
theorem resetIsConsistent : Obligations.ResetIsConsistent :=
  ⟨inv_resetOf, inv_resetOf Config.params (by decide)⟩

/-! No step changes the parameters. -/

/-- No register write changes the parameters (R6, R23). -/
@[simp] theorem regWrite_cfg (r : Reg) (v : Word) (s : State) : (regWrite r v s).cfg = s.cfg := by
  cases r with
  | ctrl =>
    show (ctrlWrite v s).cfg = s.cfg
    cases hs : v.getLsbD 2
    · rw [ctrlWrite_no_srst v s hs]
    · rw [ctrlWrite_srst v s hs, resetBlock_cfg]
  | status => exact clearReport_cfg v s
  | cmd =>
    show (cmdWrite v s).cfg = s.cfg
    cases hb : s.busy
    · rw [cmdWrite_idle v s hb, accept_cfg]
    · rw [cmdWrite_busy v s hb]
  | keycfg =>
    show (keycfgWrite v s).cfg = s.cfg
    simp only [keycfgWrite, apply_ite State.cfg, ite_self]
  | wide x i =>
    show (wideWrite x i v s).cfg = s.cfg
    cases x <;> simp only [wideWrite, apply_ite State.cfg, ite_self]
  | _ => rfl

/-- No host action changes the parameters. -/
theorem hostStep_cfg (a : HostAction) (s t : State) (ht : hostStep a s = some t) :
    t.cfg = s.cfg := by
  rcases hostStep_cases a s t ht with ⟨_, _, -, _, rfl⟩ | ⟨off, _, v, -, -, rfl⟩ |
    ⟨_, _, _, -, -, rfl⟩ | ⟨_, -, -, rfl⟩ | ⟨_, _, -, -, rfl⟩ | ⟨-, rfl⟩
  · rfl
  · exact regWrite_cfg (regAt off.toNat) v s
  · rfl
  · rfl
  · rfl
  · rfl

/-- No check step of a stream command changes the parameters. -/
@[simp] theorem streamCheck_cfg (dir : Dir) (snap : Snapshot) (s : State) :
    (streamCheck dir snap s).cfg = s.cfg := by
  rcases streamCheck_cases dir snap s with ⟨-, e⟩ | ⟨-, -, e⟩ | ⟨-, -, -, e⟩ | ⟨-, -, -, e⟩ <;>
    simp [e, abortStep]

/-- No step of the frame loop changes the parameters. -/
@[simp] theorem streamStep_cfg (dir : Dir) (s : State) : (streamStep dir s).cfg = s.cfg := by
  rcases streamStep_cases dir s with ⟨-, e⟩ | ⟨-, -, -, e⟩ | ⟨-, -, -, e⟩ | ⟨-, -, -, -, e⟩ |
    ⟨-, -, e⟩ | ⟨-, e⟩ <;> simp [e, abortStep, fullFrame, endStep, shortFrame, ioErrorStep]

/-- No engine step changes the parameters. -/
theorem engineStep_cfg (s t : State) (ht : engineStep s = .next t) : t.cfg = s.cfg := by
  rcases engineStep_cases s with ⟨-, e⟩ | ⟨_, _, _, -, -, e⟩ | ⟨_, _, -, e⟩ | ⟨_, _, -, e⟩ |
    ⟨_, -, e⟩ <;> obtain rfl := Host.Outcome.next.inj (e.symm.trans ht) <;> simp

/-- Settles O10: neither a host action, a turn of WAIT nor an engine step writes the parameters. -/
theorem parametersNeverChange : Obligations.ParametersNeverChange := by
  intro s t ht
  rcases step_cases s with ⟨a, rest, u, -, hu, e⟩ | ⟨gaps, rest, -, e⟩ | ⟨rest, e, -⟩
  · obtain rfl := Host.Outcome.next.inj (e.symm.trans ht)
    exact hostStep_cfg a { s with agenda := rest } u hu
  · obtain rfl := Host.Outcome.next.inj (e.symm.trans ht)
    rw [waitTurn_eq]
  · exact engineStep_cfg { s with agenda := rest } t (e.symm.trans ht)

/-! Which step the engine takes. -/

/-- Busy with a command of the table, the engine's step is its meaning (R102). -/
theorem engineStep_instr (s : State) (i : Instr) (snap : Snapshot)
    (hp : s.phase = .busy (.instr i) snap) : engineStep s = exec i s := by
  simp [engineStep, hp]

/-- In the frame loop, the engine's step is the meaning of the stream command (R175). -/
theorem engineStep_stream (s : State) (dir : Dir) (hp : s.phase = .stream dir) :
    engineStep s = exec (dirInstr dir) s := by
  simp [engineStep, hp]

/-- Busy with a word of no command, the engine's step is the error completion (R105). -/
theorem engineStep_illegal (s : State) (w : Word) (snap : Snapshot)
    (hp : s.phase = .busy (.illegal w) snap) :
    engineStep s = .next (failed .illegalCommand w s) := by
  simp only [engineStep, hp]
  rfl

/-- In Idle the engine has no step (log 5). -/
theorem engineStep_idle (s : State) (hp : s.phase = .idle) : engineStep s = .next s := by
  simp [engineStep, hp]

/-- An engine step always answers a next state (R16). -/
theorem engineStep_next (s : State) : ∃ t, engineStep s = .next t := by
  rcases engineStep_cases s with ⟨-, e⟩ | ⟨_, _, _, -, -, e⟩ | ⟨_, _, -, e⟩ | ⟨_, _, -, e⟩ |
    ⟨_, -, e⟩ <;> exact ⟨_, e⟩

/-- A 32-bit write at 0x0018 is a write to CMD (R23, R53). -/
theorem hostStep_cmdWrite (w : Word) (s : State) :
    hostStep (.write 0x0018#14 32 w) s = some { cmdWrite w s with reply := .done } :=
  congrArg some (busWrite_decoded 0x0018#14 32 w s (by decide))

/-- A CMD write in Idle is the step, and accepts the command (R100). -/
theorem step_cmdWrite_idle (s : State) (w : Word) (rest : List Move) (hp : s.phase = .idle)
    (ha : s.agenda = .host (.write 0x0018#14 32 w) :: rest) :
    step s = .next { accept w s with agenda := rest, reply := .done } := by
  refine step_host s _ rest _ ha ?_
  rw [hostStep_cmdWrite, cmdWrite_idle w { s with agenda := rest } ((busy_eq_false_iff _).2 hp)]
  rfl

/-- WAIT ends at a read of BUSY = 0 (R83). -/
theorem step_wait_idle (s : State) (gaps : List Nat) (rest : List Move)
    (ha : s.agenda = .wait gaps :: rest) (hb : s.busy = false) :
    step s = .next { s with agenda := rest, reply := .data s.statusWord } := by
  rw [step_wait s gaps rest ha, waitTurn_eq, if_neg (by simp [hb])]

/-- WAIT goes back to its read at a read of BUSY = 1 (R83). -/
theorem step_wait_busy (s : State) (gaps : List Nat) (rest : List Move)
    (ha : s.agenda = .wait gaps :: rest) (hb : s.busy = true) :
    step s = .next { s with agenda := waitAgain gaps rest, reply := .data s.statusWord } := by
  rw [step_wait s gaps rest ha, waitTurn_eq, if_pos hb]

/-- A command word of 32 bits is placed as it is (log 7). -/
theorem withFetchWord_32 (s : State) (w : Word) :
    s.withFetchWord 32 w.toNat = placeCommand w s := by
  rw [State.withFetchWord, Nat.mod_eq_of_lt w.isLt, BitVec.ofNat_toNat, BitVec.setWidth_eq]

/-- Settles O6: the engine's step depends on the phase alone, and the moves to come say whether it
is the step of the block. -/
theorem stepRunsTheCommandInProgress : Obligations.StepRunsTheCommandInProgress := by
  refine ⟨fun s meaning hm => ?_, fun s t a rest ha ht => step_host s a rest t ha ht,
    fun s w rest hp ha => step_cmdWrite_idle s w rest hp ha, fun s gaps rest ha =>
      ⟨step_wait_idle s gaps rest ha, step_wait_busy s gaps rest ha⟩,
    fun s w i hd => ?_⟩
  · have hengine : ∀ m, engineStep { s with agenda := m } = meaning { s with agenda := m } := by
      intro m
      rcases hm with ⟨i, snap, hp, rfl⟩ | ⟨dir, hp, rfl⟩ | ⟨w, snap, hp, rfl⟩ | ⟨hp, rfl⟩
      · exact engineStep_instr _ i snap hp
      · exact engineStep_stream _ dir hp
      · exact engineStep_illegal _ w snap hp
      · exact engineStep_idle _ hp
    exact ⟨fun ha => (step_engine_alone s ha).trans (hengine s.agenda),
      fun rest ha => (step_engine_turn s rest ha).trans (hengine rest),
      fun a rest ha hn => (step_host_waits s a rest ha hn).trans (hengine s.agenda)⟩
  · rw [withFetchWord_32]
    have hp : (placeCommand w s).phase = .busy (.instr i) (takeSnapshot s) := by
      rw [placeCommand, accept_phase, hd]
      rfl
    exact (step_engine_alone _ rfl).trans (engineStep_instr _ i _ hp)

/-- Settles O25: a push waits for room, a pop for a byte. -/
theorem portActions : Obligations.PortActions := by
  intro s k
  refine ⟨fun hroom => ?_, fun hfull => ?_, fun b rest hout => ?_, fun hempty => ?_,
    fun a rest ha hn => step_host_waits s a rest ha hn⟩
  · simp [hostStep, portPush, hroom]
  · simp [hostStep, portPush, Nat.not_lt.2 hfull]
  · simp [hostStep, portPop, hout]
  · simp [hostStep, portPop, hempty]

/-! `RUN M` comes to its end. -/

/-- Every command of the table decodes from its word (R72, R73). -/
theorem decode_encodeInstr (i : Instr) : decode (encodeInstr i) = .instr i := by
  cases i <;> decide

/-- A command that is no stream command has a report (R102). -/
theorem scalarReport_of_not_stream (p : Params) (i : Instr) (snap : Snapshot)
    (he : i ≠ .encstream) (hd : i ≠ .decstream) : ∃ r, scalarReport p i snap = some r := by
  cases i
  case encstream => exact absurd rfl he
  case decstream => exact absurd rfl hd
  all_goals exact ⟨_, rfl⟩

/-- The meaning of a command with a report is its completion (R102). -/
theorem exec_scalar (i : Instr) (s : State) (snap : Snapshot) (r : Report)
    (hp : s.phase = .busy (.instr i) snap) (hr : scalarReport s.cfg i snap = some r) :
    exec i s = .next (complete r s) := by
  rcases exec_busy i s snap hp with ⟨r', hr', e⟩ | ⟨dir, rfl, -⟩
  · rw [e, Option.some.inj (hr'.symm.trans hr)]
  · cases dir <;> cases hr

/-- The block comes from `s` to `t` in some number of steps. -/
def Reaches (s t : State) : Prop := ∃ n, Host.Core.run Sys2Proof.core n s = .next t

/-- No step is needed to stay. -/
theorem Reaches.refl (s : State) : Reaches s s := ⟨0, rfl⟩

/-- A step, and then the rest of the way. -/
theorem Reaches.head {s t u : State} (h : step s = .next t) : Reaches t u → Reaches s u :=
  fun ⟨n, hn⟩ => ⟨n + 1, (run_succ n s t h).trans hn⟩

/-- The moves that end a RUN: `k` turns of the engine, then WAIT (R83, R88). -/
def turnsThenWait (k : Nat) (gaps : List Nat) (rest : List Move) : List Move :=
  List.replicate k .engine ++ .wait gaps :: rest

/-- In Idle the engine's turns pass and WAIT ends at its first read (R83). -/
theorem reaches_wait_idle (s : State) (hp : s.phase = .idle) (k : Nat) (gaps : List Nat)
    (rest : List Move) (p : Reply) :
    Reaches { s with agenda := turnsThenWait k gaps rest, reply := p }
      { s with agenda := rest, reply := .data s.statusWord } := by
  induction k with
  | zero =>
    exact .head (step_wait_idle _ gaps rest rfl ((busy_eq_false_iff _).2 hp)) (.refl _)
  | succ k ih => exact .head ((step_engine_turn _ _ rfl).trans (engineStep_idle _ hp)) ih

section RunningScalar

variable {i : Instr} {s : State} {snap : Snapshot} {r : Report}

/-- The engine's step for the command in progress, with any moves to come (R102). -/
theorem engineStep_scalar (hp : s.phase = .busy (.instr i) snap)
    (hr : scalarReport s.cfg i snap = some r) (m : List Move) (p : Reply) :
    engineStep { s with agenda := m, reply := p }
      = .next { complete r s with agenda := m, reply := p } :=
  calc engineStep { s with agenda := m, reply := p }
    _ = exec i { s with agenda := m, reply := p } := engineStep_instr _ i snap hp
    _ = .next (complete r { s with agenda := m, reply := p }) := exec_scalar i _ snap r hp hr
    _ = _ := congrArg _ (complete_moves r s m p)

/-- The engine's first turn completes the command in progress, and WAIT ends after it. -/
theorem reaches_wait_turn (hp : s.phase = .busy (.instr i) snap)
    (hr : scalarReport s.cfg i snap = some r) (k : Nat) (gaps : List Nat) (rest : List Move)
    (p : Reply) :
    Reaches { s with agenda := turnsThenWait (k + 1) gaps rest, reply := p }
      { complete r s with agenda := rest, reply := .data (complete r s).statusWord } :=
  .head ((step_engine_turn _ (turnsThenWait k gaps rest) rfl).trans (engineStep_scalar hp hr _ p))
    (reaches_wait_idle _ (complete_phase r s) k gaps rest p)

/-- WAIT ends however many turns the engine has before and between its reads: a read of BUSY = 1
takes one entry of `gaps`, and past the list the engine has a turn (R83, log 15). -/
theorem reaches_wait_busy (hp : s.phase = .busy (.instr i) snap)
    (hr : scalarReport s.cfg i snap = some r) (k : Nat) (gaps : List Nat) (rest : List Move)
    (p : Reply) :
    Reaches { s with agenda := turnsThenWait k gaps rest, reply := p }
      { complete r s with agenda := rest, reply := .data (complete r s).statusWord } := by
  have hbusy : s.busy = true := by simp [State.busy, hp]
  induction gaps generalizing k p with
  | nil =>
    cases k with
    | zero => exact .head (step_wait_busy _ [] rest rfl hbusy) (reaches_wait_turn hp hr 0 [] rest _)
    | succ k => exact reaches_wait_turn hp hr k [] rest p
  | cons g gaps ih =>
    cases k with
    | zero => exact .head (step_wait_busy _ (g :: gaps) rest rfl hbusy) (ih g _)
    | succ k => exact reaches_wait_turn hp hr k (g :: gaps) rest p

end RunningScalar

/-- No step faults or is refused (R16). -/
theorem safe (s : State) : Safe s := by
  rcases step_cases s with ⟨_, _, t, -, -, e⟩ | ⟨gaps, rest, -, e⟩ | ⟨rest, e, -⟩
  · exact ⟨t, e⟩
  · exact ⟨_, e⟩
  · obtain ⟨t, ht⟩ := engineStep_next { s with agenda := rest }
    exact ⟨t, e.trans ht⟩

/-- Settles O7: RUN's CMD write is accepted in Idle, and its WAIT ends after the completion. -/
theorem blockNeverHalts : Obligations.BlockNeverHalts := by
  refine ⟨safe, fun s i lead gaps rest he hd hp ha => ?_⟩
  have hbusy : (accept (encodeInstr i) s).phase = .busy (.instr i) (takeSnapshot s) := by
    rw [accept_phase, decode_encodeInstr]
  obtain ⟨r, hr⟩ := scalarReport_of_not_stream s.cfg i (takeSnapshot s) he hd
  have hagenda : s.agenda = .host (.write 0x0018#14 32 (encodeInstr i))
      :: turnsThenWait lead gaps rest := by
    rw [ha]
    simp [runCommand, turnsThenWait, wait, cmd, wr, regOffset]
  obtain ⟨n, hn⟩ := Reaches.head (step_cmdWrite_idle s _ _ hp hagenda)
    (reaches_wait_busy hbusy hr lead gaps rest .done)
  exact ⟨n, complete r (accept (encodeInstr i) s), exec_scalar i _ _ r hbusy hr, rfl, rfl, hn⟩

end Sys2Proof.Scope

/-! PROOFS. The state of the block (spec/10_state.md): the register window, what each move may
write, and the frames of the commands. -/

namespace Sys2Proof.BlockState

open Sys2Proof.Machine Sys2Proof.Laws Sys2Proof.Scope

/-! The ranges of the parameters (R6). -/

/-- The depths of the queues have 16 bits (R6). -/
theorem legal_depths {p : Params} (h : p.legal = true) :
    p.inDepth < 2 ^ 16 ∧ p.outDepth < 2 ^ 16 := by
  simp only [Params.legal, Bool.and_eq_true, decide_eq_true_eq] at h
  omega

/-- A wide register has at most the 128 words of its window (R6, R23). -/
theorem legal_words {p : Params} (h : p.legal = true) : p.words ≤ 128 := by
  obtain ⟨-, -, hopw⟩ := legal_opw h
  rw [Params.words]
  omega

/-! Decoded accesses, by the register at their offset (R23, R53). -/

section Access

variable {off : Offset} {r : Reg} (hr : regAt off.toNat = r) (ha : off.toNat % 4 = 0)

include hr ha

/-- An aligned 32-bit read answers the register at its offset. -/
theorem hostStep_read_reg (s : State) :
    hostStep (.read off 32) s = some { s with reply := .data (regRead s r) } := by
  rw [← hr]
  exact congrArg some (busRead_decoded off 32 s (by simp [accessDecoded, ha]))

/-- An aligned 32-bit write is the write of the register at its offset. -/
theorem hostStep_write_reg (v : Word) (s : State) :
    hostStep (.write off 32 v) s = some { regWrite r v s with reply := .done } := by
  rw [← hr]
  exact congrArg some (busWrite_decoded off 32 v s (by simp [accessDecoded, ha]))

end Access

/-- An access that is not an aligned 32-bit one is not decoded (R53). -/
theorem accessDecoded_eq_false {off : Offset} {width : Nat} (h : off.toNat % 4 ≠ 0 ∨ width ≠ 32) :
    accessDecoded off width = false := by
  rcases h with h | h <;> simp [accessDecoded, h]

/-- Word `i` of a wide register stands `4 * i` bytes into its window (R23). -/
theorem regAt_wide (x : WideReg) (i : Nat) (hi : i < 128) :
    regAt (wideBase x + 4 * i) = .wide x i :=
  regAt_regOffset (.wide x i) fun _ _ h => by cases h; exact hi

/-- The reserved offsets (R23). -/
theorem regAt_reserved {o : Nat} (h : o = 0x000C ∨ (0x0030 ≤ o ∧ o ≤ 0x0FFF) ∨ 0x2200 ≤ o) :
    regAt o = .reserved := by
  rcases h with rfl | ⟨hlo, hhi⟩ | hlo
  · rfl
  · unfold regAt
    iterate 11 rw [if_neg (by omega)]
    exact if_pos (by omega)
  · unfold regAt
    iterate 21 rw [if_neg (by omega)]

/-! Reset, the constants, LEVELS and the register map (R23 to R26, R34, R44). -/

/-- Settles O14: both resets leave `resetBlock`, and no register shows what it keeps but the
constants. -/
theorem resetLeavesTheResetValues : Obligations.ResetLeavesTheResetValues := by
  intro s v IsReset
  have hstatus : State.reset.statusWord = 0 := by decide
  have hlevels : regRead State.reset .levels = 0 := by decide
  have hreset : ∀ p : Reply, IsReset { resetBlock s with reply := p } := fun p =>
    ⟨rfl, hstatus, rfl, hlevels, rfl, rfl, rfl⟩
  refine ⟨⟨_, rfl, hreset .none⟩, fun hv => ⟨_, ?_, hreset .done⟩⟩
  rw [hostStep_write_reg (r := .ctrl) rfl rfl v s, regWrite, ctrlWrite_srst v s hv]

/-- Settles O15: the parameters fit the 16-bit fields that show them. -/
theorem identificationRegisters : Obligations.IdentificationRegisters := by
  intro s hl
  obtain ⟨-, -, hopw⟩ := legal_opw hl
  obtain ⟨hin, hout⟩ := legal_depths hl
  refine ⟨⟨rfl, rfl⟩, ⟨rfl, ?_, highHalf_append _ _⟩, ⟨rfl, ?_, ?_⟩, fun v =>
    ⟨⟨_, hostStep_write_reg rfl rfl v s⟩, ⟨_, hostStep_write_reg rfl rfl v s⟩,
      ⟨_, hostStep_write_reg rfl rfl v s⟩⟩⟩
  · rw [regRead, lowHalf_append, BitVec.toNat_ofNat, Nat.mod_eq_of_lt (by omega)]
  · rw [regRead, lowHalf_append, BitVec.toNat_ofNat, Nat.mod_eq_of_lt hin]
  · rw [regRead, highHalf_append, BitVec.toNat_ofNat, Nat.mod_eq_of_lt hout]

/-- Settles O16: the queues are within their depths, which fit 16 bits. -/
theorem levelsShowTheQueues : Obligations.LevelsShowTheQueues := by
  intro s h
  obtain ⟨hin, hout⟩ := legal_depths h.legal
  have hinq := h.queues.inq
  have houtq := h.queues.outq
  refine ⟨rfl, ?_, ?_, fun v => ⟨_, hostStep_write_reg rfl rfl v s⟩⟩
  · rw [regRead, lowHalf_append, BitVec.toNat_ofNat, Nat.mod_eq_of_lt (by omega)]
  · rw [regRead, highHalf_append, BitVec.toNat_ofNat, Nat.mod_eq_of_lt (by omega)]

/-- Settles O17: the register at an aligned offset decides what the access does. -/
theorem undecodedAndReservedAccesses : Obligations.UndecodedAndReservedAccesses := by
  refine ⟨fun s off v => ⟨fun width h => ?_, fun ha => hostStep_read_reg rfl ha s, fun ha ho => ?_⟩,
    by decide, fun i hi => ?_, by decide, fun s v => ?_⟩
  · obtain ⟨hread, hwrite⟩ := busAccess_undecoded off width v s (accessDecoded_eq_false h)
    exact ⟨congrArg some hread, congrArg some hwrite⟩
  · have hreg := regAt_reserved ho
    exact ⟨hostStep_read_reg hreg ha s, hostStep_write_reg hreg ha v s⟩
  · exact ⟨regAt_wide .opa i hi, regAt_wide .opb i hi, regAt_wide .opc i hi, regAt_wide .r0 i hi,
      regAt_wide .r1 i hi, regAt_wide .r2 i hi, regAt_wide .keyN i hi, regAt_wide .keyE i hi,
      regAt_wide .keyD i hi⟩
  · have hread := fun r (off : Offset) hr ha => hostStep_read_reg (off := off) (r := r) hr ha s
    have hwrite := fun r (off : Offset) hr ha => hostStep_write_reg (off := off) (r := r) hr ha v s
    exact ⟨hread .cmd _ rfl rfl, hread .errinfo _ rfl rfl, hread .keycfg _ rfl rfl,
      hread .blklen _ rfl rfl, hread .frames _ rfl rfl, hwrite .errinfo _ rfl rfl,
      hwrite .blklen _ rfl rfl, hwrite .frames _ rfl rfl⟩

/-! STATUS (R28). -/

/-- A field is read back from its own place. -/
theorem fieldAt_extractLsb'_same (lo : Nat) {n : Nat} (x : BitVec n) (h : lo + n ≤ 32) :
    (fieldAt lo x).extractLsb' lo n = x := by
  apply BitVec.eq_of_getLsbD_eq
  intro j hj
  rw [BitVec.getLsbD_extractLsb', fieldAt_getLsbD]
  simp [hj, show lo + j < 32 by omega]

/-- A field is 0 in every other place. -/
theorem fieldAt_extractLsb'_other (lo : Nat) {n : Nat} (x : BitVec n) (start len : Nat)
    (h : start + len ≤ lo ∨ lo + n ≤ start) : (fieldAt lo x).extractLsb' start len = 0#len := by
  apply BitVec.eq_of_getLsbD_eq
  intro j hj
  rw [BitVec.getLsbD_extractLsb', fieldAt_getLsbD]
  rcases h with h | h
  · simp [show start + j < lo by omega]
  · simp [BitVec.getLsbD_of_ge x (start + j - lo) (by omega)]

/-- The one-bit fields of STATUS stand in bits 0 to 9 (R28). -/
theorem statusWord_flags (s : State) :
    s.statusWord.getLsbD 0 = s.busy ∧ s.statusWord.getLsbD 1 = s.done ∧
    s.statusWord.getLsbD 2 = s.err ∧ s.statusWord.getLsbD 3 = s.noinv ∧
    s.statusWord.getLsbD 4 = s.short ∧ s.statusWord.getLsbD 5 = s.overrun ∧
    s.statusWord.getLsbD 6 = s.keyconf ∧ s.statusWord.getLsbD 7 = s.canEnc ∧
    s.statusWord.getLsbD 8 = s.canDec ∧ s.statusWord.getLsbD 9 = s.abortPend := by
  simp only [State.statusWord, BitVec.getLsbD_or, fieldAt_getLsbD]
  simp

/-- ERRCODE and CUR_OP stand in bits 15:12 and 23:16 of STATUS; the reserved bits are 0 (R28). -/
theorem statusWord_fields (s : State) :
    s.statusWord.extractLsb' 10 2 = 0#2 ∧ s.statusWord.extractLsb' 12 4 = errCodeBits s.errcode ∧
    s.statusWord.extractLsb' 16 8 = s.curOp ∧ s.statusWord.extractLsb' 24 8 = 0#8 := by
  simp (disch := omega) only [State.statusWord, BitVec.extractLsb'_or, fieldAt_extractLsb'_same,
    fieldAt_extractLsb'_other, BitVec.or_zero, BitVec.zero_or, and_self]

/-- Settles O18: each field is read at its own place and is 0 elsewhere. -/
theorem statusWordAndItsClearing : Obligations.StatusWordAndItsClearing := by
  refine ⟨fun s => ?_, fun s v => ⟨hostStep_read_reg (r := .status) rfl rfl s, ?_⟩⟩
  · obtain ⟨h0, h1, h2, h3, h4, h5, h6, h7, h8, h9⟩ := statusWord_flags s
    exact ⟨h0, h1, h2, h3, h4, h5, h6, h7, h8, h9, statusWord_fields s⟩
  · rw [hostStep_write_reg (r := .status) rfl rfl v s, regWrite, clearReport]
    cases v.getLsbD 1 <;> cases v.getLsbD 2 <;> cases v.getLsbD 5 <;> simp

/-! CTRL and `irq` (R27, R43, R45). -/

/-- A stream command is in progress in its check or in its frame loop (R43). -/
theorem streaming_iff (s : State) : s.streaming = true ↔
    (∃ snap, s.phase = .busy (.instr .encstream) snap ∨
      s.phase = .busy (.instr .decstream) snap) ∨ (∃ dir, s.phase = .stream dir) := by
  unfold State.streaming
  cases s.phase with
  | idle => simp
  | stream dir => simp
  | busy op snap =>
    cases op with
    | illegal w => simp [isStreamCommand]
    | instr i => cases i <;> simp [isStreamCommand]

/-- Settles O20: a write with SRST = 0 asks whether a stream command is in progress. -/
theorem ctrlWriteSetsIrqEnAndAbort : Obligations.CtrlWriteSetsIrqEnAndAbort := by
  intro s v
  refine ⟨?_, fun hv => ?_⟩
  · rw [hostStep_read_reg (r := .ctrl) rfl rfl s]
    cases hie : s.irqEn <;> simp [regRead, hie]
  · rw [← streaming_iff, hostStep_write_reg (r := .ctrl) rfl rfl v s, regWrite,
      ctrlWrite_no_srst v s hv]
    exact ⟨fun hs => by simp [hs], fun hs => by simp [hs]⟩

/-- IRQ_EN after a write to CTRL: SRST = 1 resets it (R27, R231). -/
theorem ctrlWrite_irqEn (v : Word) (s : State) :
    (ctrlWrite v s).irqEn = (!v.getLsbD 2 && v.getLsbD 0) := by
  cases hs : v.getLsbD 2
  · rw [ctrlWrite_no_srst v s hs]
    rfl
  · rw [ctrlWrite_srst v s hs]
    rfl

/-- Settles O26: each of these steps sets DONE or IRQ_EN. -/
theorem interruptOutput : Obligations.InterruptOutput := by
  intro s
  refine ⟨by rw [State.irq, Bool.and_eq_true], fun w => ?_, fun r => ?_, fun v t hv ht => ?_,
    fun v t hv ht => ?_, fun t ht => ?_⟩
  · rw [State.irq, accept_done, Bool.false_and]
  · rw [State.irq, complete_done, complete_irqEn, Bool.true_and]
  · rw [hostStep_write_reg (r := .status) rfl rfl v s] at ht
    obtain rfl := Option.some.inj ht
    show (clearReport v s).irq = false
    rw [State.irq, clearReport_done, hv, Bool.not_true, Bool.and_false, Bool.false_and]
  · rw [hostStep_write_reg (r := .ctrl) rfl rfl v s] at ht
    obtain rfl := Option.some.inj ht
    show (ctrlWrite v s).irq = false
    rw [State.irq, ctrlWrite_irqEn, hv, Bool.and_false, Bool.and_false]
  · obtain rfl := Option.some.inj ht
    rfl

/-! KEYCFG (R31). -/

/-- A write keeps the fields of KEYCFG and clears its reserved bits (R31). -/
theorem keycfgWritten_fields (v : Word) :
    keycfgEP (keycfgWritten v) = v.getLsbD 0 ∧ keycfgDP (keycfgWritten v) = v.getLsbD 1 ∧
    keycfgCapEn (keycfgWritten v) = v.getLsbD 2 ∧
    keycfgMaxBlk (keycfgWritten v) = (v.extractLsb' 16 16).toNat ∧
    (keycfgWritten v).extractLsb' 3 13 = 0#13 := by
  have hmax : (0xFFFF0007#32).extractLsb' 16 16 = BitVec.allOnes 16 := by decide
  have hrsvd : (0xFFFF0007#32).extractLsb' 3 13 = 0#13 := by decide
  refine ⟨?_, ?_, ?_, ?_, ?_⟩
  · simp [keycfgEP, keycfgWritten]
  · simp [keycfgDP, keycfgWritten]
  · simp [keycfgCapEn, keycfgWritten]
  · rw [keycfgMaxBlk, keycfgWritten, BitVec.extractLsb'_and, hmax, BitVec.and_allOnes]
  · rw [keycfgWritten, BitVec.extractLsb'_and, hrsvd, BitVec.and_zero]

/-- Settles O21: KEYCONF decides whether the write is taken. -/
theorem keycfgWrite : Obligations.KeycfgWrite := by
  intro s v
  rw [hostStep_write_reg (r := .keycfg) rfl rfl v s, regWrite, Machine.keycfgWrite]
  refine ⟨fun hk => by rw [if_pos hk], fun hk => ⟨keycfgWritten v, ?_, keycfgWritten_fields v⟩⟩
  rw [if_neg (by simp [hk])]

/-! The words of the wide registers (R35 to R37, R52). -/

/-- A host write to a word below `L` is taken: operand registers always, key registers while the
key is Uninitialized (R35, R37). -/
def TakesWrites (x : WideReg) (s : State) : Prop :=
  x = .opa ∨ x = .opb ∨ x = .opc ∨ (s.keyconf = false ∧ (x = .keyN ∨ x = .keyE ∨ x = .keyD))

/-- The state with the value `u` in a wide register. -/
def setWideReg (x : WideReg) (u : Wide) (s : State) : State :=
  match x with
  | .opa => { s with opa := u }
  | .opb => { s with opb := u }
  | .opc => { s with opc := u }
  | .r0 => { s with r0 := u }
  | .r1 => { s with r1 := u }
  | .r2 => { s with r2 := u }
  | .keyN => { s with keyN := u }
  | .keyE => { s with keyE := u }
  | .keyD => { s with keyD := u }

/-- The register reads as its new value, the others as before. -/
theorem wideReg_setWideReg (x : WideReg) (u : Wide) (s : State) :
    (setWideReg x u s).wideReg = Function.update s.wideReg x u := by
  funext y
  cases x <;> cases y <;> rfl

@[simp] theorem setWideReg_cfg (x : WideReg) (u : Wide) (s : State) :
    (setWideReg x u s).cfg = s.cfg := by
  cases x <;> rfl

/-- A write that is taken replaces its word and nothing else (R35). -/
theorem wideWrite_taken {x : WideReg} {i : Nat} {s : State} (v : Word) (hi : i < s.cfg.words)
    (hx : TakesWrites x s) :
    wideWrite x i v s = setWideReg x (setWideWord (s.wideReg x) i v) s := by
  unfold wideWrite
  rw [if_pos hi]
  rcases hx with rfl | rfl | rfl | ⟨hk, rfl | rfl | rfl⟩
  · rfl
  · rfl
  · rfl
  all_goals exact if_neg (by simp [hk])

/-- A write that is taken touches operand and key registers only (R35, R37). -/
theorem setWideReg_frame {x : WideReg} {s : State} (u : Wide) (hx : TakesWrites x s) :
    setWideReg x u s =
      { s with
        opa := (setWideReg x u s).opa, opb := (setWideReg x u s).opb
        opc := (setWideReg x u s).opc, keyN := (setWideReg x u s).keyN
        keyE := (setWideReg x u s).keyE, keyD := (setWideReg x u s).keyD } := by
  rcases hx with rfl | rfl | rfl | ⟨-, rfl | rfl | rfl⟩ <;> rfl

/-- Words from `L` up ignore writes (R35). -/
theorem wideWrite_beyond (x : WideReg) {i : Nat} (v : Word) {s : State} (hi : s.cfg.words ≤ i) :
    wideWrite x i v s = s :=
  if_neg (Nat.not_lt.2 hi)

/-- Result registers ignore writes, and so do key registers once Constructed (R36, R37). -/
theorem wideWrite_ignored {x : WideReg} (i : Nat) (v : Word) {s : State}
    (hx : x = .r0 ∨ x = .r1 ∨ x = .r2 ∨
      (s.keyconf = true ∧ (x = .keyN ∨ x = .keyE ∨ x = .keyD))) :
    wideWrite x i v s = s := by
  unfold wideWrite
  split
  · rcases hx with rfl | rfl | rfl | ⟨hk, rfl | rfl | rfl⟩
    · rfl
    · rfl
    · rfl
    all_goals exact if_pos hk
  · rfl

/-- A word below `L` reads as its bits (R35, R52). -/
theorem regRead_wide (x : WideReg) {i : Nat} {s : State} (hi : i < s.cfg.words) :
    regRead s (.wide x i) = wideWord (s.wideReg x) i :=
  if_pos hi

/-- A word from `L` up reads 0 (R35). -/
theorem regRead_wide_beyond (x : WideReg) {i : Nat} {s : State} (hi : s.cfg.words ≤ i) :
    regRead s (.wide x i) = 0 :=
  if_neg (Nat.not_lt.2 hi)

/-- The nine wide registers (R35 to R37). -/
def wideRegs : List WideReg := [.opa, .opb, .opc, .r0, .r1, .r2, .keyN, .keyE, .keyD]

/-- The reply is no part of a wide register. -/
@[simp] theorem wideReg_reply (s : State) (p : Reply) (x : WideReg) :
    State.wideReg { s with reply := p } x = s.wideReg x := by
  cases x <;> rfl

/-- Settles O22: a write that is taken replaces its word of one register. -/
theorem operandWordsReadBack : Obligations.OperandWordsReadBack := by
  refine ⟨fun s i hl hi p hp => ?_, fun s x i v hl h128 => ⟨fun hi hx => ?_, fun hi => ⟨?_, ?_⟩⟩⟩
  · obtain ⟨x, -, rfl⟩ : ∃ x ∈ wideRegs, (wideBase x, s.wideReg x) = p := List.mem_map.1 hp
    refine (hostStep_rdWide s x i (hi.trans_le (legal_words hl))).trans ?_
    rw [regRead_wide x hi]
    rfl
  · have hsame : wideWord (setWideWord (s.wideReg x) i v) i = v :=
      wideWord_setWideWord_same _ i v (by rw [wideBits]; omega)
    refine ⟨{ setWideReg x (setWideWord (s.wideReg x) i v) s with reply := .done }, ?_, ?_, ?_,
      fun k hk => ?_, fun y hy => ?_, ?_⟩
    · rw [hostStep_wrWide s x i v h128, wideWrite_taken v hi hx]
    · rw [regRead_wide x (by simpa using hi), wideReg_reply, wideReg_setWideReg,
        Function.update_self, hsame]
    · rw [wideReg_reply, wideReg_setWideReg, Function.update_self, hsame]
    · rw [wideReg_reply, wideReg_setWideReg, Function.update_self,
        wideWord_setWideWord_other _ i k v hk]
    · rw [wideReg_reply, wideReg_setWideReg, Function.update_of_ne hy]
    · exact congrArg (fun t : State => { t with reply := .done }) (setWideReg_frame _ hx)
  · rw [hostStep_wrWide s x i v h128, wideWrite_beyond x v hi]
  · rw [hostStep_rdWide s x i h128, regRead_wide_beyond x hi]

/-- Settles O23: such a write changes no register. -/
theorem readOnlyWideRegisters : Obligations.ReadOnlyWideRegisters := by
  intro s x i v h128 hx
  rw [hostStep_wrWide s x i v h128, wideWrite_ignored i v hx]

/-! The block lengths (R32, R161 to R164). -/

/-- The cap only lowers a block length (R164). -/
theorem configPlen_le_plen0 (n : Nat) (keycfg : Word) : configPlen n keycfg ≤ plen0 n := by
  rw [configPlen, capped]
  split
  · exact Nat.min_le_left _ _
  · exact le_rfl

/-- A plain block is no longer than an encrypted one (R162, R163). -/
theorem plen0_le_clen {n : Nat} (hn : n ≠ 0) : plen0 n ≤ clen n := by
  have hpow : 256 ^ plen0 n ≤ n := (le_log256Floor_iff n _ hn).1 le_rfl
  have hlt : n - 1 < 256 ^ clen n := lt_pow_byteLen (n - 1)
  by_contra h
  have := Nat.pow_lt_pow_right (a := 256) (by decide) (Nat.lt_of_not_le h)
  omega

/-- An encrypted block of a modulus of OPW bits fits OPBYTES (R163). -/
theorem clen_le_opBytes {p : Params} (hl : p.legal = true) {v : Wide} (hv : FitsOpw p v) :
    clen v.toNat ≤ p.opBytes := by
  have hbits : 8 * p.opBytes = p.opw := by
    obtain ⟨hdvd, -, -⟩ := legal_opw hl
    rw [Params.opBytes]
    omega
  have hpow : (2 ^ 8) ^ p.opBytes = 2 ^ p.opw := by rw [← pow_mul, hbits]
  refine (byteLen_le_iff _ _).2 ?_
  rw [show 256 = 2 ^ 8 from rfl, hpow]
  exact (Nat.sub_le _ _).trans_lt hv

/-- Settles O39: BLKLEN holds the lengths of the latched modulus, which has OPW bits. -/
theorem blockLengthsAreBounded : Obligations.BlockLengthsAreBounded := by
  intro s h hk
  have hpos : 1 ≤ configPlen s.keyN.toNat s.keycfg := h.key.plen_pos hk
  have hcap := configPlen_le_plen0 s.keyN.toNat s.keycfg
  have hle := plen0_le_clen (keyN_ne_zero h.key hk)
  have hclen := clen_le_opBytes h.legal h.registers.keyN
  have hbytes : s.cfg.opBytes < 2 ^ 16 := by
    obtain ⟨-, -, hopw⟩ := legal_opw h.legal
    rw [Params.opBytes]
    omega
  have hN : 256 ^ 1 ≤ s.keyN.toNat :=
    (le_log256Floor_iff _ 1 (keyN_ne_zero h.key hk)).1 (hpos.trans hcap)
  rw [State.plen, State.clen, h.key.blklen hk, plenOf_blklenOf _ _ (by omega),
    clenOf_blklenOf _ _ (by omega)]
  exact ⟨hpos, hcap.trans hle, hclen, hN⟩

/-! What an engine step writes (R102, R103, R105, R176 to R182). -/

/-- From `s` to `t` the report, the phase, the queues and FRAMES changed at most: what an engine
step that is no completion of a scalar command may write. -/
def WritesNoResult (s t : State) : Prop :=
  t = { s with
    done := t.done, err := t.err, noinv := t.noinv, short := t.short, abortPend := t.abortPend
    errcode := t.errcode, errinfo := t.errinfo, phase := t.phase
    frames := t.frames, inq := t.inq, outq := t.outq }

/-- The check step of a stream command writes no result (R176). -/
theorem streamCheck_writesNoResult (dir : Dir) (snap : Snapshot) (s : State) :
    WritesNoResult s (streamCheck dir snap s) := by
  rcases streamCheck_cases dir snap s with ⟨-, e⟩ | ⟨-, -, e⟩ | ⟨-, -, -, e⟩ | ⟨-, -, -, e⟩ <;>
    rw [e] <;> rfl

/-- A step of the frame loop writes no result (R178 to R182, R210). -/
theorem streamStep_writesNoResult (dir : Dir) (s : State) :
    WritesNoResult s (streamStep dir s) := by
  rcases streamStep_cases dir s with ⟨-, e⟩ | ⟨-, -, -, e⟩ | ⟨-, -, -, e⟩ | ⟨-, -, -, -, e⟩ |
    ⟨-, -, e⟩ | ⟨-, e⟩ <;> rw [e] <;> rfl

/-- `t` is `s` with the command `i` in progress completed by its report (R102). -/
def Completes (i : Instr) (r : Report) (s t : State) : Prop :=
  ∃ snap, s.phase = .busy (.instr i) snap ∧ scalarReport s.cfg i snap = some r ∧ t = complete r s

/-- A meaning that answers a next state completes a scalar command or steps a stream command. -/
theorem exec_writes {i : Instr} {s t : State} (h : exec i s = .next t) :
    (∃ r, Completes i r s t) ∨ (∃ dir, i = dirInstr dir ∧ WritesNoResult s t) := by
  rcases exec_cases i s t h with ⟨snap, r, hc⟩ | ⟨dir, snap, hi, -, rfl⟩ | ⟨dir, hi, -, rfl⟩
  · exact .inl ⟨r, snap, hc⟩
  · exact .inr ⟨dir, hi, streamCheck_writesNoResult dir snap s⟩
  · exact .inr ⟨dir, hi, streamStep_writesNoResult dir s⟩

/-- An engine step completes a scalar command or writes no result. -/
theorem engineStep_writes {s t : State} (h : engineStep s = .next t) :
    (∃ i r, Completes i r s t) ∨ WritesNoResult s t := by
  rcases engineStep_cases s with ⟨-, e⟩ | ⟨i, snap, r, hp, hr, e⟩ | ⟨dir, snap, -, e⟩ |
    ⟨w, _, -, e⟩ | ⟨dir, -, e⟩ <;> obtain rfl := Host.Outcome.next.inj (e.symm.trans h)
  · exact .inr rfl
  · exact .inl ⟨i, r, snap, hp, hr, rfl⟩
  · exact .inr (streamCheck_writesNoResult dir snap s)
  · exact .inr rfl
  · exact .inr (streamStep_writesNoResult dir s)

/-- Settles O52: a completion leaves these fields alone, and so does a step of a stream command. -/
theorem commandsLeaveTheHostsState : Obligations.CommandsLeaveTheHostsState := by
  intro i s t h
  rcases exec_writes h with ⟨r, snap, -, -, rfl⟩ | ⟨dir, -, hw⟩
  · simp
  · rw [hw]
    exact ⟨rfl, rfl, rfl, rfl, rfl, rfl, rfl, rfl, rfl⟩

/-- A stream command has no report of a scalar command. -/
theorem scalarReport_dirInstr (p : Params) (dir : Dir) (snap : Snapshot) :
    scalarReport p (dirInstr dir) snap = none := by
  cases dir <;> rfl

/-- Settles O54: the registers that remain do not show what a stream command may write. -/
theorem streamFrameOnTheBus : Obligations.StreamFrameOnTheBus := by
  intro dir s t h r hstatus herrinfo hframes hlevels
  rcases exec_writes h with ⟨rep, snap, -, hrep, -⟩ | ⟨_, -, hw⟩
  · rw [scalarReport_dirInstr] at hrep
    cases hrep
  · rw [hw]
    cases r with
    | status => exact absurd rfl hstatus
    | errinfo => exact absurd rfl herrinfo
    | frames => exact absurd rfl hframes
    | levels => exact absurd rfl hlevels
    | wide x i => cases x <;> rfl
    | _ => rfl

/-! The registers that a command's report names (R72, R103). -/

/-- The commands of R72 that write R0. -/
def r0Commands : List Instr := [.gcd, .xgcd, .modinv, .modpow, .pow, .encblk, .decblk]

/-- `w` names no register but those R72 gives the command `i`. -/
structure NamesOnly (i : Instr) (w : Writes) : Prop where
  r0 : w.r0 ≠ none → i ∈ r0Commands
  r1r2 : w.r1 ≠ none ∨ w.r2 ≠ none → i = .xgcd
  key : w.key ≠ none → i = .config

/-- An error report names no register (R202). -/
theorem namesOnly_raise (i : Instr) (c : ErrCode) (info : Word) :
    NamesOnly i (raise c info).writes := by
  constructor <;> simp [raise]

/-- The success report of a command that writes R0 alone. -/
theorem namesOnly_reportR0 {i : Instr} (hi : i ∈ r0Commands) (v : Nat) :
    NamesOnly i (reportR0 v).writes := by
  constructor <;> simp [reportR0, hi]

/-- Every report names only the registers of its command (R72). -/
theorem scalarReport_namesOnly {p : Params} {i : Instr} {snap : Snapshot} {r : Report}
    (hr : scalarReport p i snap = some r) : NamesOnly i r.writes := by
  cases i <;> simp only [scalarReport, Option.some.injEq, reduceCtorEq] at hr <;> subst hr
  case nop => constructor <;> simp [nopReport]
  case gcd => exact namesOnly_reportR0 (by decide) _
  case xgcd =>
    unfold xgcdReport
    dsimp only
    split
    · constructor <;> simp [r0Commands]
    · exact namesOnly_raise ..
  case modinv =>
    have hno : NamesOnly .modinv noInverse.writes := by constructor <;> simp [noInverse, r0Commands]
    unfold modinvReport
    dsimp only
    split
    · exact hno
    · split
      · exact hno
      · exact namesOnly_reportR0 (by decide) _
  case modpow =>
    unfold modpowReport
    split
    · exact namesOnly_raise ..
    · exact namesOnly_reportR0 (by decide) _
  case pow =>
    unfold powReport
    split
    · exact namesOnly_reportR0 (by decide) _
    · exact namesOnly_raise ..
  case config =>
    unfold configReport
    repeat' split
    iterate 4 exact namesOnly_raise ..
    constructor <;> simp
  case encblk =>
    unfold encblkReport
    repeat' split
    iterate 2 exact namesOnly_raise ..
    exact namesOnly_reportR0 (by decide) _
  case decblk =>
    unfold decblkReport
    repeat' split
    iterate 2 exact namesOnly_raise ..
    exact namesOnly_reportR0 (by decide) _

/-- A completion whose report names no register but R0 shows on the bus in STATUS, ERRINFO and R0
alone (R103). -/
theorem regRead_complete {i : Instr} {rep : Report} (s : State) (hn : NamesOnly i rep.writes)
    (hx : i ≠ .xgcd) (hc : i ≠ .config) {r : Reg} (hstatus : r ≠ .status) (herrinfo : r ≠ .errinfo)
    (hr0 : ∀ k, r ≠ .wide .r0 k) : regRead (complete rep s) r = regRead s r := by
  have hr1 : rep.writes.r1 = none := by_contra fun h => hx (hn.r1r2 (.inl h))
  have hr2 : rep.writes.r2 = none := by_contra fun h => hx (hn.r1r2 (.inr h))
  have hkey : rep.writes.key = none := by_contra fun h => hc (hn.key h)
  cases r with
  | status => exact absurd rfl hstatus
  | errinfo => exact absurd rfl herrinfo
  | wide x k =>
    cases x with
    | r0 => exact absurd rfl (hr0 k)
    | _ => simp [regRead, State.wideReg, hr1, hr2, hkey]
  | _ => simp [regRead, hkey]

/-- Settles O53: none of these commands is XGCD, CONFIG or a stream command. -/
theorem scalarFrameOnTheBus : Obligations.ScalarFrameOnTheBus := by
  intro i s t hi h r hstatus herrinfo hr0
  rcases exec_writes h with ⟨rep, snap, -, hrep, rfl⟩ | ⟨dir, rfl, -⟩
  · exact regRead_complete s (scalarReport_namesOnly hrep) (by rintro rfl; simp at hi)
      (by rintro rfl; simp at hi) hstatus herrinfo hr0
  · cases dir <;> simp [dirInstr] at hi

/-! What a host action writes (R14, R27, R28, R31, R35 to R37, R65, R100). -/

/-- From `s` to `t` the fields that the host owns changed at most, and the key registers and KEYCFG
only while the key is Uninitialized: what a move of the host may write that is no reset and no write
to STATUS or CMD. -/
structure HostWritesOnly (s t : State) : Prop where
  fields : t = { s with
    irqEn := t.irqEn, abortPend := t.abortPend, keycfg := t.keycfg
    opa := t.opa, opb := t.opb, opc := t.opc, keyN := t.keyN, keyE := t.keyE, keyD := t.keyD
    inq := t.inq, outq := t.outq, agenda := t.agenda, reply := t.reply }
  key : s.keyconf = true →
    t.keycfg = s.keycfg ∧ t.keyN = s.keyN ∧ t.keyE = s.keyE ∧ t.keyD = s.keyD

/-- Nothing but the moves to come and the reply changed. -/
theorem hostWritesOnly_moves (s : State) (m : List Move) (p : Reply) :
    HostWritesOnly s { s with agenda := m, reply := p } :=
  ⟨rfl, fun _ => ⟨rfl, rfl, rfl, rfl⟩⟩

/-- The move is taken off the agenda before it is made, and the reply is given after it. -/
theorem HostWritesOnly.reply {s t : State} {rest : List Move}
    (h : HostWritesOnly { s with agenda := rest } t) (p : Reply) :
    HostWritesOnly s { t with reply := p } :=
  ⟨by rw [h.fields], h.key⟩

/-- A write to a word of a wide register (R35 to R37). -/
theorem wideWrite_hostWritesOnly (x : WideReg) (i : Nat) (v : Word) (s : State) :
    HostWritesOnly s (wideWrite x i v s) := by
  have same : HostWritesOnly s s := hostWritesOnly_moves s s.agenda s.reply
  unfold wideWrite
  split
  · cases x with
    | opa | opb | opc => exact ⟨rfl, fun _ => ⟨rfl, rfl, rfl, rfl⟩⟩
    | r0 | r1 | r2 => exact same
    | keyN | keyE | keyD =>
      dsimp only
      split
      · exact same
      · next hk => exact ⟨rfl, fun hc => absurd hc hk⟩
  · exact same

/-- A write to KEYCFG (R31). -/
theorem keycfgWrite_hostWritesOnly (v : Word) (s : State) :
    HostWritesOnly s (Machine.keycfgWrite v s) := by
  unfold Machine.keycfgWrite
  split
  · exact hostWritesOnly_moves s s.agenda s.reply
  · next hk => exact ⟨rfl, fun hc => absurd hc hk⟩

/-- A step of the block that is no reset: everything it can be. -/
inductive StepWithoutReset (s : State) : State → Prop
  /-- The engine moved (R14). -/
  | engine {t : State} (rest : List Move) (h : engineStep { s with agenda := rest } = .next t) :
      StepWithoutReset s t
  /-- A CMD write while BUSY (R100, R207). -/
  | overrun (off : Offset) (w : Word) (rest : List Move) (hoff : off.toNat = 0x0018)
      (ha : s.agenda = .host (.write off 32 w) :: rest) (hb : s.busy = true) :
      StepWithoutReset s { s with overrun := true, agenda := rest, reply := .done }
  /-- A CMD write in Idle (R100). -/
  | accept (w : Word) (rest : List Move) (hp : s.phase = .idle) :
      StepWithoutReset s { accept w s with agenda := rest, reply := .done }
  /-- A STATUS write (R28, R206). -/
  | clear (off : Offset) (v : Word) (rest : List Move) (hoff : off.toNat = 0x0014)
      (ha : s.agenda = .host (.write off 32 v) :: rest) :
      StepWithoutReset s { clearReport v s with agenda := rest, reply := .done }
  /-- Any other move of the host. -/
  | host {t : State} (h : HostWritesOnly s t) : StepWithoutReset s t

/-- A decoded write that is no reset. -/
theorem stepWithoutReset_write {s : State} {off : Offset} {v : Word} {rest : List Move}
    (ha : s.agenda = .host (.write off 32 v) :: rest) (hr : ¬ResetMove s) :
    StepWithoutReset s
      { regWrite (regAt off.toNat) v { s with agenda := rest } with reply := .done } := by
  cases hreg : regAt off.toNat with
  | ctrl =>
    have hv : v.getLsbD 2 = false := by
      by_contra hv
      exact hr (.inr ⟨off, v, rest, ha, regAt_ctrl _ hreg, by simpa using hv⟩)
    refine .host (HostWritesOnly.reply (rest := rest) ?_ .done)
    rw [regWrite, ctrlWrite_no_srst v _ hv]
    exact ⟨rfl, fun _ => ⟨rfl, rfl, rfl, rfl⟩⟩
  | status => exact .clear off v rest (regAt_status _ hreg) ha
  | cmd =>
    cases hb : s.busy with
    | true =>
      rw [regWrite, cmdWrite_busy v { s with agenda := rest } hb]
      exact .overrun off v rest (regAt_cmd _ hreg) ha hb
    | false =>
      rw [regWrite, cmdWrite_idle v { s with agenda := rest } hb]
      exact .accept v rest ((busy_eq_false_iff s).1 hb)
  | keycfg => exact .host ((keycfgWrite_hostWritesOnly v _).reply .done)
  | wide x i => exact .host ((wideWrite_hostWritesOnly x i v _).reply .done)
  | _ => exact .host (hostWritesOnly_moves s rest .done)

/-- Every step but a reset is one of these. -/
theorem stepWithoutReset {s t : State} (h : step s = .next t) (hr : ¬ResetMove s) :
    StepWithoutReset s t := by
  rcases step_cases s with ⟨a, rest, u, ha, hu, e⟩ | ⟨gaps, rest, -, e⟩ | ⟨rest, e, -⟩
  · obtain rfl := Host.Outcome.next.inj (e.symm.trans h)
    rcases hostStep_cases a _ _ hu with ⟨_, _, -, p, rfl⟩ | ⟨off, width, v, rfl, hd, rfl⟩ |
      ⟨_, _, _, -, -, rfl⟩ | ⟨k, -, -, rfl⟩ | ⟨b, out, -, -, rfl⟩ | ⟨rfl, -⟩
    · exact .host (hostWritesOnly_moves s rest p)
    · obtain rfl : width = 32 := by simp [accessDecoded] at hd; exact hd.2
      exact stepWithoutReset_write ha hr
    · exact .host (hostWritesOnly_moves s rest .error)
    · exact .host ⟨rfl, fun _ => ⟨rfl, rfl, rfl, rfl⟩⟩
    · exact .host ⟨rfl, fun _ => ⟨rfl, rfl, rfl, rfl⟩⟩
    · exact absurd (.inl ⟨rest, ha⟩) hr
  · obtain rfl := Host.Outcome.next.inj (e.symm.trans h)
    rw [waitTurn_eq]
    exact .host (hostWritesOnly_moves s _ _)
  · exact .engine rest (e.symm.trans h)

/-- A reset move resets the block (R230, R231). -/
theorem step_resetMove {s : State} (h : ResetMove s) :
    ∃ rest p, step s = .next { resetBlock s with agenda := rest, reply := p } := by
  rcases h with ⟨rest, ha⟩ | ⟨off, v, rest, ha, hoff, hv⟩
  · exact ⟨rest, .none, step_host s .rst rest _ ha rfl⟩
  · refine ⟨rest, .done, step_host s _ rest _ ha ?_⟩
    rw [hostStep_write_reg (r := .ctrl) (by rw [hoff]; rfl) (by omega), regWrite,
      ctrlWrite_srst v _ hv]
    rfl

/-! The key state (R22). -/

/-- The key state of `t` is that of `s`. -/
def SameKey (s t : State) : Prop :=
  t.keyconf = s.keyconf ∧ t.keycfg = s.keycfg ∧ t.keyN = s.keyN ∧ t.keyE = s.keyE ∧
  t.keyD = s.keyD ∧ t.blklen = s.blklen ∧ t.canEnc = s.canEnc ∧ t.canDec = s.canDec

/-- A step that writes no result keeps the key state. -/
theorem WritesNoResult.sameKey {s t : State} (h : WritesNoResult s t) : SameKey s t := by
  rw [h]
  exact ⟨rfl, rfl, rfl, rfl, rfl, rfl, rfl, rfl⟩

/-- A completion that fails or names no key state keeps it (R103). -/
theorem complete_sameKey {r : Report} (s : State) (h : r.code ≠ .none ∨ r.writes.key = none) :
    SameKey s (complete r s) := by
  rcases h with h | h <;> simp [SameKey, h]

/-- CONFIG with a Constructed key fails (R161). -/
theorem configReport_constructed {snap : Snapshot} (h : snap.keyconf = true) :
    configReport snap = raise .alreadyConfigured (encodeInstr .config) :=
  if_pos h

/-- An engine step keeps the key state, or is a CONFIG that succeeds with the key Uninitialized
(R22, R161). -/
theorem engineStep_key {s t : State} (h : engineStep s = .next t) :
    SameKey s t ∨ ∃ snap, s.phase = .busy (.instr .config) snap ∧ snap.keyconf = false ∧
      t.phase = .idle ∧ t.errcode = .none := by
  rcases engineStep_writes h with ⟨i, r, snap, hp, hr, rfl⟩ | hw
  · by_cases hkeep : r.code ≠ .none ∨ r.writes.key = none
    · exact .inl (complete_sameKey s hkeep)
    · rw [not_or, not_not] at hkeep
      obtain ⟨hcode, hkey⟩ := hkeep
      obtain rfl : i = .config := (scalarReport_namesOnly hr).key hkey
      refine .inr ⟨snap, hp, ?_, rfl, hcode⟩
      by_contra hk
      rw [scalarReport, configReport_constructed (by simpa using hk)] at hr
      obtain rfl := Option.some.inj hr
      exact hkey rfl
  · exact .inl hw.sameKey

/-- Settles O57: once Constructed, host writes to the key state are ignored and CONFIG fails. -/
theorem keyIsImmutable : Obligations.KeyIsImmutable := by
  have hreset : ∀ s t : State, step s = .next t → ResetMove s → t.keyconf = false := by
    intro s t h hr
    obtain ⟨rest, p, e⟩ := step_resetMove hr
    obtain rfl := Host.Outcome.next.inj (e.symm.trans h)
    rfl
  refine ⟨fun s t hok h hk hr => ?_, hreset, fun s t h hk hk' => ?_⟩
  · suffices hkey : SameKey s t from ⟨hkey.1.trans hk, hkey.2⟩
    cases stepWithoutReset h hr with
    | engine rest he =>
      rcases engineStep_key he with hkey | ⟨snap, hp, hsnap, -⟩
      · exact hkey
      · obtain ⟨-, -, hso, -⟩ := hok.busy _ _ hp
        rw [hso.keyconf, hk] at hsnap
        cases hsnap
    | host hw =>
      obtain ⟨hcfg, hn, he, hd⟩ := hw.key hk
      refine ⟨?_, hcfg, hn, he, hd, ?_, ?_, ?_⟩ <;> rw [hw.fields]
    | overrun | accept | clear => exact ⟨rfl, rfl, rfl, rfl, rfl, rfl, rfl, rfl⟩
  · have hr : ¬ResetMove s := fun hr => Bool.false_ne_true ((hreset s t h hr).symm.trans hk')
    have hchange : t.keyconf ≠ s.keyconf := by rw [hk, hk']; decide
    cases stepWithoutReset h hr with
    | engine rest he =>
      rcases engineStep_key he with hkey | ⟨snap, hp, -, hphase, hcode⟩
      · exact absurd hkey.1 hchange
      · exact ⟨snap, hp, hphase, hcode⟩
    | host hw => exact absurd (by rw [hw.fields]) hchange
    | overrun | accept | clear => exact absurd rfl hchange

/-! Result registers (R36). -/

/-- The result registers of `t` are those of `s`. -/
def SameResults (s t : State) : Prop := t.r0 = s.r0 ∧ t.r1 = s.r1 ∧ t.r2 = s.r2

/-- A step but a reset keeps the result registers, or completes a scalar command (R36). -/
theorem step_results {s t : State} (h : step s = .next t) (hr : ¬ResetMove s) :
    SameResults s t ∨ ∃ i r rest, Completes i r { s with agenda := rest } t := by
  cases stepWithoutReset h hr with
  | engine rest he =>
    rcases engineStep_writes he with ⟨i, r, hc⟩ | hw
    · exact .inr ⟨i, r, rest, hc⟩
    · rw [hw]
      exact .inl ⟨rfl, rfl, rfl⟩
  | host hw =>
    rw [hw.fields]
    exact .inl ⟨rfl, rfl, rfl⟩
  | overrun | accept | clear => exact .inl ⟨rfl, rfl, rfl⟩

/-- What has changed was written. -/
theorem written_of_changed {c : Prop} [Decidable c] {o : Option Wide} {v : Wide}
    (h : (if c then o.getD v else v) ≠ v) : c ∧ o ≠ none := by
  split at h
  · next hc => exact ⟨hc, by rintro rfl; exact h rfl⟩
  · exact absurd rfl h

/-- Settles O58: a completion writes what its report names, and names only what R72 gives it. -/
theorem resultRegistersChangeAtCompletionOnly :
    Obligations.ResultRegistersChangeAtCompletionOnly := by
  intro s t h hr
  rcases step_results h hr with ⟨h0, h1, h2⟩ | ⟨i, r, rest, snap, hp, hrep, rfl⟩
  · exact ⟨fun hc => absurd h0 hc, fun hc => absurd ⟨h1, h2⟩ (not_and_or.2 hc)⟩
  · have hn := scalarReport_namesOnly hrep
    refine ⟨fun hc => ?_, fun hc => ?_⟩
    · rw [complete_r0, applyWrites_r0] at hc
      obtain ⟨hcode, hw⟩ := written_of_changed hc
      exact ⟨i, snap, hp, hn.r0 hw, rfl, rfl, hcode⟩
    · rw [complete_r1, complete_r2, applyWrites_r1, applyWrites_r2] at hc
      obtain ⟨hcode, rfl⟩ : r.code = .none ∧ i = .xgcd := by
        rcases hc with hc | hc <;> obtain ⟨hcode, hw⟩ := written_of_changed hc
        · exact ⟨hcode, hn.r1r2 (.inl hw)⟩
        · exact ⟨hcode, hn.r1r2 (.inr hw)⟩
      exact ⟨snap, hp, rfl, rfl, hcode⟩

/-! FRAMES (R33). -/

/-- The stream commands are those of the two directions (R175). -/
theorem isStreamCommand_iff (c : Command) :
    isStreamCommand c = true ↔ ∃ dir, c = .instr (dirInstr dir) := by
  constructor
  · intro h
    cases c with
    | illegal w => cases h
    | instr i =>
      cases i
      case encstream => exact ⟨.enc, rfl⟩
      case decstream => exact ⟨.dec, rfl⟩
      all_goals cases h
  · rintro ⟨dir, rfl⟩
    cases dir <;> rfl

/-- The check step of a stream command keeps FRAMES (R176). -/
@[simp] theorem streamCheck_frames (dir : Dir) (snap : Snapshot) (s : State) :
    (streamCheck dir snap s).frames = s.frames := by
  rcases streamCheck_cases dir snap s with ⟨-, e⟩ | ⟨-, -, e⟩ | ⟨-, -, -, e⟩ | ⟨-, -, -, e⟩ <;>
    simp [e, abortStep]

/-- A step of the frame loop keeps FRAMES, or counts the frame it appends to `outq` (R178, R179). -/
theorem streamStep_frames (dir : Dir) (s : State) :
    (streamStep dir s).frames = s.frames ∨
    ((streamStep dir s).frames = s.frames + 1 ∧
      ∃ bs, (streamStep dir s).outq = s.outq ++ frameFn dir s bs) := by
  rcases streamStep_cases dir s with ⟨-, e⟩ | ⟨-, -, -, e⟩ | ⟨-, -, -, e⟩ | ⟨-, -, -, -, e⟩ |
    ⟨-, -, e⟩ | ⟨-, e⟩ <;> rw [e]
  · exact .inl rfl
  · exact .inr ⟨rfl, frameChunk dir s, rfl⟩
  · exact .inl rfl
  · exact .inr ⟨rfl, frameChunk dir s, rfl⟩
  · exact .inl rfl
  · exact .inl rfl

/-- An engine step that changes FRAMES is an output frame (R33). -/
theorem engineStep_frames {s t : State} (h : engineStep s = .next t) (hf : t.frames ≠ s.frames) :
    ∃ dir bs, s.phase = .stream dir ∧ t.frames = s.frames + 1 ∧
      t.outq = s.outq ++ frameFn dir s bs := by
  rcases engineStep_cases s with ⟨-, e⟩ | ⟨_, _, r, -, -, e⟩ | ⟨dir, snap, -, e⟩ |
    ⟨w, _, -, e⟩ | ⟨dir, hp, e⟩ <;> obtain rfl := Host.Outcome.next.inj (e.symm.trans h)
  · exact absurd rfl hf
  · exact absurd (complete_frames r s) hf
  · exact absurd (streamCheck_frames dir snap s) hf
  · exact absurd rfl hf
  · obtain ⟨hadd, bs, hout⟩ := (streamStep_frames dir s).resolve_left hf
    exact ⟨dir, bs, hp, hadd, hout⟩

/-- The transform of a frame does not read the moves to come. -/
theorem frameFn_agenda (dir : Dir) (s : State) (m : List Move) (bs : List Byte) :
    frameFn dir { s with agenda := m } bs = frameFn dir s bs := by
  cases dir <;> rfl

/-- Settles O59: the engine adds output frames, an acceptance of a stream command clears. -/
theorem framesCountsOutputFrames : Obligations.FramesCountsOutputFrames := by
  intro s t h hr hf
  cases stepWithoutReset h hr with
  | engine rest he =>
    obtain ⟨dir, bs, hp, hadd, hout⟩ := engineStep_frames he hf
    exact .inr ⟨dir, bs, hp, hadd, by rw [hout, frameFn_agenda]⟩
  | accept w rest hp =>
    have hstream : isStreamCommand (decode w) = true := by
      by_contra hn
      exact hf (if_neg hn)
    obtain ⟨dir, hd⟩ := (isStreamCommand_iff _).1 hstream
    exact .inl ⟨if_pos hstream, hp, dir, takeSnapshot s, congrArg (Phase.busy · _) hd⟩
  | host hw => exact absurd (by rw [hw.fields]) hf
  | overrun | clear => exact absurd rfl hf

/-! OVERRUN (R207). -/

/-- The engine leaves OVERRUN alone (R207). -/
theorem engineStep_overrun {s t : State} (h : engineStep s = .next t) : t.overrun = s.overrun := by
  rcases engineStep_writes h with ⟨_, r, _, -, -, rfl⟩ | hw
  · exact complete_overrun r s
  · rw [hw]

/-- Settles O60: the other moves leave OVERRUN alone. -/
theorem overrunIsSticky : Obligations.OverrunIsSticky := by
  intro s t h hr
  cases stepWithoutReset h hr with
  | engine rest he =>
    rw [engineStep_overrun he]
    simp +contextual
  | host hw =>
    rw [hw.fields]
    simp +contextual
  | accept w rest hp => simp +contextual
  | overrun off w rest hoff ha hb =>
    exact ⟨fun _ _ => ⟨hb, w, rest, off, hoff, ha⟩, fun _ h0 => by cases h0⟩
  | clear off v rest hoff ha =>
    have hov : (clearReport v s).overrun = (s.overrun && !v.getLsbD 5) := rfl
    refine ⟨fun h0 h1 => ?_, fun h1 h0 => ⟨v, rest, off, hoff, ?_, ha⟩⟩
    · rw [hov, h0] at h1
      cases h1
    · rwa [hov, h1, Bool.true_and, Bool.not_eq_false'] at h0

end Sys2Proof.BlockState

/-! PROOFS. What the block has in place of a memory (spec/20_memory.md): the words of the wide
registers as the host loads them, and the snapshot a command runs on. -/

namespace Sys2Proof.Memory

open Sys2Proof.Machine Sys2Proof.Laws Sys2Proof.Scope Sys2Proof.BlockState

/-! The snapshot of the command in progress (R63, R101). -/

/-- A decoded access is 32 bits wide (R53). -/
theorem width_of_accessDecoded {off : Offset} {width : Nat} (h : accessDecoded off width = true) :
    width = 32 := by
  simp only [accessDecoded, Bool.and_eq_true, decide_eq_true_eq] at h
  exact h.2

/-- While BUSY a register write that is no reset keeps the phase, and with it the snapshot (R101,
R235). -/
theorem regWrite_phase {r : Reg} {v : Word} {s : State} (hb : s.busy = true)
    (hv : r = .ctrl → v.getLsbD 2 = false) : (regWrite r v s).phase = s.phase := by
  cases r with
  | ctrl => rw [regWrite, ctrlWrite_no_srst v s (hv rfl)]
  | status => exact clearReport_phase v s
  | cmd => rw [regWrite, cmdWrite_busy v s hb]
  | keycfg => rw [regWrite, (keycfgWrite_hostWritesOnly v s).fields]
  | wide x i => rw [regWrite, (wideWrite_hostWritesOnly x i v s).fields]
  | _ => rfl

/-- While BUSY a host action that is no reset keeps the phase, and with it the snapshot (R101). -/
theorem hostStep_phase {a : HostAction} {s t : State} (hb : s.busy = true) (hrst : a ≠ .rst)
    (hsrst : ∀ off v, a = .write off 32 v → off.toNat = 0x0010 → v.getLsbD 2 = false)
    (h : hostStep a s = some t) : t.phase = s.phase := by
  rcases hostStep_cases a s t h with ⟨_, _, -, _, rfl⟩ | ⟨off, width, v, rfl, hd, rfl⟩ |
    ⟨_, _, _, -, -, rfl⟩ | ⟨_, -, -, rfl⟩ | ⟨_, _, -, -, rfl⟩ | ⟨rfl, -⟩
  · rfl
  · obtain rfl := width_of_accessDecoded hd
    exact regWrite_phase hb fun hr => hsrst off v rfl (regAt_ctrl _ hr)
  · rfl
  · rfl
  · rfl
  · exact absurd rfl hrst

/-- Settles O12: acceptance takes the snapshot, the phase carries it, and `Inv` ties it to the key
once Constructed. -/
theorem snapshotIsFixedAtAcceptance : Obligations.SnapshotIsFixedAtAcceptance := by
  refine ⟨accept_phase, fun s t op snap a hp hrst hsrst h => ?_, fun s op snap hinv hp hk => ?_⟩
  · have hb : s.busy = true := by rw [State.busy, hp]
    exact (hostStep_phase hb hrst hsrst h).trans hp
  · obtain ⟨-, -, hsnap, -⟩ := hinv.phase.busy op snap hp
    exact hsnap.key hk

/-- Settles O56: the report is a function of the parameters, the command and the snapshot. -/
theorem commandsReadTheirSnapshotOnly : Obligations.CommandsReadTheirSnapshotOnly := by
  intro i snap p he hd
  obtain ⟨r, hr⟩ := scalarReport_of_not_stream p i snap he hd
  refine ⟨r, fun s hcfg hp => exec_scalar i s snap r hp ?_⟩
  rw [hcfg, hr]

/-! A wide register as its words (R52, R75). -/

/-- A legal OPW is `L` words (R6). -/
theorem legal_opw_words {p : Params} (h : p.legal = true) : p.opw = 32 * p.words := by
  obtain ⟨hdvd, -, -⟩ := legal_opw h
  rw [Params.words]
  omega

/-- `n` words from word `k` up assemble to the bits they are (R75). -/
theorem assembleWords_from (v : Wide) (n k : Nat) :
    assembleWords ((List.range n).map fun i => wideWord v (k + i))
      = v.toNat / 2 ^ (32 * k) % 2 ^ (32 * n) := by
  induction n generalizing k with
  | zero => simp [assembleWords, Nat.mod_one]
  | succ n ih =>
    have hwords : ((List.range (n + 1)).map fun i => wideWord v (k + i))
        = wideWord v k :: (List.range n).map fun i => wideWord v (k + 1 + i) := by
      simp [List.range_succ_eq_map, Nat.add_assoc, Nat.add_comm 1]
    have hhead : (wideWord v k).toNat = v.toNat / 2 ^ (32 * k) % 2 ^ 32 := by
      rw [wideWord, BitVec.extractLsb'_toNat, Nat.shiftRight_eq_div_pow]
    have htail : v.toNat / 2 ^ (32 * (k + 1)) = v.toNat / 2 ^ (32 * k) / 2 ^ 32 := by
      rw [Nat.div_div_eq_div_mul, ← pow_add, Nat.mul_succ]
    have hpow : 2 ^ (32 * (n + 1)) = 2 ^ 32 * 2 ^ (32 * n) := by
      rw [← pow_add, Nat.mul_succ, Nat.add_comm]
    rw [hwords, assembleWords, ih, hhead, htail, hpow, Nat.mod_mul]

/-- The words of a value that fits in them assemble to it (R75). -/
theorem assembleWords_wideWord {v : Wide} {n : Nat} (hv : v.toNat < 2 ^ (32 * n)) :
    assembleWords ((List.range n).map (wideWord v)) = v.toNat := by
  simpa [Nat.mod_eq_of_lt hv] using assembleWords_from v n 0

/-! The expansion of a wide write (R82). -/

/-- `u` with its first `n` words replaced by those of `v`, in ascending order. -/
def loadWords (u v : Wide) : Nat → Wide
  | 0 => u
  | n + 1 => setWideWord (loadWords u v n) n (wideWord v n)

/-- The bits of the words replaced are those of `v`, the others stay (R35). -/
theorem loadWords_getLsbD (u v : Wide) (n : Nat) {j : Nat} (hj : j < wideBits) :
    (loadWords u v n).getLsbD j = if j < 32 * n then v.getLsbD j else u.getLsbD j := by
  induction n with
  | zero => rfl
  | succ n ih =>
    rw [loadWords, setWideWord_getLsbD _ _ _ _ hj]
    by_cases hword : 32 * n ≤ j ∧ j < 32 * n + 32
    · rw [if_pos hword, if_pos (by omega), wideWord, BitVec.getLsbD_extractLsb',
        Nat.add_sub_cancel' hword.1]
      simp [show j - 32 * n < 32 by omega]
    · rw [if_neg hword, ih]
      exact if_congr (by omega) rfl rfl

/-- Replacing all the words that either value uses leaves the new one. -/
theorem loadWords_eq {u v : Wide} {n : Nat} (hu : u.toNat < 2 ^ (32 * n))
    (hv : v.toNat < 2 ^ (32 * n)) : loadWords u v n = v := by
  apply BitVec.eq_of_getLsbD_eq
  intro j hj
  rw [loadWords_getLsbD u v n hj]
  split
  · rfl
  · next hn =>
    rw [(toNat_lt_iff_bits u _).1 hu j (Nat.le_of_not_lt hn),
      (toNat_lt_iff_bits v _).1 hv j (Nat.le_of_not_lt hn)]

/-- Actions in two parts are taken one part after the other. -/
theorem runHost_append (as bs : List HostAction) (s : State) :
    runHost (as ++ bs) s = (runHost as s).bind (runHost bs) := by
  induction as generalizing s with
  | nil => rfl
  | cons a as ih =>
    simp only [List.cons_append, runHost]
    cases hostStep a s with
    | none => rfl
    | some t => exact ih t

/-- One action alone is its step. -/
theorem runHost_singleton (a : HostAction) (s : State) : runHost [a] s = hostStep a s := by
  simp only [runHost]
  cases hostStep a s <;> rfl

/-- The state with a value in a wide register and the reply of the last write. -/
def wideLoaded (x : WideReg) (u : Wide) (p : Reply) (s : State) : State :=
  { setWideReg x u s with reply := p }

@[simp] theorem wideLoaded_cfg (x : WideReg) (u : Wide) (p : Reply) (s : State) :
    (wideLoaded x u p s).cfg = s.cfg :=
  setWideReg_cfg x u s

@[simp] theorem wideLoaded_phase (x : WideReg) (u : Wide) (p : Reply) (s : State) :
    (wideLoaded x u p s).phase = s.phase := by
  cases x <;> rfl

@[simp] theorem wideLoaded_keyconf (x : WideReg) (u : Wide) (p : Reply) (s : State) :
    (wideLoaded x u p s).keyconf = s.keyconf := by
  cases x <;> rfl

/-- The register reads as its new value, the others as before. -/
theorem wideReg_wideLoaded (x : WideReg) (u : Wide) (p : Reply) (s : State) :
    (wideLoaded x u p s).wideReg = Function.update s.wideReg x u := by
  funext y
  rw [wideLoaded, wideReg_reply, wideReg_setWideReg]

/-- A register that took one write takes the next (R35, R37). -/
theorem takesWrites_wideLoaded {x : WideReg} {s : State} (hx : TakesWrites x s) (u : Wide)
    (p : Reply) : TakesWrites x (wideLoaded x u p s) := by
  simpa only [TakesWrites, wideLoaded_keyconf] using hx

/-- A word write to a register that holds `u` (R35). -/
theorem hostStep_wideLoaded {x : WideReg} {i : Nat} {s : State} (u : Wide) (p : Reply) (w : Word)
    (h128 : i < 128) (hi : i < s.cfg.words) (hx : TakesWrites x s) :
    hostStep (wr (.wide x i) w) (wideLoaded x u p s)
      = some (wideLoaded x (setWideWord u i w) .done s) := by
  have hx' := takesWrites_wideLoaded hx u p
  rw [hostStep_wrWide _ x i w h128, wideWrite_taken w (by simpa using hi) hx', wideReg_wideLoaded,
    Function.update_self]
  cases x <;> rfl

/-- The first `n` writes of the expansion replace the first `n` words (R82). -/
theorem runHost_words {x : WideReg} {s : State} (v : Wide) (hl : s.cfg.legal = true)
    (hx : TakesWrites x s) (n : Nat) (hn : n ≤ s.cfg.words) :
    ∃ p, runHost ((List.range n).map fun i => wr (.wide x i) (wideWord v i)) s
      = some (wideLoaded x (loadWords (s.wideReg x) v n) p s) := by
  induction n with
  | zero => exact ⟨s.reply, by cases x <;> rfl⟩
  | succ n ih =>
    obtain ⟨p, hp⟩ := ih (Nat.le_of_succ_le hn)
    have h128 : n < 128 := Nat.lt_of_lt_of_le hn (legal_words hl)
    refine ⟨.done, ?_⟩
    rw [List.range_succ, List.map_append, runHost_append, hp]
    exact (runHost_singleton _ _).trans (hostStep_wideLoaded _ p _ h128 hn hx)

/-- Settles O24: the writes of the expansion replace every word that OPW bits have. -/
theorem wideWriteLoadsTheValue : Obligations.WideWriteLoadsTheValue := by
  intro s x v hl hv hold hx
  obtain ⟨p, hp⟩ := runHost_words v hl hx s.cfg.words le_rfl
  rw [FitsOpw, legal_opw_words hl] at hv hold
  rw [loadWords_eq hold hv] at hp
  have hreg : (wideLoaded x v p s).wideReg x = v := by
    rw [wideReg_wideLoaded, Function.update_self]
  refine ⟨wideLoaded x v p s, hp, hreg, fun y hy => ?_, wideLoaded_phase x v p s, ?_⟩
  · rw [wideReg_wideLoaded, Function.update_of_ne hy]
  · have hread : ∀ i ∈ List.range (wideLoaded x v p s).cfg.words,
        regRead (wideLoaded x v p s) (.wide x i) = wideWord v i := by
      intro i hi
      rw [regRead_wide x (List.mem_range.1 hi), hreg]
    rw [List.map_congr_left hread, wideLoaded_cfg, assembleWords_wideWord hv]

end Sys2Proof.Memory

/-! PROOFS. The two formats the host writes (spec/30_encoding.md): the command word and its table,
and the token. -/

namespace Sys2Proof.Encoding

open Sys2Proof.Laws Sys2Proof.Scope

/-! The command word (R71 to R74). -/

/-- A command's word is one of the eleven (R72, R73). -/
theorem assignedWords_contains_encodeInstr (i : Instr) :
    assignedWords.contains (encodeInstr i) = true := by
  cases i <;> decide

/-- A command's word has the reserved bits 0 (R71). -/
theorem encodeInstr_toNat_lt (i : Instr) : (encodeInstr i).toNat < 256 := by
  have h := (opcode i).isLt
  rw [encodeInstr, BitVec.toNat_setWidth]
  omega

/-- A word decodes to a command only if it is that command's word, and else to `Illegal` of itself
(R73). -/
theorem decode_cases (w : Word) :
    (∃ i, decode w = .instr i ∧ w = encodeInstr i) ∨ decode w = .illegal w := by
  unfold decode
  split
  · next hr =>
    cases hi : instrOfOpcode (opcodeField w) with
    | none => exact .inr rfl
    | some i =>
      refine .inl ⟨i, rfl, ?_⟩
      rw [encodeInstr, ← (instrOfOpcode_spec _).1 i hi]
      exact word_of_opcode w hr
  · exact .inr rfl

/-- A command has one word (R72, R73). -/
theorem decode_eq_instr_iff {w : Word} {i : Instr} : decode w = .instr i ↔ w = encodeInstr i := by
  constructor
  · intro h
    rcases decode_cases w with ⟨j, hj, hw⟩ | hill
    · rw [h, Command.instr.injEq] at hj
      rwa [hj]
    · rw [h] at hill
      cases hill
  · rintro rfl
    exact decode_encodeInstr i

/-- A word of no command decodes to `Illegal` of itself (R73). -/
theorem decode_eq_illegal {w : Word} (h : ∀ i, w ≠ encodeInstr i) : decode w = .illegal w := by
  rcases decode_cases w with ⟨i, -, hw⟩ | hill
  · exact absurd hw (h i)
  · exact hill

/-- Every word is the word of the command it decodes to (R73). -/
theorem encode_decode (w : Word) : encode (decode w) = w := by
  rcases decode_cases w with ⟨i, hi, hw⟩ | hill
  · rw [hi, hw]
    rfl
  · rw [hill]
    rfl

/-- Every well-formed command decodes from its word: `Illegal(w)` is well formed only where `w` is
no command's word (R73). -/
theorem decode_encode {c : Command} (h : c.wellFormed = true) : decode (encode c) = c := by
  cases c with
  | instr i => exact decode_encodeInstr i
  | illegal w =>
    refine decode_eq_illegal fun i (hw : w = encodeInstr i) => ?_
    rw [Command.wellFormed, hw, assignedWords_contains_encodeInstr] at h
    cases h

/-- Settles O3: the eleven words decode to their commands, every other word `w` to `Illegal(w)`. -/
theorem decodeEncodeAgree : Obligations.DecodeEncodeAgree :=
  ⟨fun _ h => decode_encode h, fun w => ⟨encode_decode w, (decode_wellFormed w).1⟩⟩

/-! The table of R72. -/

/-- The table lists each command with its word and nothing else (R72). -/
theorem mem_commandTable {w : Word} {i : Instr} : (w, i) ∈ commandTable ↔ w = encodeInstr i := by
  have hrows : ∀ p ∈ commandTable, p.1 = encodeInstr p.2 := by decide
  constructor
  · exact hrows (w, i)
  · rintro rfl
    cases i <;> decide

/-- Settles O2: the table is the eleven commands with their words, which have reserved bits 0. -/
theorem decodeIsTheOpcodeMap : Obligations.DecodeIsTheOpcodeMap := by
  refine ⟨fun w i => decode_eq_instr_iff.trans mem_commandTable.symm, fun w hw => ?_,
    fun w v h => ?_, fun w hw => ?_, rfl, by decide⟩
  · exact decode_eq_illegal fun i hi => hw i (mem_commandTable.2 hi)
  · have hv := encode_decode w
    rwa [h] at hv
  · refine decode_eq_illegal fun i hi => hw ?_
    rw [hi, Nat.div_eq_of_lt (encodeInstr_toNat_lt i)]

/-- A command's word in the opcode table reads as the command (R70). -/
theorem decodeTableWord_encodeInstr (i : Instr) :
    decodeTableWord 32 (encodeInstr i).toNat = some i := by
  rw [decodeTableWord, Nat.mod_eq_of_lt (encodeInstr i).isLt, if_pos (encodeInstr i).isLt,
    BitVec.ofNat_toNat, BitVec.setWidth_eq, decode_encodeInstr]

/-- Settles O1: each word is its command's. -/
theorem tableWordsDecode : Obligations.TableWordsDecode :=
  ⟨decode_nop, decode_gcd, decode_xgcd, decode_modinv, decode_modpow, decode_pow, decode_config,
    decode_encblk, decode_decblk, decode_encstream, decode_decstream,
    fun ⟨w, i⟩ h => by rw [mem_commandTable.1 h]; exact decodeTableWord_encodeInstr i⟩

/-! The token (R76). -/

/-- A token is read by its kind; only a byte keeps the data (R76). -/
theorem decodeToken_append (k : BitVec 2) (d : Byte) :
    decodeToken (k ++ d) = if k = 0b00#2 then .byte d else if k = 0b01#2 then .eos else .error := by
  have hkind : (k ++ d).extractLsb' 8 2 = k := BitVec.extractLsb'_append_eq_left
  have hdata : (k ++ d).extractLsb' 0 8 = d := BitVec.extractLsb'_append_eq_right
  rw [decodeToken, hkind, hdata]

/-- What the host pushes for a byte is the byte under kind 0b00 (R76, R81). -/
theorem encodeToken_byte (b : Byte) : encodeToken (.byte b) = 0b00#2 ++ b :=
  BitVec.setWidth_eq_append (by decide)

/-- The host's token decodes to itself (R76, R81). -/
theorem decodeToken_encodeToken (t : Token) : decodeToken (encodeToken t) = t := by
  cases t with
  | byte b => rw [encodeToken_byte, decodeToken_append, if_pos rfl]
  | eos => decide
  | error => decide

/-- Settles O4: the kind decides the token. -/
theorem tokenKinds : Obligations.TokenKinds :=
  ⟨fun d => ⟨decodeToken_append _ d, decodeToken_append _ d, decodeToken_append _ d,
    decodeToken_append _ d⟩, decodeToken_encodeToken⟩

end Sys2Proof.Encoding

/-! PROOFS. The life of a command (spec/40_command_lifecycle.md): acceptance, completion, what a
failure leaves alone, NOP and the words of no command. -/

namespace Sys2Proof.Lifecycle

open Sys2Proof.Machine Sys2Proof.Laws Sys2Proof.Scope Sys2Proof.BlockState Sys2Proof.Encoding

/-! Acceptance (R100). -/

/-- The stream commands by name (R72, R175). -/
theorem isStreamCommand_iff_or (c : Command) :
    isStreamCommand c = true ↔ c = .instr .encstream ∨ c = .instr .decstream := by
  rw [isStreamCommand_iff]
  constructor
  · rintro ⟨dir, rfl⟩
    cases dir
    · exact .inl rfl
    · exact .inr rfl
  · rintro (h | h)
    · exact ⟨.enc, h⟩
    · exact ⟨.dec, h⟩

/-- A write to CMD while BUSY is an overrun (R100). -/
theorem hostStep_wrCmd_busy (w : Word) {s : State} (hb : s.busy = true) :
    hostStep (wr .cmd w) s = some { s with overrun := true, reply := .done } :=
  calc hostStep (wr .cmd w) s
    _ = some { cmdWrite w s with reply := .done } := hostStep_cmdWrite w s
    _ = _ := by rw [cmdWrite_busy w s hb]

/-- A write to CMD in Idle is accepted (R100). -/
theorem hostStep_wrCmd_idle (w : Word) {s : State} (hb : s.busy = false) :
    hostStep (wr .cmd w) s = some { accept w s with reply := .done } :=
  calc hostStep (wr .cmd w) s
    _ = some { cmdWrite w s with reply := .done } := hostStep_cmdWrite w s
    _ = _ := by rw [cmdWrite_idle w s hb]

/-- Settles O11: BUSY decides, and FRAMES is cleared for the two stream commands. -/
theorem cmdWriteAcceptsOrOverruns : Obligations.CmdWriteAcceptsOrOverruns := by
  refine fun s w => ⟨fun hb => ⟨.done, hostStep_wrCmd_busy w hb⟩, fun hb =>
    ⟨.done, _, hostStep_wrCmd_idle w hb, rfl, rfl, ?_⟩⟩
  simp only [accept, opcodeField, isStreamCommand_iff_or]

/-! Completion (R103, R202). -/

/-- The writes of a command that names no key state (R36, R103). -/
theorem applyWrites_no_key {w : Writes} (s : State) (h : w.key = none) :
    applyWrites w s
      = { s with r0 := w.r0.getD s.r0, r1 := w.r1.getD s.r1, r2 := w.r2.getD s.r2 } := by
  rw [applyWrites, h]

/-- The writes of a CONFIG that succeeds (R103, R161). -/
theorem applyWrites_key {w : Writes} {k : KeyLoad} (s : State) (h : w.key = some k) :
    applyWrites w s
      = loadKey k { s with
          r0 := w.r0.getD s.r0, r1 := w.r1.getD s.r1, r2 := w.r2.getD s.r2 } := by
  rw [applyWrites, h]

/-- A completion leaves Idle, where BUSY is 0 (R21, R103). -/
@[simp] theorem complete_busy (r : Report) (s : State) : (complete r s).busy = false := rfl

/-- Settles O13: `complete` is this state, and `writes` names no queue. -/
theorem completionReportsAtomically : Obligations.CompletionReportsAtomically := fun r s =>
  ⟨rfl, complete_busy r s, complete_inq r s, complete_outq r s, applyWrites_no_key s,
    fun _ => applyWrites_key s⟩

/-- A success with no writes changes the report alone (R103). -/
theorem complete_no_writes (noinv short : Bool) (s : State) :
    complete { noinv := noinv, short := short } s = succeeded noinv short s := rfl

/-! Failure (R106, R202, R203). -/

/-- `t` is `s` with the command in progress failed, after taking tokens off `inq` at most. -/
def FailsTo (s t : State) : Prop :=
  ∃ r q, r.code ≠ .none ∧ t = complete r { s with inq := q }

/-- An error completion fails the command (R202). -/
theorem failsTo_complete {r : Report} (s : State) (h : r.code ≠ .none) :
    FailsTo s (complete r s) :=
  ⟨r, s.inq, h, rfl⟩

/-- An abort fails the command (R210). -/
theorem failsTo_abortStep (s : State) : FailsTo s (abortStep s) :=
  ⟨raise .aborted s.frames, [], nofun, rfl⟩

/-- A check step that leaves an error failed its command (R176). -/
theorem streamCheck_failsTo {dir : Dir} {snap : Snapshot} {s : State} (hs : s.errcode = .none)
    (ht : (streamCheck dir snap s).errcode ≠ .none) : FailsTo s (streamCheck dir snap s) := by
  rcases streamCheck_cases dir snap s with ⟨-, e⟩ | ⟨-, -, e⟩ | ⟨-, -, -, e⟩ | ⟨-, -, -, e⟩ <;>
    rw [e] at ht ⊢
  · exact failsTo_abortStep s
  · exact failsTo_complete s ht
  · exact failsTo_complete s ht
  · exact absurd hs ht

/-- A step of the frame loop that leaves an error failed its command: an abort or an I/O error
(R181, R210). -/
theorem streamStep_failsTo {dir : Dir} {s : State} (hs : s.errcode = .none)
    (ht : (streamStep dir s).errcode ≠ .none) : FailsTo s (streamStep dir s) := by
  rcases streamStep_cases dir s with ⟨-, e⟩ | ⟨-, -, -, e⟩ | ⟨-, -, -, e⟩ | ⟨-, -, -, -, e⟩ |
    ⟨-, -, e⟩ | ⟨-, e⟩ <;> rw [e] at ht ⊢
  · exact failsTo_abortStep s
  · exact absurd hs ht
  · exact absurd rfl ht
  · exact absurd rfl ht
  · exact ⟨raise .ioError s.frames, s.inq.drop (frameCount dir s + 1), ht, rfl⟩
  · exact absurd hs ht

/-- An engine step that leaves an error failed the command in progress (R202). -/
theorem engineStep_failsTo {s t : State} (h : engineStep s = .next t) (hs : s.errcode = .none)
    (ht : t.errcode ≠ .none) : FailsTo s t := by
  rcases engineStep_cases s with ⟨-, e⟩ | ⟨_, _, r, -, -, e⟩ | ⟨dir, snap, -, e⟩ | ⟨w, _, -, e⟩ |
    ⟨dir, -, e⟩ <;> obtain rfl := Host.Outcome.next.inj (e.symm.trans h)
  · exact absurd hs ht
  · exact failsTo_complete s ht
  · exact streamCheck_failsTo hs ht
  · exact failsTo_complete s ht
  · exact streamStep_failsTo hs ht

/-- Settles O55: a step that leaves an error is an error completion, which applies no writes. -/
theorem failedCommandsWriteNothing : Obligations.FailedCommandsWriteNothing := by
  intro s t h hs ht
  obtain ⟨r, q, hcode, rfl⟩ := engineStep_failsTo h hs ht
  simp [hcode]

/-! NOP and the words of no command (R104, R105). -/

/-- NOP reports and changes nothing else (R104). -/
theorem exec_nop {s : State} {snap : Snapshot} (hp : s.phase = .busy (.instr .nop) snap) :
    exec .nop s = .next (succeeded false false s) :=
  (exec_scalar .nop s snap _ hp rfl).trans (congrArg _ (complete_no_writes false false s))

/-- The state in which the host's write of `w` to CMD has just been accepted after reset. -/
def acceptedAtReset (w : Word) (p : Params) : State :=
  { accept w (State.resetOf p) with reply := .done }

/-- After reset any word is accepted (R44, R100). -/
theorem hostStep_wrCmd_resetOf (w : Word) (p : Params) :
    hostStep (wr .cmd w) (State.resetOf p) = some (acceptedAtReset w p) :=
  hostStep_wrCmd_idle w rfl

/-- The engine's step is next, since the agenda is empty after reset (R44; log 1). -/
theorem step_acceptedAtReset (w : Word) (p : Params) :
    step (acceptedAtReset w p) = engineStep (acceptedAtReset w p) :=
  step_engine_alone _ rfl

/-- Settles O27: NOP's report is a success with no writes; STATUS shows no parameter, so the
word for `Config.params` is that for all. -/
theorem nopOnlyReports : Obligations.NopOnlyReports := by
  have hstatus : (succeeded false false
      (acceptedAtReset (encodeInstr .nop) Config.params)).statusWord = 0x00000002#32 := by decide
  exact ⟨fun s snap => exec_nop, decode_nop, fun s hb => ⟨.done, hostStep_wrCmd_busy _ hb⟩,
    fun p => ⟨_, _, hostStep_wrCmd_resetOf (encodeInstr .nop) p,
      (step_acceptedAtReset _ p).trans (exec_nop rfl), hstatus⟩⟩

/-- Settles O28: a word outside the table decodes to `Illegal` of itself, whose one step is the
error completion; the example's STATUS is evaluated at `Config.params`, as STATUS shows
no parameter. -/
theorem illegalCommandReports : Obligations.IllegalCommandReports := by
  have hstatus : (failed .illegalCommand 0x000000FF#32
      (acceptedAtReset 0x000000FF#32 Config.params)).statusWord = 0x00FF6006#32 := by decide
  refine ⟨fun s w hw => ⟨?_, accept_curOp w s⟩, engineStep_illegal, by decide,
    accept_curOp 0x00000101#32, fun p => ⟨_, _, hostStep_wrCmd_resetOf 0x000000FF#32 p,
      (step_acceptedAtReset _ p).trans (engineStep_illegal _ 0x000000FF#32 _ rfl), hstatus, rfl⟩⟩
  rw [accept_phase, decode_eq_illegal fun i hi => hw i (mem_commandTable.2 hi)]

end Sys2Proof.Lifecycle

/-! PROOFS. extended_gcd_unit (spec/41_extended_gcd_unit.md): GCD, XGCD with its recursion, and
MODINV. -/

namespace Sys2Proof.ExtendedGcd

open Sys2Proof.Machine Sys2Proof.Laws Sys2Proof.Scope

/-! Reports that succeed (R103). -/

/-- A success that writes R0 alone (R103). -/
theorem complete_reportR0 (v : Nat) (s : State) :
    complete (reportR0 v) s = succeeded false false { s with r0 := wideOf v } := rfl

/-- "No inverse" is a success with R0 = 0 and NOINV = 1 (R123, D16). -/
theorem complete_noInverse (s : State) :
    complete noInverse s = succeeded true false { s with r0 := 0 } := rfl

/-! GCD (R121). -/

/-- A greatest common divisor is below every bound of both operands (R125). -/
theorem gcd_lt {a b k : Nat} (ha : a < k) (hb : b < k) : Nat.gcd a b < k := by
  rcases Nat.eq_zero_or_pos a with rfl | hpos
  · rwa [Nat.gcd_zero_left]
  · exact (Nat.gcd_le_left b hpos).trans_lt ha

/-- One turn of the loop of R121. -/
theorem euclid_rec (a b : Nat) : euclid a b = if b = 0 then a else euclid b (a % b) := by
  simp only [euclid_eq]
  split
  · next hb => rw [hb, Nat.gcd_zero_right]
  · rw [Nat.gcd_comm, Nat.gcd_rec, Nat.gcd_comm]

/-- GCD writes the value of the loop to R0 (R121). -/
theorem exec_gcd {s : State} {snap : Snapshot} (hp : s.phase = .busy (.instr .gcd) snap) :
    exec .gcd s = .next (succeeded false false
      { s with r0 := wideOf (Nat.gcd snap.a.toNat snap.b.toNat) }) := by
  rw [exec_scalar .gcd s snap _ hp rfl, gcdReport, euclid_eq, complete_reportR0]

/-- Settles O29: the loop is `Nat.gcd`, which a wide register holds since it holds both operands. -/
theorem gcdWritesTheGcd : Obligations.GcdWritesTheGcd := by
  refine ⟨fun s snap hp => ⟨_, wideOf_toNat _ (gcd_lt snap.a.isLt snap.b.isLt), exec_gcd hp⟩,
    decode_gcd, fun a b => ⟨euclid_rec a b, ?_⟩, by rw [euclid_eq]; norm_num⟩
  simp only [euclid_eq]
  exact ⟨Nat.gcd_zero_left b, Nat.gcd_zero_right a, Nat.gcd_self a, Nat.gcd_comm a b⟩

/-! The recursion of XGCD (R122, D14). -/

/-- The loop is done when its second remainder is 0, whatever fuel is left (R122). -/
theorem xgcdLoop_done (fuel r0 : Nat) (s0 s1 t0 t1 : Int) :
    xgcdLoop fuel r0 0 s0 s1 t0 t1 = ⟨r0, t0, s0⟩ := by
  cases fuel <;> simp [xgcdLoop]

/-- Fuel beyond the second remainder changes nothing (R122; log 14). -/
theorem xgcdLoop_fuel (fuel : Nat) : ∀ (fuel' r0 r1 : Nat) (s0 s1 t0 t1 : Int),
    r1 ≤ fuel → r1 ≤ fuel' →
    xgcdLoop fuel r0 r1 s0 s1 t0 t1 = xgcdLoop fuel' r0 r1 s0 s1 t0 t1 := by
  induction fuel with
  | zero =>
    intro fuel' r0 r1 s0 s1 t0 t1 h _
    obtain rfl : r1 = 0 := by omega
    rw [xgcdLoop_done, xgcdLoop_done]
  | succ n ih =>
    intro fuel' r0 r1 s0 s1 t0 t1 h h'
    by_cases hr : r1 = 0
    · rw [hr, xgcdLoop_done, xgcdLoop_done]
    · obtain ⟨n', rfl⟩ : ∃ n', fuel' = n' + 1 := ⟨fuel' - 1, by omega⟩
      have hlt : r0 % r1 < r1 := Nat.mod_lt _ (by omega)
      rw [xgcdLoop, if_neg hr, xgcdLoop, if_neg hr]
      exact ih n' r1 (r0 % r1) _ _ _ _ (by omega) (by omega)

/-- The Bezout result over `a` and `b` that a result `z` over the remainders `t1*a + s1*b` (for
`z.x`) and `t0*a + s0*b` (for `z.y`) amounts to: the invariant of R122 put into `z`. -/
def substitute (s0 s1 t0 t1 : Int) (z : Bezout) : Bezout :=
  ⟨z.g, t0 * z.y + t1 * z.x, s0 * z.y + s1 * z.x⟩

/-- The loop is linear in its running coefficients: started from any, it ends at what they make of
its result from `(1, 0)` and `(0, 1)` (R122). -/
theorem xgcdLoop_linear (fuel : Nat) : ∀ (r0 r1 : Nat) (s0 s1 t0 t1 : Int),
    xgcdLoop fuel r0 r1 s0 s1 t0 t1 = substitute s0 s1 t0 t1 (xgcdLoop fuel r0 r1 1 0 0 1) := by
  induction fuel with
  | zero => intro r0 r1 s0 s1 t0 t1; simp [xgcdLoop, substitute]
  | succ n ih =>
    intro r0 r1 s0 s1 t0 t1
    by_cases hr : r1 = 0
    · simp [hr, xgcdLoop_done, substitute]
    · rw [xgcdLoop, if_neg hr, ih, xgcdLoop, if_neg hr, ih _ _ 0]
      simp only [substitute, Bezout.mk.injEq, true_and]
      constructor <;> ring

/-- `xgcd(0, b)` of R122. -/
@[simp] theorem xgcd_zero_left (b : Nat) : xgcd 0 b = ⟨b, 0, 1⟩ := rfl

/-- The recursion that the loop of R122 unrolls (D14). -/
theorem xgcd_rec {a : Nat} (b : Nat) (ha : a ≠ 0) :
    xgcd a b = ⟨(xgcd (b % a) a).g,
      (xgcd (b % a) a).y - ((b / a : Nat) : Int) * (xgcd (b % a) a).x, (xgcd (b % a) a).x⟩ := by
  obtain ⟨n, rfl⟩ := Nat.exists_eq_succ_of_ne_zero ha
  have hlt : b % (n + 1) < n + 1 := Nat.mod_lt _ (by omega)
  have hturn : xgcd (n + 1) b = substitute 0 1 1 (-((b / (n + 1) : Nat) : Int))
      (xgcd (b % (n + 1)) (n + 1)) := by
    rw [xgcd, xgcdLoop, if_neg ha, xgcdLoop_fuel n (b % (n + 1)) _ _ _ _ _ _ (by omega) le_rfl,
      xgcdLoop_linear]
    simp [xgcd]
  rw [hturn, substitute]
  simp only [Bezout.mk.injEq, true_and]
  constructor <;> ring

/-- The remainder of the first turn is 0 for a divisor of `b` (R122). -/
theorem xgcd_of_dvd {a b : Nat} (ha : 0 < a) (h : a ∣ b) : xgcd a b = ⟨a, 1, 0⟩ := by
  rw [xgcd_rec b ha.ne', Nat.mod_eq_zero_of_dvd h, xgcd_zero_left]
  simp

/-- Settles O31: one turn of the loop is one call of the recursion, by linearity in the running
coefficients. -/
theorem xgcdMeetsTheRecursion : Obligations.XgcdMeetsTheRecursion :=
  ⟨fun _ b ha => xgcd_rec b ha, xgcd_zero_left,
    fun a ha => ⟨xgcd_of_dvd ha (Nat.dvd_zero a), xgcd_of_dvd ha dvd_rfl⟩, by decide⟩

/-! XGCD (R122, R124). -/

/-- A number that has an `n`-bit two's-complement encoding is read back from it (R8). -/
theorem signedOf_twosComplement {n : Nat} {z : Int} (hn : n ≠ 0) (h : fitsSigned n z = true) :
    signedOf n (twosComplement n z) = z := by
  simp only [fitsSigned, Bool.and_eq_true, decide_eq_true_eq] at h
  obtain ⟨hlo, hhi⟩ := h
  have hpow : (2 : Int) ^ n = 2 * 2 ^ (n - 1) := by
    rw [← pow_succ', Nat.sub_add_cancel (by omega)]
  have hcast : ((2 ^ (n - 1) : Nat) : Int) = 2 ^ (n - 1) := by push_cast; rfl
  rw [signedOf, twosComplement]
  rcases le_or_gt 0 z with hz | hz
  · have hmod : z % 2 ^ n = z := Int.emod_eq_of_lt hz (by omega)
    rw [hmod, if_pos (by omega), Int.toNat_of_nonneg hz]
  · have hmod : z % 2 ^ n = z + 2 ^ n := by
      rw [← Int.add_emod_right, Int.emod_eq_of_lt (by omega) (by omega)]
    rw [hmod, if_neg (by omega), Int.toNat_of_nonneg (by omega), add_sub_cancel_right]

/-- A wide register holds an encoding no longer than itself (R8). -/
theorem wideOf_twosComplement_toNat {n : Nat} (z : Int) (hn : n ≤ wideBits) :
    (wideOf (twosComplement n z)).toNat = twosComplement n z :=
  wideOf_toNat _ (lt_of_lt_of_le (twosComplement_lt n z) (Nat.pow_le_pow_right (by decide) hn))

/-- XGCD with operands of OPW bits writes the Bezout triple: no coefficient overflows (R122,
R124). -/
theorem exec_xgcd {s : State} {snap : Snapshot} (hl : s.cfg.legal = true)
    (hf : SnapshotFits s.cfg snap) (hp : s.phase = .busy (.instr .xgcd) snap) :
    exec .xgcd s = .next (succeeded false false { s with
      r0 := wideOf (Nat.gcd snap.a.toNat snap.b.toNat)
      r1 := wideOf (twosComplement s.cfg.opw (xgcd snap.a.toNat snap.b.toNat).x)
      r2 := wideOf (twosComplement s.cfg.opw (xgcd snap.a.toNat snap.b.toNat).y) }) := by
  obtain ⟨-, hopw, -⟩ := legal_opw hl
  obtain ⟨hx, hy⟩ := xgcd_fits s.cfg.opw _ _ (by omega) hf.a hf.b
  rw [exec_scalar .xgcd s snap _ hp rfl, xgcdReport, hx, hy, ← xgcd_g]
  rfl

/-- Settles O30: the coefficients fit by the bound of R124, so their encodings read back as they
are, and the Bezout identity is that of the loop. -/
theorem xgcdWritesABezoutTriple : Obligations.XgcdWritesABezoutTriple := by
  refine ⟨fun s snap hl hf hp => ⟨_, _, _, exec_xgcd hl hf hp, ?_⟩, by decide, by decide⟩
  obtain ⟨-, hopw, hwide⟩ := legal_opw hl
  obtain ⟨hx, hy⟩ := xgcd_fits s.cfg.opw _ _ (by omega) hf.a hf.b
  rw [wideOf_twosComplement_toNat _ hwide, wideOf_twosComplement_toNat _ hwide,
    wideOf_toNat _ (gcd_lt snap.a.isLt snap.b.isLt), signedOf_twosComplement (by omega) hx,
    signedOf_twosComplement (by omega) hy]
  refine ⟨rfl, twosComplement_lt _ _, twosComplement_lt _ _, rfl, rfl, ?_⟩
  rw [xgcd_bezout, xgcd_g]

/-! MODINV (R123). -/

/-- The value MODINV writes when there is an inverse: `x mod m` (R123). -/
def modInverse (a m : Nat) : Nat := ((xgcd a m).x % (m : Int)).toNat

/-- The floor remainder is not negative (R123). -/
theorem modInverse_cast (a : Nat) {m : Nat} (hm : m ≠ 0) :
    (modInverse a m : Int) = (xgcd a m).x % m :=
  Int.toNat_of_nonneg (Int.emod_nonneg _ (by omega))

/-- The inverse is in `[0, m)` (R123). -/
theorem modInverse_lt (a : Nat) {m : Nat} (hm : m ≠ 0) : modInverse a m < m := by
  have hlt : (xgcd a m).x % m < m := Int.emod_lt_of_pos _ (by omega)
  have hcast := modInverse_cast a hm
  omega

/-- The coefficient of `a` inverts it, by the Bezout identity modulo `m` (R123, R126). -/
theorem mul_modInverse {a m : Nat} (hm : m ≠ 0) (hg : Nat.gcd a m = 1) :
    a * modInverse a m % m = 1 % m := by
  have hbezout : (a : Int) * (xgcd a m).x + m * (xgcd a m).y = 1 := by
    rw [xgcd_bezout, xgcd_g, hg]; rfl
  have hint : (a : Int) * modInverse a m % m = 1 % m := by
    rw [modInverse_cast a hm, Int.mul_emod, Int.emod_emod, ← Int.mul_emod, ← hbezout,
      Int.add_mul_emod_self_left]
  exact_mod_cast hint

/-- MODINV without an inverse (R123, D16). -/
theorem exec_modinv_none {s : State} {snap : Snapshot} (hp : s.phase = .busy (.instr .modinv) snap)
    (h : snap.b.toNat = 0 ∨ Nat.gcd snap.a.toNat snap.b.toNat ≠ 1) :
    exec .modinv s = .next (succeeded true false { s with r0 := 0 }) := by
  have hreport : modinvReport snap = noInverse := by
    rw [modinvReport]
    split
    · rfl
    · next hb =>
      dsimp only
      rw [xgcd_g, if_pos (h.resolve_left hb)]
  rw [exec_scalar .modinv s snap _ hp rfl, hreport, complete_noInverse]

/-- MODINV with an inverse (R123). -/
theorem exec_modinv_some {s : State} {snap : Snapshot} (hp : s.phase = .busy (.instr .modinv) snap)
    (hm : snap.b.toNat ≠ 0) (hg : Nat.gcd snap.a.toNat snap.b.toNat = 1) :
    exec .modinv s = .next (succeeded false false
      { s with r0 := wideOf (modInverse snap.a.toNat snap.b.toNat) }) := by
  have hreport : modinvReport snap = reportR0 (modInverse snap.a.toNat snap.b.toNat) := by
    rw [modinvReport, if_neg hm]
    dsimp only
    rw [xgcd_g, if_neg (not_not.2 hg), modInverse]
  rw [exec_scalar .modinv s snap _ hp rfl, hreport, complete_reportR0]

/-- Settles O32: the gcd decides between the two outcomes, and the inverse is the coefficient of
XGCD modulo `m`. -/
theorem modinvWritesTheInverse : Obligations.ModinvWritesTheInverse := by
  refine ⟨fun s snap hp => ⟨exec_modinv_none hp, fun hm hg => ?_, fun hm => ?_, fun ha hm => ?_,
    fun ha hm => ?_⟩, decode_modinv⟩
  · have hlt := modInverse_lt snap.a.toNat hm
    refine ⟨_, exec_modinv_some hp hm hg, ?_⟩
    rw [wideOf_toNat _ (hlt.trans snap.b.isLt)]
    exact ⟨modInverse_cast _ hm, hlt, mul_modInverse hm hg⟩
  · have hzero : modInverse snap.a.toNat 1 = 0 := Nat.lt_one_iff.1 (modInverse_lt _ one_ne_zero)
    rw [exec_modinv_some hp (by omega) (by rw [hm, Nat.gcd_one_right]), hm, hzero]
    rfl
  · rw [exec_modinv_some hp (by omega) (by rw [ha, hm]; rfl), ha, hm]
    rfl
  · exact exec_modinv_none hp (.inr (by rw [ha, hm]; decide))

end Sys2Proof.ExtendedGcd

/-! PROOFS. modular_exponentiation_engine (spec/42_modexp_engine.md): the value of `modpow`, and the
commands MODPOW and POW. -/

namespace Sys2Proof.Modexp

open Sys2Proof.Machine Sys2Proof.Laws Sys2Proof.Scope Sys2Proof.ExtendedGcd

/-! The value of `modpow` (R141, R145). -/

/-- The algorithm of R141 computes the value R141 states beside it. -/
theorem modpow_eq_powMod (base e m : Nat) : modpow base e m = powMod base e m := by
  rw [powMod]
  split
  · next he => rw [he, modpow_zero]
  · next he => exact modpow_eq base e m he

/-- An exponent one higher is one more multiplication by the base, from 1 on (R145). -/
theorem modpow_succ (base e m : Nat) :
    modpow base (e + 1) m = modpow base e m * base % m := by
  rw [modpow_eq base (e + 1) m e.succ_ne_zero, pow_succ]
  rcases eq_or_ne e 0 with rfl | he
  · rw [modpow_zero, pow_zero]
  · rw [modpow_eq base e m he, Nat.mod_mul_mod]

/-- Settles O33: the loop is the power modulo `m`, which grows by one factor with the exponent; at
exponent 0 it does not run, and leaves 1 unreduced. -/
theorem modpowIsTheModularPower : Obligations.ModpowIsTheModularPower := fun base e m hm =>
  ⟨fun he => ⟨modpow_eq base e m (by omega), modpow_lt base e m (by omega) (by omega)⟩,
    modpow_zero base m, modpow_succ base e m⟩

/-! Reports that fail (R202). -/

/-- An error changes the report alone (R103, R202). -/
theorem complete_raise {c : ErrCode} (info : Word) (s : State) (hc : c ≠ .none) :
    complete (raise c info) s = failed c info s := by
  simp [complete, raise, failed, hc]

/-! MODPOW (R142). -/

/-- A wide register holds a power modulo the value of a wide register (R140, R142). -/
theorem wideOf_modpow_toNat (a e : Nat) {m : Wide} (hm : m.toNat ≠ 0) :
    (wideOf (modpow a e m.toNat)).toNat = powMod a e m.toNat := by
  rw [wideOf_toNat _ (modpow_fits wideBits a e m.toNat (by decide) hm m.isLt), modpow_eq_powMod]

/-- MODPOW with modulus 0 (R142, D17). -/
theorem exec_modpow_zero {s : State} {snap : Snapshot}
    (hp : s.phase = .busy (.instr .modpow) snap) (hm : snap.c.toNat = 0) :
    exec .modpow s = .next (failed .modulusZero 0x08#32 s) := by
  rw [exec_scalar .modpow s snap _ hp rfl, modpowReport, if_pos hm]
  exact congrArg _ (complete_raise _ s nofun)

/-- MODPOW with a modulus writes the value of the loop (R142). -/
theorem exec_modpow {s : State} {snap : Snapshot}
    (hp : s.phase = .busy (.instr .modpow) snap) (hm : snap.c.toNat ≠ 0) :
    exec .modpow s = .next (succeeded false false
      { s with r0 := wideOf (modpow snap.a.toNat snap.b.toNat snap.c.toNat) }) := by
  rw [exec_scalar .modpow s snap _ hp rfl, modpowReport, if_neg hm, complete_reportR0]

/-- Settles O34: the modulus decides, and the loop's value fits R0 as the modulus does. -/
theorem modpowCommand : Obligations.ModpowCommand := ⟨fun _ _ hp =>
  ⟨exec_modpow_zero hp, fun hm => ⟨_, exec_modpow hp hm, wideOf_modpow_toNat _ _ hm⟩⟩,
  decode_modpow, by decide, by decide⟩

/-! POW (R143). -/

/-- POW with a power that OPW bits hold writes it (R143). -/
theorem exec_pow_fits {s : State} {snap : Snapshot} (hp : s.phase = .busy (.instr .pow) snap)
    (hv : snap.a.toNat ^ snap.b.toNat < 2 ^ s.cfg.opw) :
    exec .pow s = .next (succeeded false false
      { s with r0 := wideOf (snap.a.toNat ^ snap.b.toNat) }) := by
  rw [exec_scalar .pow s snap _ hp rfl, powReport, powWithin_eq, if_pos hv]
  exact congrArg _ (complete_reportR0 _ s)

/-- POW with a power past OPW bits (R143, D18). -/
theorem exec_pow_overflow {s : State} {snap : Snapshot} (hp : s.phase = .busy (.instr .pow) snap)
    (hv : 2 ^ s.cfg.opw ≤ snap.a.toNat ^ snap.b.toNat) :
    exec .pow s = .next (failed .overflow 0x09#32 s) := by
  rw [exec_scalar .pow s snap _ hp rfl, powReport, powWithin_eq, if_neg hv.not_gt]
  exact congrArg _ (complete_raise _ s nofun)

/-- Settles O35: the exact power decides, and what OPW bits hold a wide register holds. -/
theorem powCommand : Obligations.PowCommand := by
  refine ⟨fun s snap hl hp => ⟨fun hv => ⟨_, exec_pow_fits hp hv, wideOf_toNat _ ?_⟩,
    exec_pow_overflow hp⟩, decode_pow, by decide, by decide⟩
  obtain ⟨-, -, hwide⟩ := legal_opw hl
  exact hv.trans_le (Nat.pow_le_pow_right (by decide) hwide)

end Sys2Proof.Modexp

/-! PROOFS. block_stream_cipher_frame_processor (spec/43_frame_processor.md): CONFIG and the block
lengths, the single blocks, the frame transforms, and the two stream commands. -/

namespace Sys2Proof.FrameProcessor

open Sys2Proof.Machine Sys2Proof.Laws Sys2Proof.Scope Sys2Proof.BlockState Sys2Proof.Lifecycle
open Sys2Proof.ExtendedGcd Sys2Proof.Modexp

/-! The block lengths (R162, R163). -/

/-- `plen0(N)` as a bound (R162). -/
theorem le_plen0_iff {n : Nat} (hn : 1 ≤ n) (k : Nat) : k ≤ plen0 n ↔ 256 ^ k ≤ n :=
  le_log256Floor_iff n k (by omega)

/-- `clen(N)` as a bound (R163). -/
theorem clen_le_iff (n k : Nat) : clen n ≤ k ↔ n - 1 < 256 ^ k := byteLen_le_iff (n - 1) k

/-- `plen0(N)` by the two powers of 256 that `N` lies between (R162). -/
theorem plen0_eq_iff {n : Nat} (hn : 1 ≤ n) (w : Nat) :
    plen0 n = w ↔ 256 ^ w ≤ n ∧ n < 256 ^ (w + 1) := by
  rw [← le_plen0_iff hn, ← not_le, ← le_plen0_iff hn]
  omega

/-- A shift by `k` bytes leaves something of `N` when `N` is not below `256^k`. -/
theorem shiftRight_bytes_ne_zero_iff (n k : Nat) : n >>> (8 * k) ≠ 0 ↔ 256 ^ k ≤ n := by
  rw [Nat.shiftRight_eq_div_pow, pow_mul, Nat.div_ne_zero_iff]
  simp

/-- Settles O36: `k <= plen0(N)` says `256^k <= N`. -/
theorem plainBlockLength : Obligations.PlainBlockLength := by
  refine fun n hn => ⟨plen0_eq_iff hn, fun k _ => ?_, fun h255 => ?_⟩
  · rw [shiftRight_bytes_ne_zero_iff, le_plen0_iff hn]
  · exact (plen0_eq_iff hn 0).2 ⟨hn, by omega⟩

/-- `clen(N)` is one more than `plen0(N)` when `N` is not its power of 256 (R163). -/
theorem clen_eq_plen0_succ {n : Nat} (hn : 1 ≤ n) (hne : n ≠ 256 ^ plen0 n) :
    clen n = plen0 n + 1 := by
  obtain ⟨hlo, hhi⟩ := (plen0_eq_iff hn _).1 rfl
  have hle : clen n ≤ plen0 n + 1 := (clen_le_iff _ _).2 (by omega)
  have hgt : ¬clen n ≤ plen0 n := fun h => by
    have := (clen_le_iff _ _).1 h
    omega
  omega

/-- Both lengths of a power of 256 are its exponent (R163). -/
theorem clen_plen0_pow {k : Nat} : clen (256 ^ k) = k ∧ plen0 (256 ^ k) = k := by
  have hpos : 1 ≤ 256 ^ k := Nat.one_le_pow _ _ (by decide)
  have hplen : plen0 (256 ^ k) = k :=
    (plen0_eq_iff hpos k).2 ⟨le_rfl, Nat.pow_lt_pow_right (by decide) (by omega)⟩
  have hle : plen0 (256 ^ k) ≤ clen (256 ^ k) := plen0_le_clen (by omega)
  have hclen : clen (256 ^ k) ≤ k := (clen_le_iff _ _).2 (by omega)
  omega

/-- Settles O37: both lengths are bounds by powers of 256, for `N - 1` and for `N`. -/
theorem encryptedBlockLength : Obligations.EncryptedBlockLength :=
  ⟨clen_le_iff, fun _ hn hne => clen_eq_plen0_succ (by omega) (hne _),
    fun _ _ _ hp => hp ▸ clen_plen0_pow⟩

/-! CONFIG (R161, R164, R204). -/

/-- A scalar command whose report is an error fails with it (R102, R202). -/
theorem exec_scalar_raise {i : Instr} {s : State} {snap : Snapshot} {c : ErrCode} {info : Word}
    (hp : s.phase = .busy (.instr i) snap)
    (hr : scalarReport s.cfg i snap = some (raise c info)) (hc : c ≠ .none) :
    exec i s = .next (failed c info s) := by
  rw [exec_scalar i s snap _ hp hr, complete_raise info s hc]

/-- CONFIG without a modulus (R161). -/
theorem configReport_no_modulus {snap : Snapshot} (hk : snap.keyconf = false)
    (hn : snap.n.toNat = 0) : configReport snap = raise .keyError 0x10#32 := by
  rw [configReport, hk, if_neg Bool.false_ne_true, if_pos hn]
  rfl

/-- CONFIG with a modulus and neither exponent (R161). -/
theorem configReport_no_exponent {snap : Snapshot} (hk : snap.keyconf = false)
    (hn : snap.n.toNat ≠ 0) (he : keycfgEP snap.keycfg = false)
    (hd : keycfgDP snap.keycfg = false) : configReport snap = raise .capability snap.keycfg := by
  simp [configReport, hk, hn, he, hd]

/-- CONFIG with a modulus and an exponent: the block length decides (R161). -/
theorem configReport_by_plen {snap : Snapshot} (hk : snap.keyconf = false)
    (hn : snap.n.toNat ≠ 0) (hx : keycfgEP snap.keycfg = true ∨ keycfgDP snap.keycfg = true) :
    configReport snap = if configPlen snap.n.toNat snap.keycfg < 1 then
        raise .modulusTooSmall
          (blklenOf (plen0 snap.n.toNat) (configPlen snap.n.toNat snap.keycfg))
      else { writes := { key := some (keyOfSnapshot snap) } } := by
  have hexp : ¬(!keycfgEP snap.keycfg && !keycfgDP snap.keycfg) = true := by
    rcases hx with h | h <;> simp [h]
  rw [configReport, hk, if_neg Bool.false_ne_true, if_neg hn, if_neg hexp]

/-- A CONFIG that succeeds loads the key (R103, R161). -/
theorem complete_key (k : KeyLoad) (s : State) :
    complete { writes := { key := some k } } s = succeeded false false (loadKey k s) := rfl

/-- Settles O38: the checks of `configReport` in their order, and the key it loads. -/
theorem configConstructsTheKey : Obligations.ConfigConstructsTheKey := by
  refine ⟨fun s snap hp => ⟨fun hk => ?_, fun hk hn => ?_, fun hk hn he hd => ?_,
    fun hk hn hx hw => ?_, fun hk hn hx hw => ?_⟩, decode_config, by decide, by decide⟩
  · exact exec_scalar_raise hp (congrArg some (configReport_constructed hk)) nofun
  · exact exec_scalar_raise hp (congrArg some (configReport_no_modulus hk hn)) nofun
  · exact exec_scalar_raise hp (congrArg some (configReport_no_exponent hk hn he hd)) nofun
  · exact exec_scalar_raise hp
      (congrArg some ((configReport_by_plen hk hn hx).trans (if_pos hw))) nofun
  · rw [exec_scalar .config s snap _ hp
      (congrArg some ((configReport_by_plen hk hn hx).trans (if_neg (Nat.not_lt.2 hw)))),
      complete_key]
    rfl

/-! Single blocks (R165, R166). -/

/-- The report of a single-block command with the capability bit and the exponent of its direction
(R165, R166). -/
def blockReport (i : Instr) (can : Bool) (e : Wide) (snap : Snapshot) : Report :=
  if !snap.keyconf then raise .notConfigured (encodeInstr i)
  else if !can then raise .capability (encodeInstr i)
  else reportR0 (modpow snap.a.toNat e.toNat snap.n.toNat)

/-- What a single-block command does: both its errors, and its power in R0 (R165, R166). -/
theorem exec_block {i : Instr} {can : Bool} {e : Wide} {s : State} {snap : Snapshot}
    (hp : s.phase = .busy (.instr i) snap)
    (hr : scalarReport s.cfg i snap = some (blockReport i can e snap)) :
    (snap.keyconf = false → exec i s = .next (failed .notConfigured (encodeInstr i) s)) ∧
    (snap.keyconf = true → can = false →
      exec i s = .next (failed .capability (encodeInstr i) s)) ∧
    (snap.keyconf = true → can = true → snap.n.toNat ≠ 0 → ∃ v : Wide,
      exec i s = .next (succeeded false false { s with r0 := v }) ∧
      v.toNat = powMod snap.a.toNat e.toNat snap.n.toNat) := by
  rw [blockReport] at hr
  refine ⟨fun hk => ?_, fun hk hc => ?_, fun hk hc hn => ?_⟩
  · exact exec_scalar_raise hp (by simpa [hk] using hr) nofun
  · exact exec_scalar_raise hp (by simpa [hk, hc] using hr) nofun
  · refine ⟨_, ?_, wideOf_modpow_toNat snap.a.toNat e.toNat hn⟩
    rw [exec_scalar i s snap _ hp (by simpa [hk, hc] using hr), complete_reportR0]

/-- Settles O40: ENCBLK is the single-block command of KEY_E. -/
theorem encblkCommand : Obligations.EncblkCommand :=
  ⟨fun _ _ hp => exec_block hp rfl, decode_encblk, by decide⟩

/-- Settles O41: DECBLK is the single-block command of KEY_D. -/
theorem decblkCommand : Obligations.DecblkCommand :=
  ⟨fun _ _ hp => exec_block hp rfl, decode_decblk, by decide⟩

/-! The frame transforms (R170, R171, R186). -/

/-- A modular power is below a modulus that is neither 0 nor 1, at exponent 0 too (R141). -/
theorem modpow_lt_modulus (base e : Nat) {m : Nat} (hm : 2 ≤ m) : modpow base e m < m := by
  rcases eq_or_ne e 0 with rfl | he
  · rw [modpow_zero]
    omega
  · exact modpow_lt base e m he (by omega)

section Key

variable {s : State} (h : Inv s) (hk : s.keyconf = true)
include h hk

/-- BLKLEN of a consistent Constructed key holds the lengths R161 computes, which fit its fields
(R32). -/
theorem plen_clen_eq :
    s.plen = configPlen s.keyN.toNat s.keycfg ∧ s.clen = clen s.keyN.toNat := by
  have hplen := configPlen_le_plen0 s.keyN.toNat s.keycfg
  have hle := plen0_le_clen (keyN_ne_zero h.key hk)
  have hclen := clen_le_opBytes h.legal h.registers.keyN
  have hbytes : s.cfg.opBytes < 2 ^ 16 := by
    obtain ⟨-, -, hopw⟩ := legal_opw h.legal
    rw [Params.opBytes]
    omega
  rw [State.plen, State.clen, h.key.blklen hk]
  exact ⟨plenOf_blklenOf _ _ (by omega), clenOf_blklenOf _ _ (by omega)⟩

/-- A chunk of at most PLEN bytes has a value below the modulus (R162, R170). -/
theorem fromLE_lt_modulus {bs : List Byte} (hl : bs.length ≤ s.plen) :
    fromLE bs < s.keyN.toNat := by
  have hN : 1 ≤ s.keyN.toNat := Nat.one_le_iff_ne_zero.2 (keyN_ne_zero h.key hk)
  have hplen : s.plen ≤ plen0 s.keyN.toNat :=
    (plen_clen_eq h hk).1 ▸ configPlen_le_plen0 s.keyN.toNat s.keycfg
  calc fromLE bs
    _ < 256 ^ bs.length := fromLE_lt bs
    _ ≤ 256 ^ s.plen := Nat.pow_le_pow_right (by decide) hl
    _ ≤ s.keyN.toNat := (le_plen0_iff hN _).1 hplen

/-- Whatever is computed modulo the modulus fits CLEN bytes (R163, R170). -/
theorem modpow_lt_pow_clen (base e : Nat) : modpow base e s.keyN.toNat < 256 ^ s.clen := by
  obtain ⟨-, -, -, hN⟩ := blockLengthsAreBounded s h hk
  have hlt := modpow_lt_modulus base e (m := s.keyN.toNat) (by omega)
  have hclen := (clen_le_iff s.keyN.toNat s.clen).1 (plen_clen_eq h hk).2.ge
  omega

/-- An encrypted chunk holds the whole modular power (R170). -/
theorem fromLE_encFrame (bs : List Byte) :
    fromLE (frameFn .enc s bs) = modpow (fromLE bs) s.keyE.toNat s.keyN.toNat := by
  rw [frameFn, encFrame, fromLE_leBytes, Nat.mod_eq_of_lt (modpow_lt_pow_clen h hk _ _)]

end Key

/-- A decrypted chunk holds the low PLEN bytes of the modular power (R171). -/
theorem fromLE_decFrame (s : State) (bs : List Byte) :
    fromLE (frameFn .dec s bs)
      = modpow (fromLE bs) s.keyD.toNat s.keyN.toNat % 256 ^ s.plen := by
  rw [frameFn, decFrame, fromLE_leBytes, Nat.mod_mod]

/-- Settles O49: the widths are those of `LE_n`, and no encrypted value is cut off. -/
theorem frameTransforms : Obligations.FrameTransforms := by
  intro s bs h hk
  rw [fromLE_encFrame h hk, fromLE_decFrame, modpow_eq_powMod, modpow_eq_powMod]
  exact ⟨frameFn_length .enc s bs, frameFn_length .dec s bs, fromLE_lt_modulus h hk, rfl, rfl⟩

/-- Zero bytes at the top do not change the value of a byte sequence (R10). -/
theorem fromLE_append_zeros (bs : List Byte) (k : Nat) :
    fromLE (bs ++ List.replicate k 0) = fromLE bs := by
  induction bs with
  | nil =>
    induction k with
    | zero => rfl
    | succ k ih => simpa [List.replicate_succ, fromLE] using ih
  | cons b bs ih => rw [List.cons_append, fromLE, ih, fromLE]

/-- Writing a byte sequence's value in more bytes zero-fills it (R10, R171). -/
theorem leBytes_fromLE_fill {bs : List Byte} {n : Nat} (hl : bs.length ≤ n) :
    leBytes n (fromLE bs) = bs ++ List.replicate (n - bs.length) 0 := by
  have hfill := leBytes_fromLE (bs ++ List.replicate (n - bs.length) 0)
  rwa [fromLE_append_zeros, List.length_append, List.length_replicate,
    Nat.add_sub_cancel' hl] at hfill

/-- Settles O50: the encrypted value is whole, so the exponents undo each other on the chunk's
value, which PLEN bytes hold. -/
theorem frameRoundTrip : Obligations.FrameRoundTrip := by
  intro s bs h hk hl hkey
  have hlt : fromLE bs < 256 ^ s.plen :=
    (fromLE_lt bs).trans_le (Nat.pow_le_pow_right (by decide) hl)
  calc frameFn .dec s (frameFn .enc s bs)
    _ = leBytes s.plen (modpow (fromLE (frameFn .enc s bs)) s.keyD.toNat s.keyN.toNat
          % 256 ^ s.plen) := rfl
    _ = leBytes s.plen (fromLE bs % 256 ^ s.plen) := by
      rw [fromLE_encFrame h hk, hkey _ (fromLE_lt_modulus h hk hl)]
    _ = bs ++ List.replicate (s.plen - bs.length) 0 := by
      rw [Nat.mod_eq_of_lt hlt, leBytes_fromLE_fill hl]

/-! The check step of a stream command (R176). -/

/-- The abort step fails the command with the input discarded (R210). -/
theorem abortStep_eq (s : State) :
    abortStep s = failed .aborted s.frames { s with inq := [] } :=
  complete_raise s.frames { s with inq := [] } nofun

/-- The next engine step of an accepted stream command is its check step (R176). -/
theorem exec_streamCheck {s : State} {dir : Dir} {snap : Snapshot}
    (hp : s.phase = .busy (.instr (dirInstr dir)) snap) :
    exec (dirInstr dir) s = .next (streamCheck dir snap s) := by
  cases dir
  · exact runStream_busy .enc s snap hp
  · exact runStream_busy .dec s snap hp

/-- The frame loop begins when the key has the exponent of the direction (R176). -/
theorem streamCheck_capable {s : State} {dir : Dir} {snap : Snapshot} (ha : s.abortPend = false)
    (hk : snap.keyconf = true) (hc : capable dir snap = true) :
    streamCheck dir snap s = { s with phase := .stream dir } := by
  simp [streamCheck, ha, hk, hc]

/-- The check step of either direction, in the priority of R176. -/
theorem exec_streamCheck_outcomes {s : State} {dir : Dir} {snap : Snapshot}
    (hp : s.phase = .busy (.instr (dirInstr dir)) snap) :
    (s.abortPend = true →
      exec (dirInstr dir) s = .next (failed .aborted s.frames { s with inq := [] })) ∧
    (s.abortPend = false → snap.keyconf = false →
      exec (dirInstr dir) s = .next (failed .notConfigured (encodeInstr (dirInstr dir)) s)) ∧
    (s.abortPend = false → snap.keyconf = true → capable dir snap = false →
      exec (dirInstr dir) s = .next (failed .capability (encodeInstr (dirInstr dir)) s)) ∧
    (s.abortPend = false → snap.keyconf = true → capable dir snap = true →
      exec (dirInstr dir) s = .next { s with phase := .stream dir }) := by
  rw [exec_streamCheck hp]
  refine ⟨fun ha => ?_, fun ha hk => ?_, fun ha hk hc => ?_, fun ha hk hc => ?_⟩
  · simp [streamCheck, ha, abortStep_eq]
  · simp [streamCheck, ha, hk, complete_raise]
  · simp [streamCheck, ha, hk, hc, complete_raise]
  · rw [streamCheck_capable ha hk hc]

/-- Settles O42: one check step, in either direction. -/
theorem streamCheckStep : Obligations.StreamCheckStep := fun _ _ =>
  ⟨exec_streamCheck_outcomes (dir := .enc), exec_streamCheck_outcomes (dir := .dec)⟩

/-! The events of the frame loop (R178 to R182). -/

/-- The event that R177 to R182 decide on. -/
def frameEvent (dir : Dir) (s : State) : FrameEvent :=
  if frameCount dir s = frameIn dir s then
    if frameFits dir s then .full else .holdOutput
  else
    match frameTerm dir s with
    | some .eos =>
      if frameCount dir s = 0 then .ending else if frameFits dir s then .short else .holdOutput
    | some .error => .ioError
    | some (.byte _) => .holdInput
    | none => .holdInput

/-- What the engine does in each event; in a hold the state stays as it is (log 5). -/
def frameStep (dir : Dir) (s : State) : FrameEvent → State
  | .full => fullFrame dir s
  | .short => shortFrame dir s
  | .ending => endStep s
  | .ioError => ioErrorStep dir s
  | .holdInput => s
  | .holdOutput => s

/-- Without an abort, a step of the frame loop is that of its event. -/
theorem streamStep_eq_frameStep (dir : Dir) {s : State} (ha : s.abortPend = false) :
    streamStep dir s = frameStep dir s (frameEvent dir s) := by
  rw [streamStep, ha, if_neg Bool.false_ne_true, frameEvent]
  split
  · split <;> rfl
  · cases frameTerm dir s with
    | none => rfl
    | some t =>
      cases t with
      | eos =>
        dsimp only
        split
        · rfl
        · split <;> rfl
      | error => rfl
      | byte b => rfl

/-- The token behind the leading bytes is no byte (R177). -/
theorem getElem?_leadingBytes_length (q : List Token) (b : Byte) :
    q[(leadingBytes q).length]? ≠ some (.byte b) := by
  fun_induction leadingBytes q with
  | case1 c rest ih => simpa using ih
  | case2 rest => simp
  | case3 rest => simp
  | case4 => simp

/-- `term` is no byte: an incomplete frame has all the leading bytes (R177). -/
theorem frameTerm_ne_byte (dir : Dir) (s : State) (b : Byte) :
    frameTerm dir s ≠ some (.byte b) := by
  rw [frameTerm]
  split
  · next hlt =>
    have hk : frameCount dir s = (leadingBytes s.inq).length := by
      rw [frameCount] at hlt ⊢
      omega
    rw [hk]
    exact getElem?_leadingBytes_length s.inq b
  · nofun

/-- The enabled event is `frameEvent` (R182). -/
theorem frameEnabled_iff (e : FrameEvent) (dir : Dir) (s : State) :
    frameEnabled e dir s ↔ e = frameEvent dir s := by
  have hle : frameCount dir s ≤ frameIn dir s := Nat.min_le_left _ _
  rcases hle.eq_or_lt with hk | hk
  · have hterm : frameTerm dir s = none := by rw [frameTerm, if_neg (by omega)]
    by_cases hroom : s.outq.length + frameOut dir s ≤ s.cfg.outDepth <;>
      cases e <;> simp [frameEnabled, frameEvent, frameFits, hk, hterm, hroom]
  · have hne : frameCount dir s ≠ frameIn dir s := hk.ne
    cases hterm : frameTerm dir s with
    | none => cases e <;> simp [frameEnabled, frameEvent, hk, hne, hterm]
    | some t =>
      cases t with
      | byte b => exact absurd hterm (frameTerm_ne_byte dir s b)
      | error => cases e <;> simp [frameEnabled, frameEvent, hk, hne, hterm]
      | eos =>
        by_cases h0 : frameCount dir s = 0
        · have hin : 0 ≠ frameIn dir s := h0 ▸ hne
          cases e <;> simp [frameEnabled, frameEvent, hin, hterm, h0]
        · have hpos : 1 ≤ frameCount dir s := Nat.one_le_iff_ne_zero.2 h0
          by_cases hroom : s.outq.length + frameOut dir s ≤ s.cfg.outDepth <;> cases e <;>
            simp [frameEnabled, frameEvent, frameFits, hk, hne, hterm, h0, hpos, hroom]

/-- The engine's step in the frame loop, by the event that is enabled (R178 to R182). -/
theorem exec_frameStep {s : State} {dir : Dir} {e : FrameEvent} (hp : s.phase = .stream dir)
    (ha : s.abortPend = false) (he : frameEnabled e dir s) :
    exec (dirInstr dir) s = .next (frameStep dir s e) := by
  rw [exec_stream dir s hp, streamStep_eq_frameStep dir ha, ← (frameEnabled_iff e dir s).1 he]

/-- The engine moves on in every event but a hold: FRAMES counts a frame, or the phase is Idle. -/
theorem frameStep_ne {s : State} {dir : Dir} {e : FrameEvent} (hp : s.phase = .stream dir)
    (hin : e ≠ .holdInput) (hout : e ≠ .holdOutput) : frameStep dir s e ≠ s := by
  have hidle : ∀ r u, complete r u ≠ s := fun r u hs => by
    have := complete_phase r u
    rw [hs, hp] at this
    cases this
  cases e with
  | full =>
    intro hs
    have hframes : s.frames + 1 = s.frames := congrArg State.frames hs
    simp at hframes
  | short => exact hidle _ _
  | ending => exact hidle _ _
  | ioError => exact hidle _ _
  | holdInput => exact absurd rfl hin
  | holdOutput => exact absurd rfl hout

/-- Settles O48: the event is a function of the state, and a step of the loop is that of its
event. -/
theorem exactlyOneFrameEvent : Obligations.ExactlyOneFrameEvent := by
  intro s dir hp ha
  have henabled : frameEnabled (frameEvent dir s) dir s := (frameEnabled_iff _ dir s).2 rfl
  refine ⟨⟨_, henabled, fun e he => (frameEnabled_iff e dir s).1 he⟩, ?_, fun hin hout => ?_⟩
  · rintro (hin | hout)
    · exact exec_frameStep hp ha hin
    · exact exec_frameStep hp ha hout
  · refine ⟨_, exec_frameStep hp ha henabled, frameStep_ne hp ?_ ?_⟩
    · exact fun he => hin (he ▸ henabled)
    · exact fun he => hout (he ▸ henabled)

/-! The frame at the head of the queue (R177). -/

/-- The bytes at the head of a queue, up to the first token that is none (R177). -/
theorem leadingBytes_append (bs : List Byte) (rest : List Token) :
    leadingBytes (bs.map Token.byte ++ rest) = bs ++ leadingBytes rest := by
  induction bs with
  | nil => rfl
  | cons b bs ih => rw [List.map_cons, List.cons_append, leadingBytes, ih, List.cons_append]

/-- `bs` are the `k` bytes of R177 at the head of `inq`, and `rest` stands behind them: a full
frame, or an incomplete one with no byte behind it. -/
structure AtFrame (dir : Dir) (s : State) (bs : List Byte) (rest : List Token) : Prop where
  inq : s.inq = bs.map Token.byte ++ rest
  width : bs.length = frameIn dir s ∨ bs.length < frameIn dir s ∧ leadingBytes rest = []

section AtFrame

variable {dir : Dir} {s : State} {bs : List Byte} {rest : List Token} (h : AtFrame dir s bs rest)
include h

/-- `k` is the number of the frame's bytes (R177). -/
theorem AtFrame.frameCount_eq : frameCount dir s = bs.length := by
  rw [frameCount, h.inq, leadingBytes_append, List.length_append]
  rcases h.width with hw | ⟨hw, hrest⟩
  · omega
  · rw [hrest, List.length_nil]
    omega

/-- The chunk of the frame is its bytes (R178, R179). -/
theorem AtFrame.frameChunk_eq : frameChunk dir s = bs := by
  rw [frameChunk, h.frameCount_eq, h.inq, leadingBytes_append, List.take_left]

/-- `term` of an incomplete frame is the token behind its bytes (R177). -/
theorem AtFrame.frameTerm_eq (hlt : bs.length < frameIn dir s) :
    frameTerm dir s = rest.head? := by
  rw [frameTerm, h.frameCount_eq, if_pos hlt, h.inq, List.getElem?_append_right (by simp)]
  simp [List.head?_eq_getElem?]

/-- The tokens behind the frame's bytes and `n` more (R178 to R181). -/
theorem AtFrame.drop_inq (n : Nat) : s.inq.drop (bs.length + n) = rest.drop n := by
  rw [h.inq, ← List.drop_drop, List.drop_left' (by simp)]

/-- The output frame of the frame's bytes (R178, R179). -/
theorem AtFrame.emitFrame_eq (n : Nat) :
    emitFrame dir (bs.length + n) s
      = { s with
          inq := rest.drop n, outq := s.outq ++ frameFn dir s bs, frames := s.frames + 1 } := by
  rw [emitFrame, h.drop_inq, h.frameChunk_eq]

end AtFrame

/-! The steps of the frame loop (R178 to R181). -/

/-- Settles O43: the frame is full and its output frame fits. -/
theorem fullFrameStep : Obligations.FullFrameStep := by
  intro s dir bs rest hp ha hq hl hroom
  have h : AtFrame dir s bs rest := ⟨hq, .inl hl⟩
  have he : frameEnabled .full dir s := ⟨h.frameCount_eq.trans hl, hroom⟩
  rw [exec_frameStep hp ha he, frameStep, fullFrame, h.frameCount_eq]
  exact congrArg _ (h.emitFrame_eq 0)

/-- Settles O44: the frame is incomplete with End behind it, and its output frame fits. -/
theorem shortFinalFrameStep : Obligations.ShortFinalFrameStep := by
  intro s dir bs rest hp ha hq hpos hl hroom
  have h : AtFrame dir s bs (.eos :: rest) := ⟨hq, .inr ⟨hl, rfl⟩⟩
  have he : frameEnabled .short dir s := by
    rw [frameEnabled, h.frameCount_eq]
    exact ⟨hpos, hl, h.frameTerm_eq hl, hroom⟩
  rw [exec_frameStep hp ha he, frameStep, shortFrame, h.frameCount_eq, h.emitFrame_eq 1,
    complete_no_writes]
  rfl

/-- An End token at a frame boundary ends the command (R180). -/
theorem exec_endStep {s : State} {dir : Dir} {rest : List Token} (hp : s.phase = .stream dir)
    (ha : s.abortPend = false) (hq : s.inq = .eos :: rest) (hin : 1 ≤ frameIn dir s) :
    exec (dirInstr dir) s = .next (succeeded false false { s with inq := rest }) := by
  have h : AtFrame dir s [] (.eos :: rest) := ⟨hq, .inr ⟨hin, rfl⟩⟩
  have he : frameEnabled .ending dir s := ⟨h.frameCount_eq, h.frameTerm_eq hin⟩
  rw [exec_frameStep hp ha he, frameStep, endStep, complete_no_writes, hq]
  rfl

/-- Settles O46: the frame is incomplete with Error behind it. -/
theorem ioErrorStep : Obligations.IoErrorStep := by
  intro s dir bs rest hp ha hq hl
  have h : AtFrame dir s bs (.error :: rest) := ⟨hq, .inr ⟨hl, rfl⟩⟩
  have he : frameEnabled .ioError dir s := ⟨h.frameCount_eq.trans_lt hl, h.frameTerm_eq hl⟩
  rw [exec_frameStep hp ha he, frameStep, Machine.ioErrorStep, h.frameCount_eq, h.drop_inq 1]
  exact congrArg _ (complete_raise s.frames _ nofun)

/-! A whole stream (R184, R185). -/

/-- The chunks of a stream: the full ones, and the last one if it has any byte (R184). -/
def streamChunks (cs : List (List Byte)) (last : List Byte) : List (List Byte) :=
  if last = [] then cs else cs ++ [last]

/-- A full chunk in front of a stream is the first of its chunks. -/
theorem streamChunks_cons (c : List Byte) (cs : List (List Byte)) (last : List Byte) :
    streamChunks (c :: cs) last = c :: streamChunks cs last := by
  rw [streamChunks, streamChunks]
  split <;> rfl

/-- `s` with the output frames of `chunks` appended and counted, and `q` left in `inq`. -/
def framesOut (dir : Dir) (chunks : List (List Byte)) (q : List Token) (s : State) : State :=
  { s with
    inq := q
    outq := s.outq ++ chunks.flatMap (frameFn dir s)
    frames := s.frames + BitVec.ofNat 32 chunks.length }

/-- No chunk leaves no output frame. -/
theorem framesOut_nil (dir : Dir) (q : List Token) (s : State) :
    framesOut dir [] q s = { s with inq := q } := by
  simp [framesOut]

/-- One chunk leaves the output frame of R178 and R179. -/
theorem framesOut_singleton (dir : Dir) (c : List Byte) (q : List Token) (s : State) :
    framesOut dir [c] q s
      = { s with inq := q, outq := s.outq ++ frameFn dir s c, frames := s.frames + 1 } := by
  simp [framesOut]

/-- The output frames are appended one after another (R178). -/
theorem framesOut_cons (dir : Dir) (c : List Byte) (chunks : List (List Byte))
    (q q' : List Token) (s : State) :
    framesOut dir (c :: chunks) q s = framesOut dir chunks q (framesOut dir [c] q' s) := by
  have hfn : frameFn dir (framesOut dir [c] q' s) = frameFn dir s := by
    cases dir <;> rfl
  rw [framesOut, framesOut, hfn, framesOut_singleton]
  simp [BitVec.ofNat_add, add_comm, add_left_comm]

/-- FRAMES counts from the acceptance of the command (R33, R100). -/
theorem framesOut_of_frames_zero (dir : Dir) (chunks : List (List Byte)) (q : List Token)
    {s : State} (hf : s.frames = 0) :
    framesOut dir chunks q s
      = { s with
          inq := q
          outq := s.outq ++ chunks.flatMap (frameFn dir s)
          frames := BitVec.ofNat 32 chunks.length } := by
  rw [framesOut, hf, zero_add]

/-- A step of the frame loop begins a run when the host has no move left (R14; log 1). -/
theorem run_stream_succ {s t : State} {dir : Dir} (k : Nat) (hp : s.phase = .stream dir)
    (hg : s.agenda = []) (ht : exec (dirInstr dir) s = .next t) :
    Host.Core.run Sys2Proof.core (k + 1) s = Host.Core.run Sys2Proof.core k t := by
  refine run_succ k s t ?_
  rw [step_engine_alone s hg, engineStep_stream s dir hp, ht]

/-- The last step of the frame loop: the End step, or a short final frame (R179, R180). -/
theorem exec_lastStep {s : State} {dir : Dir} {last : List Byte} {rest : List Token}
    (hp : s.phase = .stream dir) (ha : s.abortPend = false) (hlast : last.length < frameIn dir s)
    (hq : s.inq = last.map Token.byte ++ .eos :: rest)
    (hroom : s.outq.length + frameOut dir s * (streamChunks [] last).length ≤ s.cfg.outDepth) :
    exec (dirInstr dir) s = .next (succeeded false (decide (last ≠ []))
      (framesOut dir (streamChunks [] last) rest s)) := by
  rw [streamChunks] at hroom ⊢
  split at hroom
  · next hl =>
    subst hl
    rw [if_pos rfl, framesOut_nil]
    exact exec_endStep hp ha hq hlast
  · next hl =>
    rw [if_neg hl, List.nil_append, framesOut_singleton, decide_eq_true hl]
    exact shortFinalFrameStep s dir last rest hp ha hq (List.length_pos_iff.2 hl) hlast
      (by simpa using hroom)

/-- The frame loop on an input queued whole whose output fits (R178 to R180, R184, R185). -/
theorem run_frameLoop {dir : Dir} {last : List Byte} {rest : List Token}
    (cs : List (List Byte)) : ∀ s : State, s.phase = .stream dir → s.abortPend = false →
    s.agenda = [] → (∀ c ∈ cs, c.length = frameIn dir s) → last.length < frameIn dir s →
    s.inq = (cs.flatten ++ last).map Token.byte ++ .eos :: rest →
    s.outq.length + frameOut dir s * (streamChunks cs last).length ≤ s.cfg.outDepth →
    Host.Core.run Sys2Proof.core (cs.length + 1) s = .next
      (succeeded false (decide (last ≠ [])) (framesOut dir (streamChunks cs last) rest s)) := by
  induction cs with
  | nil =>
    intro s hp ha hg _ hlast hq hroom
    exact run_stream_succ 0 hp hg (exec_lastStep hp ha hlast hq hroom)
  | cons c cs ih =>
    intro s hp ha hg hcs hlast hq hroom
    rw [streamChunks_cons, List.length_cons, Nat.mul_succ] at hroom
    let q := (cs.flatten ++ last).map Token.byte ++ .eos :: rest
    have hstep : exec (dirInstr dir) s = .next (framesOut dir [c] q s) := by
      rw [framesOut_singleton]
      exact fullFrameStep s dir c q hp ha (by simpa [q] using hq) (hcs c List.mem_cons_self)
        (by omega)
    have hroom' : (framesOut dir [c] q s).outq.length
        + frameOut dir s * (streamChunks cs last).length ≤ s.cfg.outDepth := by
      simp only [framesOut_singleton, List.length_append, frameFn_length]
      omega
    rw [streamChunks_cons, framesOut_cons dir c _ rest q]
    exact (run_stream_succ (cs.length + 1) hp hg hstep).trans
      (ih (framesOut dir [c] q s) hp ha hg (fun c' hc' => hcs c' (List.mem_cons_of_mem c hc')) hlast
        rfl hroom')

/-- Settles O51: the check step, then the frame loop. -/
theorem streamCommandAsAFunction : Obligations.StreamCommandAsAFunction := by
  intro s dir cs last rest h hp hg hk he hd hcs hlast hq chunks hroom t
  have ha : t.abortPend = false := h.phase.idle hp
  have hbusy : t.phase = .busy (.instr (dirInstr dir)) (takeSnapshot s) := by
    rw [accept_phase, decode_encodeInstr]
  have hcap : capable dir (takeSnapshot s) = true := by
    cases dir
    · exact he rfl
    · exact hd rfl
  have hcheck : step t = .next { t with phase := .stream dir } := by
    rw [step_engine_alone t hg, engineStep_instr t _ _ hbusy, exec_streamCheck hbusy,
      streamCheck_capable ha hk hcap]
  have hframes : t.frames = 0 := by
    rw [accept_frames, decode_encodeInstr, if_pos ((isStreamCommand_iff _).2 ⟨dir, rfl⟩)]
  let u : State := { t with phase := .stream dir }
  refine (run_succ (cs.length + 1) t u hcheck).trans
    ((run_frameLoop cs u rfl ha hg hcs hlast hq hroom).trans ?_)
  rw [framesOut_of_frames_zero dir _ rest (s := u) hframes]
  rfl

/-- In a consistent state with a Constructed key an input frame has a byte at least (R32). -/
theorem frameIn_pos {s : State} (h : Inv s) (hk : s.keyconf = true) (dir : Dir) :
    1 ≤ frameIn dir s := by
  obtain ⟨hplen, hle, -, -⟩ := blockLengthsAreBounded s h hk
  cases dir
  · exact hplen
  · exact hplen.trans hle

/-- Settles O45: the End step, and the stream command of no chunk at all. -/
theorem endOfStreamStep : Obligations.EndOfStreamStep := by
  refine ⟨fun _ _ _ => exec_endStep, fun s dir rest h hp hg hk he hd hq => ?_⟩
  have hrun := streamCommandAsAFunction s dir [] [] rest h hp hg hk he hd (by simp)
    (frameIn_pos h hk dir) hq h.queues.outq
  exact ⟨_, hrun, rfl, List.append_nil _, rfl, rfl, rfl⟩

end Sys2Proof.FrameProcessor

/-! PROOFS. Errors and abort (spec/60_exceptions.md): the codes of STATUS.ERRCODE, and the abort
step. -/

namespace Sys2Proof.Exceptions

open Sys2Proof.Machine Sys2Proof.Laws Sys2Proof.FrameProcessor

/-! The error codes (R200). -/

/-- Settles O19: each code is an equation of `errCodeBits`. -/
theorem errorCodeNumbers : Obligations.ErrorCodeNumbers :=
  ⟨rfl, rfl, rfl, rfl, rfl, rfl, rfl, rfl, rfl, rfl, rfl⟩

/-! The abort step (R210). -/

/-- A requested abort comes before every other event of the frame loop (R210). -/
theorem streamStep_abort (dir : Dir) {s : State} (ha : s.abortPend = true) :
    streamStep dir s = abortStep s := if_pos ha

/-- Settles O47: an accepted command aborts in its check step, and a running one in its frame
loop. -/
theorem abortStep : Obligations.AbortStep := by
  intro s dir ha hp
  rcases hp with ⟨snap, hbusy⟩ | hloop
  · exact (exec_streamCheck_outcomes hbusy).1 ha
  · rw [exec_stream dir s hloop, streamStep_abort dir ha, abortStep_eq]

end Sys2Proof.Exceptions
